-- ==== Sys2Proof/Word.lean ====
section
/-! DEFINITION. The word types of the Chorus DSP engine (R11, R12, R13). -/

namespace Sys2Proof

/-- One byte of the byte layout R55 gives for the word addressed memories. -/
abbrev Byte := BitVec 8

/-- A 32-bit word: a control register (R21) or a command word (R71). Also the type `u32` of R12. -/
abbrev Word := BitVec 32

/-- The number format `F` of R13: the bit pattern of an IEEE 754 binary32 value, sign in bit 31, exponent in
bits 30:23, fraction in bits 22:0 (R55). -/
abbrev F := BitVec 32

end Sys2Proof
end

