-- ==== Sys2Proof/Config.lean ====
section
/-! DEFINITION. What one hardware instance fixes (R6, R9) and the free values the spec leaves open.
The open parameters of 92_eei_decisions.md section 1 that have a default are one record, a parameter of the step relation
(log 5). -/

namespace Sys2Proof.Config

/-- `OVERSAMPLE` of R6. -/
def oversample : Nat := 4

/-- How many word indices each channel has in `IN` and in `OUT`: the largest legal `HOSTBUF_LEN` (R53 leaves the mapping to the
platform, log 12). -/
def channelSpan : Nat := 4294967296

/-- The lowest host sample rate INIT accepts (R6, D8). -/
def minRate : Nat := 6

/-- The highest host sample rate INIT accepts (R6, D8). -/
def maxRate : Nat := 4194304

/-- `MAX_DEPTH_S`, rn32(0.005) (R6). -/
def maxDepthS : F := 0x3BA3D70A#32

/-- `MIN_RATE_HZ`, rn32(0.05) (R6). -/
def minRateHz : F := 0x3D4CCCCD#32

/-- `MAX_RATE_HZ`, 20.0 (R6). -/
def maxRateHz : F := 0x41A00000#32

/-- `FB_GAIN`, rn32(0.8) (R6). -/
def fbGain : F := 0x3F4CCCCD#32

/-- `CLIP_GAIN`, rn32(1.03) (R6). -/
def clipGain : F := 0x3F83D70A#32

/-- `TWO_PI`, rn32(2π) (R6). -/
def twoPi : F := 0x40C90FDB#32

/-- Free value behind `PARAM_INIT` (R6, D22: no default), applied to the parameter id; `paramInit` of
Machine/Constants.lean turns it into a legal value of that id, and every legal value comes from some word (log 6). -/
opaque paramInitBits : Nat → Word

/-- Free value: sign and payload of a NaN an operation produces (R15), applied to the step's number and to the place
of the store within the step (log 7). -/
opaque nanDraw : Nat → Nat → Word

/-- Free value: whether the host (`true`) or the engine moves next when both can (R62), applied to the step's
number (log 2). -/
opaque turnDraw : Nat → Bool

/-- Free value: which of the admitted words a racing access of R61 sees, applied to the step's number and to the
place of the access within the step (log 13). -/
opaque raceDraw : Nat → Nat → Nat

end Sys2Proof.Config

namespace Sys2Proof

/-- The parameters of one hardware instance that R6 leaves open, as 92_eei_decisions.md section 1 lists them, `PARAM_INIT` and
`NUM` apart (log 5, log 6). Any values can stand here; `HwParams.Legal` says which make an instance. -/
structure HwParams where
  /-- `MAX_CH`, the largest channel count INIT accepts. -/
  maxCh : Nat
  /-- `DLY_RAM_WORDS`, the delay RAM in words. -/
  dlyRamWords : Nat
  /-- `HOSTBUF_LEN`, the words per channel in `IN` and in `OUT`. -/
  hostBufLen : Nat
  /-- `WT_N`, the wavetable length. -/
  wtN : Nat
  /-- The function `BUF_SIZE` of `FS_INT`: where it differs from its default `FS_INT`, as pairs `(FS_INT, BUF_SIZE)`. The legal
  values of `FS_INT` are finitely many, so every function is some list. -/
  bufSizes : List (Nat × Nat)
  deriving DecidableEq, Repr

/-- Every open parameter at the default R6 gives. -/
def HwParams.default : HwParams where
  maxCh := 2
  dlyRamWords := 2 * 16777216
  hostBufLen := 4294967296
  wtN := 65536
  bufSizes := []

end Sys2Proof
end

