-- ==== Sys2Proof/Machine/Numerics.lean ====
section
/-! DEFINITION. The numerics record `NUM` at its default: IEEE 754 binary32, round to nearest ties to even, gradual
underflow, signed zeros (R13), correctly rounded `TANH` (R14), `CLAMP01` (R17), `LERP` (R18). The IEEE rules the spec names
but does not spell out are log 20.

Every finite value of F is an integer multiple of 2^-149, the smallest subnormal. Arithmetic is exact on those integers
(`value`), and rounds once at the end (`roundUnits`). -/

namespace Sys2Proof.Num

/-! ## The format -/

/-- Bits 30:0, the pattern of the magnitude. -/
def low31 (a : F) : Nat := a.toNat % 2147483648

/-- Bit 31, the sign. -/
def sign (a : F) : Bool := decide (2147483648 ≤ a.toNat)

/-- True exactly for NaN (R13). -/
def isNaN (a : F) : Bool := decide (2139095040 < low31 a)

/-- True exactly for the two infinities. -/
def isInf (a : F) : Bool := low31 a == 2139095040

/-- Neither NaN nor infinite. -/
def isFinite (a : F) : Bool := decide (low31 a < 2139095040)

/-- The magnitude, in units of 2^-149, of the finite value with magnitude pattern `n` (exponent `n / 2^23`, fraction
`n % 2^23`). At the pattern of infinity it gives 2^277, which is above every finite magnitude. -/
def units (n : Nat) : Nat :=
  if n / 8388608 = 0 then n % 8388608 else (8388608 + n % 8388608) * 2 ^ (n / 8388608 - 1)

/-- The magnitude of `a` in units of 2^-149. -/
def mag (a : F) : Nat := units (low31 a)

/-- The value of `a` in units of 2^-149; the infinities stand beyond every finite value, so that comparisons of
non-NaN values are comparisons of `value`. -/
def value (a : F) : Int := if sign a then -(mag a : Int) else (mag a : Int)

/-- The bit pattern with sign `s` and magnitude pattern `n`. -/
def pack (s : Bool) (n : Nat) : F := BitVec.ofNat 32 (if s then 2147483648 + n else n)

/-- The NaN the primitives answer with. Sign and payload of a NaN are free (R15): every value an operation produces
goes through `settle` where it is stored (log 7). -/
def nan : F := 0x7FC00000#32

/-- `+0.0`. -/
def zero : F := 0x00000000#32

/-- `0.5`. -/
def half : F := 0x3F000000#32

/-- `1.0`. -/
def one : F := 0x3F800000#32

/-- Infinity with sign `s`. -/
def inf (s : Bool) : F := pack s 2139095040

/-- The NaN with the sign and payload of the free word `bits` (a zero payload, which no NaN has, becomes the quiet
bit). Every NaN pattern is some word's. -/
def nanOf (bits : Word) : F :=
  if bits.toNat % 8388608 = 0 then pack (sign bits) 2143289344 else pack (sign bits) (2139095040 + bits.toNat % 8388608)

/-- A value an operation has produced, as it is stored: unchanged unless it is NaN, and then a NaN with free sign and
payload (R15, log 7). -/
def settle (bits : Word) (a : F) : F := if isNaN a then nanOf bits else a

/-! ## Rounding -/

/-- `num / den` rounded to the nearest integer, ties to even. -/
def roundQuot (num den : Nat) : Nat :=
  if den < 2 * (num % den) ∨ (den = 2 * (num % den) ∧ num / den % 2 = 1) then num / den + 1 else num / den

/-- The magnitude pattern nearest `num / den` units of 2^-149, ties to even (R13). The exponent step `e` is the least that
leaves a significand of at most 24 bits; a significand that rounds up to 2^24 carries into the exponent by itself, and
whatever is beyond the finite values is infinity. -/
def roundUnits (num den : Nat) : Nat :=
  min (((num / den).log2 - 23) * 8388608 + roundQuot num (den * 2 ^ ((num / den).log2 - 23))) 2139095040

/-- `rn32(num / den)` for a rational that is not negative (R13). -/
def rnRat (num den : Nat) : F := pack false (roundUnits (num * 2 ^ 149) den)

/-- `ofNat(n)` of R13. -/
def ofNat (n : Nat) : F := rnRat n 1

/-- `ofInt(n)` of R13. -/
def ofInt (n : Int) : F := pack (decide (n < 0)) (roundUnits (n.natAbs * 2 ^ 149) 1)

/-! ## Arithmetic (R13) -/

/-- Sign reversal. -/
def neg (a : F) : F := pack (!sign a) (low31 a)

/-- `fadd` of R13. An exact zero sum is `+0.0` unless both operands are negative (log 20). -/
def fadd (a b : F) : F :=
  if isNaN a || isNaN b then nan
  else if isInf a then (if isInf b && (sign a != sign b) then nan else a)
  else if isInf b then b
  else if value a + value b = 0 then pack (sign a && sign b) 0
  else pack (decide (value a + value b < 0)) (roundUnits (value a + value b).natAbs 1)

/-- `fsub` of R13. -/
def fsub (a b : F) : F := fadd a (neg b)

/-- `fmul` of R13. -/
def fmul (a b : F) : F :=
  if isNaN a || isNaN b then nan
  else if (isInf a && mag b == 0) || (isInf b && mag a == 0) then nan
  else if isInf a || isInf b then inf (sign a != sign b)
  else pack (sign a != sign b) (roundUnits (mag a * mag b) (2 ^ 149))

/-- `fdiv` of R13. -/
def fdiv (a b : F) : F :=
  if isNaN a || isNaN b then nan
  else if (isInf a && isInf b) || (mag a == 0 && mag b == 0) then nan
  else if isInf a || mag b == 0 then inf (sign a != sign b)
  else if isInf b then pack (sign a != sign b) 0
  else pack (sign a != sign b) (roundUnits (mag a * 2 ^ 149) (mag b))

/-! ## Comparisons (R13): false on NaN, except `fne` -/

/-- Neither operand is NaN. -/
def ordered (a b : F) : Bool := !isNaN a && !isNaN b

/-- `a < b`. -/
def flt (a b : F) : Bool := ordered a b && decide (value a < value b)

/-- `a <= b`. -/
def fle (a b : F) : Bool := ordered a b && decide (value a ≤ value b)

/-- `a >= b`. -/
def fge (a b : F) : Bool := ordered a b && decide (value b ≤ value a)

/-- `a = b`; the two zeros are equal. -/
def feq (a b : F) : Bool := ordered a b && decide (value a = value b)

/-- `a ≠ b`; true when an operand is NaN. -/
def fne (a b : F) : Bool := !feq a b

/-! ## Integers of a value -/

/-- `floor(a)` of R13: the mathematical integer, none for NaN and infinity (never applied to them, R16). -/
def floor (a : F) : Option Int := if isFinite a then some (value a / 2 ^ 149) else none

/-- `ceil(a)` of R13. -/
def ceil (a : F) : Option Int := if isFinite a then some (-(-value a / 2 ^ 149)) else none

/-! ## CLAMP01, LERP -/

/-- `CLAMP01` of R17. -/
def clamp01 (a : F) : F :=
  if isNaN a then zero
  else if flt a zero then zero
  else if flt one a then one
  else a

/-- `LERP` of R18: three roundings. -/
def lerp (a b t : F) : F := fadd a (fmul (fsub b a) t)

/-! ## TANH (R14)

`tanh x = (exp 2x - 1) / (exp 2x + 1)`, the exponential by its power series in Horner form on integers scaled by 2^192, one
rounding at the end, as the reference computation of 95_test_vectors.md does in 80-digit decimals (log 8). -/

/-- The scale of the fixed-point series. -/
def scale : Nat := 2 ^ 192

/-- `1 + y/k * (1 + y/(k+1) * (1 + ...))`, `fuel` factors, everything scaled by 2^192. With `k = 1`: `exp y`. -/
def expSeries (y : Nat) : Nat → Nat → Nat
  | 0, _ => scale
  | fuel + 1, k => scale + y * expSeries y fuel (k + 1) / (k * scale)

/-- `exp(2x)` scaled by 2^192, for `x` of magnitude pattern `n` with `2^-13 <= x < 9.5`. -/
def expTwice (n : Nat) : Nat := expSeries (units n * 2 ^ 44) 150 1

/-- The magnitude pattern of `rn32(tanh x)` for such `x`. -/
def tanhPattern (n : Nat) : Nat := roundUnits ((expTwice n - scale) * 2 ^ 149) (expTwice n + scale)

/-- `TANH` of R14. Below 2^-13 the correctly rounded value is `a` itself (`x - tanh x < x^3 / 3` is under half a unit in the
last place), from 9.5 on it is 1.0 (`1 - tanh x < 2^-25`); in between the series (log 8). -/
def tanh (a : F) : F :=
  if isNaN a then nan
  else if low31 a < 0x39000000 then a
  else if 0x41180000 ≤ low31 a then pack (sign a) 0x3F800000
  else pack (sign a) (tanhPattern (low31 a))

end Sys2Proof.Num
end

