-- ==== Sys2Proof/Syntax.lean ====
section
/-! DEFINITION. The six commands (R74), one constructor per row of the opcode table. The operands of a command travel in
`ARG0` and `ARG1` and are not part of the word (R77), so only the parameter id is an argument here. -/

namespace Sys2Proof

/-- A command. `pid` is the parameter id of the P formats (R71, R72), an unsigned 8-bit integer (R8). -/
inductive Instr where
  /-- Format A, `OPC` 0x01: configure the engine and create all state (R160). -/
  | init
  /-- Format Z, `OPC` 0x02: flush the audio history (R162). -/
  | reset
  /-- Format A, `OPC` 0x03: start a block (R110). -/
  | process
  /-- Format P1, `OPC` 0x04: set a parameter (R150). -/
  | setp (pid : Nat)
  /-- Format P0, `OPC` 0x05: read a parameter (R151). -/
  | getp (pid : Nat)
  /-- Format P2, `OPC` 0x06: start an explicit ramp (R152). -/
  | ramp (pid : Nat)
  deriving DecidableEq, Repr

/-- The five formats of R72. -/
inductive Format where
  /-- No operands; `PID` must be 0. -/
  | z
  /-- `ARG0` and `ARG1` as u32; `PID` must be 0. -/
  | a
  /-- `PID` only. -/
  | p0
  /-- `PID`; `ARG0` as F. -/
  | p1
  /-- `PID`; `ARG0` as F, `ARG1` as u32. -/
  | p2
  deriving DecidableEq, Repr

/-- The format of each command (R72). -/
def Instr.format : Instr → Format
  | .init => .a
  | .reset => .z
  | .process => .a
  | .setp _ => .p1
  | .getp _ => .p0
  | .ramp _ => .p2

/-- Why the decoder rejects a word: the three conditions of R76, in the order R80 checks them. All three are
reported with the one code `E_ILLEGAL`. -/
inductive DecodeError where
  /-- Bits 31:16 are not zero. -/
  | mbzNotZero
  /-- `OPC` is not one of 1 to 6. -/
  | reservedOpcode
  /-- `PID` is not zero in format Z or A. -/
  | pidNotZero
  deriving DecidableEq, Repr

end Sys2Proof
end

