-- ==== Sys2Proof/WellFormed.lean ====
section
/-! DEFINITION. Which commands can be written as a word, and which parameters make a hardware instance (R6, R7). -/

namespace Sys2Proof

/-- A command is well formed when its parameter id fits the 8-bit `PID` field (R8, R71). Unknown ids (5 to 255) are
legal encodings (R75). -/
abbrev Instr.WellFormed : Instr → Prop
  | .init => True
  | .reset => True
  | .process => True
  | .setp pid => pid < 256
  | .getp pid => pid < 256
  | .ramp pid => pid < 256

/-- The constraints R7 puts on `BUF_SIZE` for a given `FS_INT`: at least 2, at least `ceil(0.015 * FS_INT) + 2`, at most
2^24. -/
abbrev LegalBufSize (fsInt size : Nat) : Prop :=
  2 ≤ size ∧ (15 * fsInt + 999) / 1000 + 2 ≤ size ∧ size ≤ 16777216

/-- The host sample rates INIT accepts (R6, R161). -/
abbrev LegalRate (fs : Nat) : Prop := Config.minRate ≤ fs ∧ fs ≤ Config.maxRate

end Sys2Proof
end

