-- ==== Sys2Proof/Machine/Constants.lean ====
section
/-! DEFINITION. The derived parameters of R6, as functions of `FS_HOST`, and which open parameters make a hardware instance. -/

namespace Sys2Proof.Machine

/-- `FS_INT = OVERSAMPLE * FS_HOST`. -/
def fsInt (fs : Nat) : Nat := Config.oversample * fs

/-- `FS_INT_F`, exact because `FS_INT <= 2^24`. -/
def fsIntF (fs : Nat) : F := Num.ofNat (fsInt fs)

/-- `BUF_SIZE` of an instance for a host rate: a function of `FS_INT`, by default `FS_INT` itself (R6, D9). -/
def bufSize (p : HwParams) (fs : Nat) : Nat := (p.bufSizes.lookup (fsInt fs)).getD (fsInt fs)

/-- What R6, R7 and 92_eei_decisions.md section 1 ask of the open parameters. The bound on `WT_N` keeps the index factor of
R92 finite, as R16 needs it (log 24). -/
abbrev Legal (p : HwParams) : Prop :=
  1 ≤ p.maxCh ∧ (1 ≤ p.hostBufLen ∧ p.hostBufLen ≤ 4294967296) ∧
  (2 ≤ p.wtN ∧ Num.isFinite (Num.ofNat (p.wtN - 1)) = true) ∧
  (∀ e ∈ p.bufSizes, e.1 % Config.oversample = 0 → LegalRate (e.1 / Config.oversample) → LegalBufSize e.1 e.2) ∧
  bufSize p Config.minRate ≤ p.dlyRamWords

/-- `DEZIP_MIX = floor(FS_INT / 50)`. -/
def dezipMix (fs : Nat) : Word := BitVec.ofNat 32 (fsInt fs / 50)

/-- `DEZIP_RATE = floor(FS_INT / 10)`. -/
def dezipRate (fs : Nat) : Word := BitVec.ofNat 32 (fsInt fs / 10)

/-- `DEZIP_DEPTH = floor(FS_INT / 10)`. -/
def dezipDepth (fs : Nat) : Word := BitVec.ofNat 32 (fsInt fs / 10)

/-- `PREDELAY = rn32(FS_INT / 100)`. -/
def predelay (fs : Nat) : F := Num.rnRat (fsInt fs) 100

/-- `PHASE_K = fdiv(TWO_PI, FS_INT_F)`. -/
def phaseK (fs : Nat) : F := Num.fdiv Config.twoPi (fsIntF fs)

/-- `RATE_SPAN = fsub(MAX_RATE_HZ, MIN_RATE_HZ)`. -/
def rateSpan : F := Num.fsub Config.maxRateHz Config.minRateHz

/-- `PARAM_INIT[pid]` (D22): any value of `[0,1]` for ids 0 to 2, either 0.0 or 1.0 for ids 3 and 4, which one is free
(log 6). -/
def paramInit (pid : Nat) : F :=
  if pid < 3 then Num.clamp01 (Config.paramInitBits pid)
  else if (Config.paramInitBits pid).toNat % 2 = 1 then Num.one else Num.zero

end Sys2Proof.Machine
end

