-- ==== Sys2Proof/Machine/State.lean ====
section
/-! DEFINITION. Everything the machine holds, in three parts: the engine's state (R20), the parameters of its step relation (R34),
and the host with the observable result of a run (R53, R198, log 25). Plain data only. -/

namespace Sys2Proof.Machine

/-- A word addressed memory, kept as byte cells by the layout of R55: word `i` occupies the byte addresses `4 * i` to
`4 * i + 3`, least significant byte first. Canonical form: addresses strictly rising, no zero byte listed; an unlisted
address reads as 0 (log 10, log 11). -/
abbrev Memory := List Host.Cell

/-- `STATE` (R22, R24); the value 3 never occurs. -/
inductive Lifecycle where
  | uninit
  | ready
  | busy
  deriving DecidableEq, Repr

/-- The result codes of R172; codes 8 to 255 never occur. -/
inductive Code where
  /-- 0: accepted. -/
  | none
  /-- 1: INIT with zero channels. -/
  | zeroCh
  /-- 2: INIT with a zero delay buffer. -/
  | zeroBuf
  /-- 3: INIT that does not fit the delay RAM or the channel count. -/
  | alloc
  /-- 4: INIT with a host rate outside 6 to 4194304. -/
  | badRate
  /-- 5: a word that is no command. -/
  | illegal
  /-- 6: a command the current `STATE` does not allow. -/
  | state
  /-- 7: a PROCESS beyond the host buffers. -/
  | range
  deriving DecidableEq, Repr

/-- A ramper (R27). -/
structure Ramper where
  /-- The last externally requested target. -/
  ui : F
  /-- The value the ramp in progress ends at. -/
  goal : F
  /-- `(value at ramp start - goal) / duration`. -/
  slope : F
  /-- Remaining ramp duration in samples; 0 means no ramp is active. -/
  rem : Word
  deriving DecidableEq, Repr

/-- The per-channel record (R29). -/
structure Channel where
  /-- `DLY[c]`, words `0` to `BUF_SIZE - 1`. -/
  dly : Memory
  /-- `WPOS[c]`, an integer in `[0, BUF_SIZE)`. -/
  wpos : Nat
  /-- `PHASE[c]`, radians in `[0, 2π)`. -/
  phase : F
  deriving DecidableEq, Repr

/-- The agents of R179. -/
inductive Agent where
  | host
  | engine
  deriving DecidableEq, Repr

/-- One access the host makes (R179, R190, R78). -/
inductive HostOp where
  /-- Write a control register by index (R21); index 0 is `CMD` and issues a command (R70). -/
  | writeReg (index : Nat) (value : Word)
  /-- Read a control register by index (R21). -/
  | readReg (index : Nat)
  /-- Write `width` bytes at a byte address of a byte mapping of the control registers (R55, R56; log 19). -/
  | writeBus (addr width : Nat) (value : Word)
  /-- Read `width` bytes at a byte address of that mapping. -/
  | readBus (addr width : Nat)
  /-- Write `IN[c][i]` (R53). -/
  | writeIn (c i : Nat) (value : F)
  /-- Read `OUT[c][i]` (R53). -/
  | readOut (c i : Nat)
  /-- Poll `STATUS` until `STATE` is `READY` (R78, R79; log 17). -/
  | wait
  /-- Pull hardware reset (R190, R191; log 14). -/
  | hardReset
  deriving DecidableEq, Repr

/-- Why the machine stops with a fault. The commands never do. -/
inductive Fault where
  /-- An access to `IN[c][i]` outside the ranges of R53: raised by a host write, and by a frame step in states no run
  reaches (log 12, log 15). Safe: the hardware has no such word. -/
  | outsideIn (c i : Nat)
  /-- A host read of `OUT[c][i]` outside the ranges of R53 (log 12). Safe: the hardware has no such word. -/
  | outsideOut (c i : Nat)
  /-- A write position outside `[0, BUF_SIZE)`: raised by a frame step in states no run reaches (R30, log 15). Safe. -/
  | outsideDelayBank (k : Nat)
  deriving DecidableEq, Repr

/-- Why the machine gives a step no meaning. -/
inductive Refusal where
  /-- An arm of `exec` that has no meaning yet; no arm of this model is. Safe. -/
  | notModelled (mnemonic : String)
  /-- `SAMPLETABLE` applied to a NaN or infinite phase: "a model refuses such a call" (R93, U2); raised by a frame step
  in states no run reaches (log 15). Safe. -/
  | nonFinitePhase
  /-- `floor` or `ceil` of a NaN or infinite read position, never applied so (R13, R16); raised by a frame step in
  states no run reaches (log 15). Safe. -/
  | nonFinitePosition
  /-- A byte-mapped register access that is not one naturally aligned 32-bit access: "a model refuses it" (R56, U18);
  raised by `HostOp.writeBus` and `HostOp.readBus`. Safe. -/
  | unalignedAccess (addr width : Nat)
  deriving DecidableEq, Repr

/-- The complete state of the engine: the tuple of R20 and nothing else. -/
structure Engine where
  /-- `STATUS.STATE` (R22). -/
  lifecycle : Lifecycle
  /-- `STATUS.ERR`, the sticky first error (R22). -/
  err : Code
  /-- `STATUS.LAST`, the code of the most recent command (R22). -/
  last : Code
  /-- Control register 1 (R21). -/
  arg0 : Word
  /-- Control register 2 (R21). -/
  arg1 : Word
  /-- Control register 4, the value of the last GETP (R21). -/
  result : Word
  /-- Control register 8, `frameCount` of the block (R24). -/
  blkCount : Word
  /-- Control register 9, `bufferOffset` of the block (R24). -/
  blkOff : Word
  /-- Control register 7, the next frame of the block (R24). -/
  blkF : Word
  /-- `NCH` (R25). -/
  nch : Nat
  /-- `FS_HOST` in Hz (R25). -/
  fsHost : Nat
  /-- `RAMP[0]` (R26). -/
  rampMix : Ramper
  /-- `RAMP[1]` (R26). -/
  rampRate : Ramper
  /-- `RAMP[2]` (R26). -/
  rampDepth : Ramper
  /-- `TOG[3]` (R28). -/
  togFeedback : F
  /-- `TOG[4]` (R28). -/
  togDelay : F
  /-- The per-channel records, channel 0 first (R29). -/
  chans : List Channel
  deriving DecidableEq, Repr

/-- What R34 says is no state of the engine but a parameter of its step relation: the instance (`PARAM_INIT` apart, which is an
opaque constant, log 6), the `IN` memory with the other contents a race admits (R61), the choice of frame boundary, and the number
that selects the free NaN bits. `TABLE` and `NUM` are functions (log 9, log 20). -/
structure StepParams where
  /-- The open parameters of the hardware instance (R6, R9). No step changes them (log 5). -/
  params : HwParams
  /-- The host audio memory `IN` (R53): the host owns and writes it, the engine only reads it. -/
  inMem : Memory
  /-- The model's own: the word index and older contents of `IN` words the host wrote while their block ran (R61,
  log 13). -/
  inRace : List (Nat × Word)
  /-- The choice of the frame boundary a host access lands on (R62): which agent moves next when both can (log 2). -/
  turn : Agent
  /-- The number of the step, to which the free values, the NaN bits of R15 among them, are applied (log 2, log 7). -/
  draws : Nat
  deriving DecidableEq, Repr

/-- The machine of the interface: the engine's state, the parameters of its step relation, the host's accesses still to come, and the
observable result of a run, on which nothing in the engine depends (R34, log 25). -/
structure State extends Engine, StepParams where
  /-- The host audio memory `OUT` (R53): the engine writes it and never reads it (R34). -/
  outMem : Memory
  /-- The model's own: the word index and older contents of `OUT` words the running block has written (R61, log 13). -/
  outRace : List (Nat × Word)
  /-- The model's own: the reads in `hostLog` (by position) of `OUT` words (by index) that the running block has still to
  write, for which the race of R61 gives the new sample; the frame that writes the word puts it into the log (log 13). -/
  outPending : List (Nat × Nat)
  /-- The model's own: the host's accesses still to come, oldest first (log 1). -/
  hostQ : List HostOp
  /-- The model's own: the words the host's reads have returned, oldest first (R198). -/
  hostLog : List Word
  deriving DecidableEq, Repr

/-- A ramper before any INIT: the spec gives no value (R33); all zero (DESIGN CHOICE, log 3). -/
def Ramper.blank : Ramper := ⟨0#32, 0#32, 0#32, 0#32⟩

/-- The engine right after hardware reset (R33, R191), the same for every instance. The spec gives no value to `NCH`, `FS_HOST`, the
rampers, the toggles and the channels there: log 3. -/
def Engine.reset : Engine where
  lifecycle := .uninit
  err := .none
  last := .none
  arg0 := 0#32
  arg1 := 0#32
  result := 0#32
  blkCount := 0#32
  blkOff := 0#32
  blkF := 0#32
  nch := 0
  fsHost := 0
  rampMix := .blank
  rampRate := .blank
  rampDepth := .blank
  togFeedback := 0#32
  togDelay := 0#32
  chans := []

/-- The machine of the instance with parameters `p` right after hardware reset. The audio memories: log 11; the model's own fields:
log 4. -/
def State.resetOf (p : HwParams) : State where
  toEngine := .reset
  params := p
  inMem := []
  inRace := []
  turn := .host
  draws := 0
  outMem := []
  outRace := []
  outPending := []
  hostQ := []
  hostLog := []

/-- The machine right after hardware reset, in the one instance the interface asks for: the one with the defaults of R6 (log 5). -/
def State.reset : State := .resetOf .default

end Sys2Proof.Machine
end

