-- ==== Sys2Proof/Machine/Ops.lean ====
section
/-! DEFINITION. The named operations over memory and registers, the sequencing of steps that may stop, and refusal (R171),
which is what this hardware has in place of taking an exception: there is no trap entry and no return from one (R175,
R176). -/

namespace Sys2Proof.Machine

/-! ## Sequencing -/

/-- Go on with the value of a step that has one; a stop stays a stop. -/
def andThen {α β : Type} (o : Host.Outcome α Fault Refusal) (f : α → Host.Outcome β Fault Refusal) :
    Host.Outcome β Fault Refusal :=
  match o with
  | .next a => f a
  | .fault r => .fault r
  | .refused r => .refused r

/-! ## Memory -/

/-- The canonical form of a memory: addresses strictly rising, no zero byte listed. -/
abbrev Memory.wf (m : Memory) : Prop :=
  m.Pairwise (fun c d => c.1 < d.1) ∧ ∀ c ∈ m, c.2 ≠ 0#8

/-- The byte at an address; an unlisted address reads as 0. -/
def readByte : Memory → Nat → Byte
  | [], _ => 0#8
  | c :: m, a => if c.1 = a then c.2 else readByte m a

/-- Store a byte, keeping the canonical form. -/
def writeByte : Memory → Nat → Byte → Memory
  | [], a, v => if v = 0#8 then [] else [(a, v)]
  | c :: m, a, v =>
    if a < c.1 then (if v = 0#8 then c :: m else (a, v) :: c :: m)
    else if c.1 = a then (if v = 0#8 then m else (a, v) :: m)
    else c :: writeByte m a v

/-- Byte `k` of a word, byte 0 the least significant. -/
def wordByte (v : Word) (k : Nat) : Byte := v.extractLsb' (8 * k) 8

/-- The word at a word index: four bytes, least significant first (R55). Every access moves one whole word (R57). -/
def readWord (m : Memory) (i : Nat) : Word :=
  readByte m (4 * i + 3) ++ readByte m (4 * i + 2) ++ readByte m (4 * i + 1) ++ readByte m (4 * i)

/-- Store a word at a word index. -/
def writeWord (m : Memory) (i : Nat) (v : Word) : Memory :=
  writeByte (writeByte (writeByte (writeByte m (4 * i) (wordByte v 0)) (4 * i + 1) (wordByte v 1))
    (4 * i + 2) (wordByte v 2)) (4 * i + 3) (wordByte v 3)

/-- The word index of `(c, i)` in `IN` and in `OUT`: channel after channel (R53 leaves the mapping to the platform,
log 12). -/
def hostIndex (c i : Nat) : Nat := c * Config.channelSpan + i

/-! ## Refusal and acceptance -/

/-- `refuse E_X` of R171: writes `LAST`, and `ERR` if that is 0; nothing else. -/
def refuse (e : Code) (s : State) : State :=
  { s with last := e, err := if s.err = .none then e else s.err }

/-- `LAST <- 0`, the last action of every accepted command (R22). -/
def accept (s : State) : State := { s with last := .none }

/-! ## Rampers and toggles by name -/

/-- The three ramped parameters (R26). -/
inductive RampId where
  | mix
  | rate
  | depth
  deriving DecidableEq, Repr

/-- The two toggles (R26). -/
inductive TogId where
  | feedback
  | delay
  deriving DecidableEq, Repr

/-- Read a ramper. -/
def State.getRamp (s : State) : RampId → Ramper
  | .mix => s.rampMix
  | .rate => s.rampRate
  | .depth => s.rampDepth

/-- Write a ramper. -/
def State.setRamp (s : State) (r : RampId) (v : Ramper) : State :=
  match r with
  | .mix => { s with rampMix := v }
  | .rate => { s with rampRate := v }
  | .depth => { s with rampDepth := v }

/-- Read a toggle. -/
def State.getTog (s : State) : TogId → F
  | .feedback => s.togFeedback
  | .delay => s.togDelay

/-- Write a toggle. -/
def State.setTog (s : State) (t : TogId) (v : F) : State :=
  match t with
  | .feedback => { s with togFeedback := v }
  | .delay => { s with togDelay := v }

end Sys2Proof.Machine
end

