-- ==== Sys2Proof/Machine/Operands.lean ====
section
/-! DEFINITION. Operand assembly (R72, R73): what a command reads from `ARG0` and `ARG1`, and what a parameter id names. -/

namespace Sys2Proof.Machine

/-- `ARG0` as an unsigned integer (formats A). -/
def u32Arg0 (s : State) : Nat := s.arg0.toNat

/-- `ARG1` as an unsigned integer (formats A and P2). -/
def u32Arg1 (s : State) : Nat := s.arg1.toNat

/-- `ARG0` as a binary32 bit pattern (formats P1 and P2); every pattern is accepted. -/
def fArg0 (s : State) : F := s.arg0

/-- What a parameter id names (R26, R75). -/
inductive Param where
  | ramped (r : RampId)
  | toggle (t : TogId)
  | unknown
  deriving DecidableEq, Repr

/-- The parameter ids of R26. -/
def paramOf (pid : Nat) : Param :=
  match pid with
  | 0 => .ramped .mix
  | 1 => .ramped .rate
  | 2 => .ramped .depth
  | 3 => .toggle .feedback
  | 4 => .toggle .delay
  | _ => .unknown

end Sys2Proof.Machine
end

