-- ==== Sys2Proof/Machine/Lifecycle.lean ====
section
/-! DEFINITION. INIT and RESET (R160 to R164). -/

namespace Sys2Proof.Machine

/-- The INIT checks of R161 in their order; `Code.none` when all pass. -/
def initCheck (s : State) (nch fs : Nat) : Code :=
  if s.lifecycle = .busy then .state
  else if nch = 0 then .zeroCh
  else if bufSize s.params fs = 0 then .zeroBuf
  else if fs < Config.minRate ∨ Config.maxRate < fs then .badRate
  else if s.params.maxCh < nch ∨ s.params.dlyRamWords < nch * bufSize s.params fs then .alloc
  else .none

/-- A channel as INIT and RESET leave it: every delay word `+0.0`, position 0, phase `+0.0` (R33). -/
def freshChannel : Channel := { dly := [], wpos := 0, phase := Num.zero }

/-- A ramper idle at a value (R160). -/
def idleRamper (v : F) : Ramper := { ui := v, goal := v, slope := Num.zero, rem := 0#32 }

/-- The state after an accepted INIT (R160). -/
def initialise (s : State) (nch fs : Nat) : State :=
  { s with
    nch := nch
    fsHost := fs
    rampMix := idleRamper (paramInit 0)
    rampRate := idleRamper (paramInit 1)
    rampDepth := idleRamper (paramInit 2)
    togFeedback := paramInit 3
    togDelay := paramInit 4
    chans := List.replicate nch freshChannel
    blkCount := 0#32
    blkOff := 0#32
    blkF := 0#32
    lifecycle := .ready
    err := .none
    last := .none }

/-- `INIT nch, fs` (R160, R161). -/
def execInit (s : State) : Host.Outcome State Fault Refusal :=
  if initCheck s (u32Arg0 s) (u32Arg1 s) = .none then .next (initialise s (u32Arg0 s) (u32Arg1 s))
  else .next (refuse (initCheck s (u32Arg0 s) (u32Arg1 s)) s)

/-- The channel after the flush of R162. -/
def flushChannel (_ : Channel) : Channel := freshChannel

/-- `RESET` (R162). -/
def execReset (s : State) : Host.Outcome State Fault Refusal :=
  if s.lifecycle = .ready then .next (accept { s with chans := s.chans.map flushChannel })
  else .next (refuse .state s)

end Sys2Proof.Machine
end

