-- ==== Sys2Proof/Machine/Rampers.lean ====
section
/-! DEFINITION. The parameter ramper unit (R100 to R106). No operation on one ramper reads or writes another (R100). -/

namespace Sys2Proof.Machine

/-- `CUR(r)`, the current value (R101). -/
def cur (r : Ramper) : F :=
  if r.rem = 0#32 then r.goal
  else Num.clamp01 (Num.fadd (Num.fmul r.slope (Num.ofNat r.rem.toNat)) r.goal)

/-- `setUIValue(r, v)` (R102). -/
def setUIValue (r : Ramper) (v : F) : Ramper := { r with ui := v }

/-- The ramper after `getAndStep(r)`; the value it returns is `cur r` (R103). -/
def stepRamper (r : Ramper) : Ramper :=
  if r.rem = 0#32 then r else { r with rem := r.rem - 1#32 }

/-- `getAndStep(r)`: the current value, and the ramper one sample on (R103). -/
def getAndStep (r : Ramper) : F × Ramper := (cur r, stepRamper r)

/-- `startRamp(r, v, D)` (R104). `bits` is the free NaN of a slope that is none, which only a ramper outside the
invariant of R27 gives (R15). -/
def startRamp (bits : Word) (r : Ramper) (v : F) (d : Word) : Ramper :=
  if d = 0#32 then { ui := v, goal := v, slope := Num.zero, rem := 0#32 }
  else
    { ui := v
      goal := v
      slope := Num.settle bits (Num.fdiv (Num.fsub (cur r) v) (Num.ofNat d.toNat))
      rem := d }

/-- `dezipperCheck(r, D)` (R105). -/
def dezipperCheck (bits : Word) (r : Ramper) (d : Word) : Ramper :=
  if r.rem = 0#32 ∧ Num.fne r.goal r.ui = true then startRamp bits r r.ui d else r

/-- `getUIValue(r)` (R106). -/
def getUIValue (r : Ramper) : F := r.ui

end Sys2Proof.Machine
end

