-- ==== Sys2Proof/Machine/Parameters.lean ====
section
/-! DEFINITION. SETP, GETP and RAMP (R150 to R153). Each is accepted in READY and in BUSY and refused in UNINIT. -/

namespace Sys2Proof.Machine

/-- SETP's effect on what a parameter id names (R150). -/
def setParam (s : State) (p : Param) (v : F) : State :=
  match p with
  | .ramped r => s.setRamp r (setUIValue (s.getRamp r) v)
  | .toggle t => s.setTog t v
  | .unknown => s

/-- `SETP id, value` (R150). -/
def execSetp (pid : Nat) (s : State) : Host.Outcome State Fault Refusal :=
  if s.lifecycle = .uninit then .next (refuse .state s)
  else .next (accept (setParam s (paramOf pid) (Num.clamp01 (fArg0 s))))

/-- The UI-facing value of what a parameter id names (R151); `+0.0` for an unknown id (R153). -/
def paramValue (s : State) (p : Param) : F :=
  match p with
  | .ramped r => getUIValue (s.getRamp r)
  | .toggle t => s.getTog t
  | .unknown => Num.zero

/-- `GETP id` (R151). -/
def execGetp (pid : Nat) (s : State) : Host.Outcome State Fault Refusal :=
  if s.lifecycle = .uninit then .next (refuse .state s)
  else .next (accept { s with result := paramValue s (paramOf pid) })

/-- RAMP's effect on what a parameter id names (R152): nothing for a toggle or an unknown id. -/
def rampParam (s : State) (p : Param) (v : F) (d : Word) : State :=
  match p with
  | .ramped r => s.setRamp r (startRamp (Config.nanDraw s.draws 0) (s.getRamp r) v d)
  | .toggle _ => s
  | .unknown => s

/-- `RAMP id, value, dur` (R152). -/
def execRamp (pid : Nat) (s : State) : Host.Outcome State Fault Refusal :=
  if s.lifecycle = .uninit then .next (refuse .state s)
  else .next (accept (rampParam s (paramOf pid) (Num.clamp01 (fArg0 s)) s.arg1))

end Sys2Proof.Machine
end

