-- ==== Sys2Proof/Machine/Process.lean ====
section
/-! DEFINITION. The PROCESS command (R110, R119): acceptance of a block. The frames it starts are Machine/Frame.lean. -/

namespace Sys2Proof.Machine

/-- The three dezipper checks of a block start, each with its own duration (R110, R100). -/
def dezipperAll (s : State) : State :=
  { s with
    rampMix := dezipperCheck (Config.nanDraw s.draws 0) s.rampMix (dezipMix s.fsHost)
    rampRate := dezipperCheck (Config.nanDraw s.draws 1) s.rampRate (dezipRate s.fsHost)
    rampDepth := dezipperCheck (Config.nanDraw s.draws 2) s.rampDepth (dezipDepth s.fsHost) }

/-- The latches and the new `STATE` of an accepted block (R110, R119). -/
def startBlock (s : State) (n off : Word) : State :=
  { s with
    blkCount := n
    blkOff := off
    blkF := 0#32
    lifecycle := if n = 0#32 then .ready else .busy }

/-- `PROCESS frameCount, bufferOffset` (R110). -/
def execProcess (s : State) : Host.Outcome State Fault Refusal :=
  if s.lifecycle ≠ .ready then .next (refuse .state s)
  else if s.params.hostBufLen < u32Arg1 s + u32Arg0 s then .next (refuse .range s)
  else .next (accept (startBlock (dezipperAll s) s.arg0 s.arg1))

end Sys2Proof.Machine
end

