-- ==== Sys2Proof/Machine/Dispatch.lean ====
section
/-! DEFINITION. The one match from a command to its meaning (R80). -/

namespace Sys2Proof.Machine

def exec (i : Instr) (s : State) : Host.Outcome State Fault Refusal :=
  match i with
  | .init => Sys2Proof.Machine.execInit s
  | .reset => Sys2Proof.Machine.execReset s
  | .process => Sys2Proof.Machine.execProcess s
  | .setp pid => Sys2Proof.Machine.execSetp pid s
  | .getp pid => Sys2Proof.Machine.execGetp pid s
  | .ramp pid => Sys2Proof.Machine.execRamp pid s

end Sys2Proof.Machine
end

