-- ==== Sys2Proof/Decode.lean ====
section
/-! DEFINITION. The command decoder (R80), the encoder, and the opcode map as data (R74). -/

namespace Sys2Proof

/-- `w[hi:lo]` of R11: a bit slice as an unsigned integer. -/
def slice (w : Word) (hi lo : Nat) : Nat := w.toNat / 2 ^ lo % 2 ^ (hi + 1 - lo)

/-- `OPC`, bits 7:0 (R71). -/
def opcField (w : Word) : Nat := slice w 7 0

/-- `PID`, bits 15:8 (R71). -/
def pidField (w : Word) : Nat := slice w 15 8

/-- `MBZ`, bits 31:16 (R71). -/
def mbzField (w : Word) : Nat := slice w 31 16

/-- The decoder of R80, with its three refusals in the order R80 checks them. Total: every word is one command or is
rejected by name (R76). -/
def decode (w : Word) : Except DecodeError Instr :=
  if mbzField w ≠ 0 then .error .mbzNotZero
  else if opcField w = 0 ∨ 6 < opcField w then .error .reservedOpcode
  else if opcField w ≤ 3 ∧ pidField w ≠ 0 then .error .pidNotZero
  else match opcField w with
    | 1 => .ok .init
    | 2 => .ok .reset
    | 3 => .ok .process
    | 4 => .ok (.setp (pidField w))
    | 5 => .ok (.getp (pidField w))
    | _ => .ok (.ramp (pidField w))

/-- The operation code of each command (R74). -/
def Instr.opc : Instr → Nat
  | .init => 1
  | .reset => 2
  | .process => 3
  | .setp _ => 4
  | .getp _ => 5
  | .ramp _ => 6

/-- The `PID` field of each command's word: the parameter id, 0 in formats Z and A (R71, R72). -/
def Instr.pid : Instr → Nat
  | .init => 0
  | .reset => 0
  | .process => 0
  | .setp pid => pid
  | .getp pid => pid
  | .ramp pid => pid

/-- The word of a well-formed command: `OPC` in bits 7:0, `PID` in bits 15:8, zeros above (R71). -/
def encode (i : Instr) : Word := BitVec.ofNat 32 (i.opc + 256 * i.pid)

/-- One row of the opcode map of R74. -/
structure OpcodeRow where
  mask : Word
  pattern : Word
  command : Nat → Instr

/-- The opcode map of R74, `mask` and `match` as the table gives them; `command` builds the row's command from `PID`. -/
def opcodeMap : List OpcodeRow :=
  [ ⟨0xFFFFFFFF#32, 0x00000001#32, fun _ => .init⟩,
    ⟨0xFFFFFFFF#32, 0x00000002#32, fun _ => .reset⟩,
    ⟨0xFFFFFFFF#32, 0x00000003#32, fun _ => .process⟩,
    ⟨0xFFFF00FF#32, 0x00000004#32, .setp⟩,
    ⟨0xFFFF00FF#32, 0x00000005#32, .getp⟩,
    ⟨0xFFFF00FF#32, 0x00000006#32, .ramp⟩ ]

/-- A word selects a row exactly when `(w AND mask) = match` (R74). -/
def OpcodeRow.selects (r : OpcodeRow) (w : Word) : Bool := w &&& r.mask == r.pattern

/-- What the decoder reads from a table row's word: bit 0 is the least significant bit of the one command word (R71), and
a word that does not fit in 32 bits is no command word. -/
def decodeTableWord (nbits w : Nat) : Option Instr :=
  if w % 2 ^ nbits < 4294967296 then
    match decode (BitVec.ofNat 32 (w % 2 ^ nbits)) with
    | .ok i => some i
    | .error _ => none
  else none

end Sys2Proof
end

