-- ==== Sys2Proof/Machine/Flags.lean ====
section
/-! DEFINITION. The status register (R22) and the two condition flags of the data path, the toggles (R28, R117).
Floating-point results set no flags (R170). -/

namespace Sys2Proof.Machine

/-- The value of `STATE` (R22). -/
def Lifecycle.bits : Lifecycle → BitVec 2
  | .uninit => 0#2
  | .ready => 1#2
  | .busy => 2#2

/-- The number of a result code (R172). -/
def Code.byte : Code → Byte
  | .none => 0#8
  | .zeroCh => 1#8
  | .zeroBuf => 2#8
  | .alloc => 3#8
  | .badRate => 4#8
  | .illegal => 5#8
  | .state => 6#8
  | .range => 7#8

/-- `STATUS`: zero in 31:24, `LAST` in 23:16, `ERR` in 15:8, zero in 7:2, `STATE` in 1:0 (R22). -/
def statusWord (s : State) : Word := 0#8 ++ s.last.byte ++ s.err.byte ++ 0#6 ++ s.lifecycle.bits

/-- A toggle value counts as enabled exactly when it is at least 0.5 (R28, R117). -/
def toggleOn (v : F) : Bool := Num.fge v Num.half

/-- `fbOn` of R112. -/
def fbOn (s : State) : Bool := toggleOn s.togFeedback

/-- `dlOn` of R112. -/
def dlOn (s : State) : Bool := toggleOn s.togDelay

end Sys2Proof.Machine
end

