-- ==== Sys2Proof/Machine/Delay.lean ====
section
/-! DEFINITION. What one channel does in one frame once the read offset is known (R130 to R138). `b` is `BUF_SIZE`, `w`
the write position, `x` the clean input. -/

namespace Sys2Proof.Machine

/-- The read position, wrapped by one conditional addition (R131). -/
def readPosition (b w : Nat) (off : F) : F :=
  if Num.flt (Num.fsub (Num.ofNat w) off) Num.zero then Num.fadd (Num.fsub (Num.ofNat w) off) (Num.ofNat b)
  else Num.fsub (Num.ofNat w) off

/-- A mathematical integer wrapped into `[0, b)` (R132). -/
def wrapIndex (b : Nat) (i : Int) : Nat := (i % (b : Int)).toNat

/-- The delayed signal at read position `p` (R132, R133); none when `p` has no floor. -/
def delayedSignal (dly : Memory) (b : Nat) (p : F) : Option F :=
  match Num.floor p, Num.ceil p with
  | some fl, some ce =>
    some (Num.lerp (readWord dly (wrapIndex b fl)) (readWord dly (wrapIndex b ce)) (Num.fsub p (Num.ofInt fl)))
  | _, _ => none

/-- The saturated wet signal (R134). -/
def wetSignal (d x : F) : F := Num.fmul (Num.tanh (Num.fadd d x)) Config.clipGain

/-- The output sample (R135). -/
def mixOutput (x wet mix : F) : F := Num.fadd x (Num.fmul (Num.fsub wet x) mix)

/-- The value the feedback stage writes over the slot's value `v` (R136). -/
def feedbackValue (v d : F) : F := Num.tanh (Num.fadd v (Num.fmul d Config.fbGain))

/-- The delay buffer after the delay write of R130. -/
def delayWrite (dly : Memory) (w : Nat) (x : F) : Memory := writeWord dly w x

/-- The delay buffer after the feedback stage of R136; `bits` is the free NaN (R15). -/
def feedbackWrite (fb : Bool) (bits : Word) (dly : Memory) (w : Nat) (d : F) : Memory :=
  if fb then writeWord dly w (Num.settle bits (feedbackValue (readWord dly w) d)) else dly

/-- The write position after the advance of R137. -/
def advance (b w : Nat) : Nat := (w + 1) % b

/-- `CHANSTEP` (R138): the channel afterwards and the output sample. `bitsY` and `bitsFb` are the free NaNs of the two
stores of results (R15). -/
def chanStep (b : Nat) (ch : Channel) (x off mix : F) (fb : Bool) (bitsY bitsFb : Word) :
    Host.Outcome (Channel × F) Fault Refusal :=
  if b ≤ ch.wpos then .fault (.outsideDelayBank ch.wpos)
  else
    match delayedSignal (delayWrite ch.dly ch.wpos x) b (readPosition b ch.wpos off) with
    | none => .refused .nonFinitePosition
    | some d =>
      .next ({ ch with
          dly := feedbackWrite fb bitsFb (delayWrite ch.dly ch.wpos x) ch.wpos d
          wpos := advance b ch.wpos },
        Num.settle bitsY (mixOutput x (wetSignal d x) mix))

end Sys2Proof.Machine
end

