-- ==== Sys2Proof/Machine/Wavetable.lean ====
section
/-! DEFINITION. The wavetable unit: the constant `TABLE` (R90, R91) and `SAMPLETABLE` (R92, R93). -/

namespace Sys2Proof.Machine

/-- π scaled by 2^192 (rounded down from the 80 decimal digits of the reference computation, 95_test_vectors.md
section 9). -/
def piScaled : Nat :=
  314159265358979323846264338327950288419716939937510582097494459230781640628620899 * Num.scale / 10 ^ 80

/-- `1 - t/((2k)(2k+1)) * (1 - t/((2k+2)(2k+3)) * ...)`, `fuel` factors, scaled by 2^192. With `t = θ^2` and `k = 1`:
`sin θ / θ`. -/
def sinSeries (t : Nat) : Nat → Nat → Nat
  | 0, _ => Num.scale
  | fuel + 1, k => Num.scale - t * sinSeries t fuel (k + 1) / (2 * k * (2 * k + 1) * Num.scale)

/-- The angle `π m / n` scaled by 2^192. -/
def tableAngle (n m : Nat) : Nat := piScaled * m / n

/-- The magnitude pattern of `rn32(sin(π m / n))` for `2 m <= n`, an angle of the first quarter (log 9). -/
def quarterPattern (n m : Nat) : Nat :=
  Num.roundUnits (piScaled * m * sinSeries (tableAngle n m * tableAngle n m / Num.scale) 30 1 * 2 ^ 149)
    (n * Num.scale * Num.scale)

/-- An index of the table of `n` entries folded onto the first half: the entry there has the same magnitude. -/
def firstHalf (n i : Nat) : Nat := if n < 2 * i then n - i else i

/-- `TABLE[i] = rn32(sin(2π i / n))` for `WT_N = n` (R90), folded onto the first quarter by the symmetries of the sine: the
second half is the first one backwards and negated, and each half is the same read backwards. -/
def table (n i : Nat) : F :=
  Num.pack (decide (n < 2 * i)) (quarterPattern n (min (2 * firstHalf n i) (n - 2 * firstHalf n i)))

/-- Clamp an index into `[0, n - 1]` (R92). -/
def clampIndex (n : Nat) (i : Int) : Nat := (min (max i 0) ((n - 1 : Nat) : Int)).toNat

/-- The fractional index of R92, with the factor `n - 1` (C2). -/
def tableIndex (n : Nat) (phase : F) : F := Num.fmul (Num.fdiv phase Config.twoPi) (Num.ofNat (n - 1))

/-- The interpolation of R92 at a fractional index, both endpoints clamped (C3). An index that overflows F is beyond every
table: both endpoints clamp to the end on its side, which R93 gives as the result there (log 24). -/
def tableAt (n : Nat) (idx : F) : F :=
  match Num.floor idx, Num.ceil idx with
  | some fl, some ce => Num.lerp (table n (clampIndex n fl)) (table n (clampIndex n ce)) (Num.fsub idx (Num.ofInt fl))
  | _, _ => if Num.flt idx Num.zero then table n 0 else table n (n - 1)

/-- `SAMPLETABLE(phase)` for `WT_N = n` (R92), total on finite phases; none for a NaN or infinite phase, which has no result
(R93). -/
def sampleTable (n : Nat) (phase : F) : Option F :=
  if Num.isFinite phase then some (tableAt n (tableIndex n phase)) else none

end Sys2Proof.Machine
end

