-- ==== Sys2Proof/Machine/Frame.lean ====
section
/-! DEFINITION. The engine's own step: one frame of a running block (R111 to R118). -/

namespace Sys2Proof.Machine

/-- `DEPTHSAMPLES(depth)` (R114). -/
def depthSamples (fs : Nat) (depth : F) : F :=
  Num.fmul (Num.fmul (Num.fmul (Num.fmul depth depth) depth) Config.maxDepthS) (fsIntF fs)

/-- `lfoFreq` of R116. -/
def lfoFreq (rate : F) : F :=
  Num.fadd Config.minRateHz (Num.fmul rateSpan (Num.fmul (Num.fmul rate rate) (Num.fmul rate rate)))

/-- `PHASEINC(rate)` (R116). -/
def phaseInc (fs : Nat) (rate : F) : F := Num.fmul (lfoFreq rate) (phaseK fs)

/-- `WRAP2PI(p)` (R116). -/
def wrap2Pi (p : F) : F := if Num.fge p Config.twoPi then Num.fsub p Config.twoPi else p

/-- `LFOOFFSET(phase, depthSamples, dlOn)` (R115), given the wavetable sample `sv` at the phase. -/
def lfoOffset (fs : Nat) (sv depthSmp : F) (dl : Bool) : F :=
  if dl then Num.fadd (Num.fmul (Num.fmul (Num.fadd sv Num.one) Num.half) depthSmp) (predelay fs)
  else Num.fmul (Num.fmul (Num.fadd sv Num.one) Num.half) depthSmp

/-- The quantities of R112 that hold for every channel of a frame, and the frame's sample index. -/
structure FrameParams where
  hw : HwParams
  fs : Nat
  sample : Nat
  mix : F
  depthSmp : F
  inc : F
  fb : Bool
  dl : Bool
  /-- The number the frame's free values are applied to. -/
  draw : Nat
  deriving DecidableEq, Repr

/-- Steps (a) and (b) of R112: the ramps, the LFO quantities, the toggles. -/
def frameParams (s : State) : FrameParams where
  hw := s.params
  fs := s.fsHost
  sample := s.blkOff.toNat + s.blkF.toNat
  mix := cur s.rampMix
  depthSmp := depthSamples s.fsHost (cur s.rampDepth)
  inc := phaseInc s.fsHost (cur s.rampRate)
  fb := fbOn s
  dl := dlOn s
  draw := s.draws

/-- The free NaN of store number `k` (0 the output, 1 the feedback, 2 the phase) of channel `c` in a frame. -/
def frameNaN (draw c k : Nat) : Word := Config.nanDraw draw (3 * c + k)

/-- One channel of a frame (R112 (c) to (f)): offset from the phase before its advance, phase advance, `CHANSTEP`. -/
def channelFrame (p : FrameParams) (c : Nat) (ch : Channel) (x : F) :
    Host.Outcome (Channel × F) Fault Refusal :=
  match sampleTable p.hw.wtN ch.phase with
  | none => .refused .nonFinitePhase
  | some sv =>
    chanStep (bufSize p.hw p.fs)
      { ch with phase := Num.settle (frameNaN p.draw c 2) (wrap2Pi (Num.fadd ch.phase p.inc)) }
      x (lfoOffset p.fs sv p.depthSmp p.dl) p.mix p.fb (frameNaN p.draw c 0) (frameNaN p.draw c 1)

/-- The word a racing access sees: the current one, or one of the older ones the race admits (R61, log 13). -/
def raced (current : Word) (older : List Word) (draw : Nat) : Word :=
  match older with
  | [] => current
  | _ :: _ => (current :: older).getD (draw % (older.length + 1)) current

/-- The older contents recorded for a word index. -/
def olderAt (race : List (Nat × Word)) (i : Nat) : List Word :=
  (race.filter fun e => e.1 == i).map Prod.snd

/-- The engine's read of `IN[c][i]` (R111); a word the host wrote while its block ran reads as either (R61). -/
def engineRead (s : State) (c i : Nat) : F :=
  raced (readWord s.inMem (hostIndex c i)) (olderAt s.inRace (hostIndex c i)) (Config.raceDraw s.draws c)

/-- The channels of a frame in increasing order (R118), each with its own input word. -/
def frameChannels (p : FrameParams) (s : State) :
    Nat → List Channel → Host.Outcome (List (Channel × F)) Fault Refusal
  | _, [] => .next []
  | c, ch :: rest =>
    andThen (channelFrame p c ch (engineRead s c p.sample)) fun r =>
      andThen (frameChannels p s (c + 1) rest) fun rs => .next (r :: rs)

/-- `OUT[c][i] <- y[c]` for the channels from `c` on (R111). -/
def writeOut (m : Memory) (i : Nat) : Nat → List F → Memory
  | _, [] => m
  | c, y :: ys => writeOut (writeWord m (hostIndex c i) y) i (c + 1) ys

/-- The `OUT` words a frame of `n` channels at sample index `i` writes (R53). -/
def frameWords (i n : Nat) : List Nat := (List.range n).map fun c => hostIndex c i

/-- The contents some words of a memory have, by word index (R61). -/
def contentsOf (m : Memory) (ws : List Nat) : List (Nat × Word) := ws.map fun w => (w, readWord m w)

/-- The host's log once the words `ws` have their new samples in `out`: a pending read of one of them has returned it (R61). -/
def resolveReads (out : Memory) (ws : List Nat) (pending : List (Nat × Nat)) (log : List Word) : List Word :=
  pending.foldl (fun l e => if ws.contains e.2 then l.set e.1 (readWord out e.2) else l) log

/-- Whether this is the last frame of the block (R111). -/
def lastFrame (s : State) : Bool := s.blkF + 1#32 == s.blkCount

/-- The `OUT` words the next frame writes (R53). -/
def nextWords (s : State) : List Nat := frameWords (frameParams s).sample s.chans.length

/-- `OUT` after a frame whose channels gave `rs` (R111). -/
def outAfter (s : State) (rs : List (Channel × F)) : Memory :=
  writeOut s.outMem (frameParams s).sample 0 (rs.map Prod.snd)

/-- The state after a frame whose channels gave `rs` (R111): channels, ramps, `OUT`, `BLK_F`, and `READY` after the last
frame, when no access races any more. -/
def finishFrame (s : State) (rs : List (Channel × F)) : State :=
  { s with
    rampMix := stepRamper s.rampMix
    rampRate := stepRamper s.rampRate
    rampDepth := stepRamper s.rampDepth
    chans := rs.map Prod.fst
    outMem := outAfter s rs
    hostLog := resolveReads (outAfter s rs) (nextWords s) s.outPending s.hostLog
    blkF := s.blkF + 1#32
    lifecycle := if lastFrame s then .ready else .busy
    inRace := if lastFrame s then [] else s.inRace
    outRace := if lastFrame s then [] else s.outRace ++ contentsOf s.outMem (nextWords s)
    outPending := if lastFrame s then [] else s.outPending.filter fun e => !(nextWords s).contains e.2 }

/-- One frame step (R111, R112), atomic (R62). The check on the sample index never fails in a state a run reaches: PROCESS
refuses such a block (R110). -/
def frameStep (s : State) : Host.Outcome State Fault Refusal :=
  if s.params.hostBufLen ≤ (frameParams s).sample then .fault (.outsideIn 0 (frameParams s).sample)
  else andThen (frameChannels (frameParams s) s 0 s.chans) fun rs => .next (finishFrame s rs)

end Sys2Proof.Machine
end

