-- ==== Sys2Proof/Machine/HostPort.lean ====
section
/-! DEFINITION. The host's side: the control register file (R21), its byte mapping (R55, R56), the host audio memories
(R53, R61), hardware reset (R190, R191), and the command lines of R78. -/

namespace Sys2Proof.Machine

/-! ## Control registers -/

/-- A host read of a control register by index (R21): no side effect (R57); `CMD` and indices above 9 read 0; `CFG_NCH` and
`CFG_FS` read 0 while `UNINIT`. -/
def regRead (s : State) (index : Nat) : Word :=
  match index with
  | 0 => 0#32
  | 1 => s.arg0
  | 2 => s.arg1
  | 3 => statusWord s
  | 4 => s.result
  | 5 => if s.lifecycle = .uninit then 0#32 else BitVec.ofNat 32 s.nch
  | 6 => if s.lifecycle = .uninit then 0#32 else BitVec.ofNat 32 s.fsHost
  | 7 => s.blkF
  | 8 => s.blkCount
  | 9 => s.blkOff
  | _ => 0#32

/-- A host write to a control register other than `CMD` (R21): only `ARG0` and `ARG1` take it. -/
def regWrite (s : State) (index : Nat) (v : Word) : State :=
  match index with
  | 1 => { s with arg0 := v }
  | 2 => { s with arg1 := v }
  | _ => s

/-- One naturally aligned 32-bit access of the byte mapping (R56). -/
def alignedWord (addr width : Nat) : Bool := width == 4 && addr % 4 == 0

/-- The command word an access writes to `CMD`, if it does (R70). -/
def portCommand : HostOp → Option Word
  | .writeReg index v => if index = 0 then some v else none
  | .writeBus addr width v => if alignedWord addr width && addr / 4 == 0 then some v else none
  | .readReg _ => none
  | .readBus _ _ => none
  | .writeIn _ _ _ => none
  | .readOut _ _ => none
  | .wait => none
  | .hardReset => none

/-! ## Host audio memories -/

/-- How many channels the host memories have: `NCH`, and `MAX_CH` while `NCH` has no value (R53, R25, log 12). -/
def hostChannels (s : State) : Nat := if s.lifecycle = .uninit then s.params.maxCh else s.nch

/-- Whether `(c, i)` names a word of the host memories (R53). -/
def hostWord (s : State) (c i : Nat) : Bool := decide (c < hostChannels s) && decide (i < s.params.hostBufLen)

/-- Whether sample index `i` belongs to the running block (R61). -/
def inRunningBlock (s : State) (i : Nat) : Bool :=
  s.lifecycle == .busy && decide (s.blkOff.toNat ≤ i) && decide (i < s.blkOff.toNat + s.blkCount.toNat)

/-- A host write to `IN[c][i]`; on a word of the running block it is a race, and the older contents stay admitted (R61,
log 13). -/
def hostWriteIn (s : State) (c i : Nat) (v : F) : State :=
  { s with
    inMem := writeWord s.inMem (hostIndex c i) v
    inRace := if inRunningBlock s i then (hostIndex c i, readWord s.inMem (hostIndex c i)) :: s.inRace else s.inRace }

/-- Append a value a host read returned. -/
def logRead (s : State) (v : Word) : State := { s with hostLog := s.hostLog ++ [v] }

/-- Whether the running block has still to write the `OUT` words at sample index `i` (R61). -/
def awaitsFrame (s : State) (i : Nat) : Bool := inRunningBlock s i && decide (s.blkOff.toNat + s.blkF.toNat ≤ i)

/-- A host read of `OUT[c][i]`, with the free value `draw`. A word of the running block reads as the old contents or the new
sample (R61): one its frame has written as either (`raced`); one its frame has still to write as the old contents, or, for an
odd draw, as the new sample, which that frame then puts into the log (log 13). -/
def hostReadOut (s : State) (c i draw : Nat) : State :=
  { logRead s (raced (readWord s.outMem (hostIndex c i)) (olderAt s.outRace (hostIndex c i)) draw) with
    outPending := if awaitsFrame s i && draw % 2 == 1 then s.outPending ++ [(s.hostLog.length, hostIndex c i)]
      else s.outPending }

/-! ## Hardware reset -/

/-- The machine of the instance with parameters `p`, right after hardware reset (R9, R33); none when they make no instance (R184:
refuse to build the configuration). -/
def powerOn (p : HwParams) : Option State := if Legal p then some (State.resetOf p) else none

/-- Hardware reset (R190, R191): the engine as after power-on. The host's memories, the host itself and the instance go on; a
running block is abandoned, and with it what its races recorded (log 14). -/
def hardReset (s : State) : State :=
  { s with toEngine := .reset, inRace := [], outRace := [], outPending := [] }

/-! ## One access that is not a command -/

/-- The host's access, when it issues no command. -/
def hostAccess (op : HostOp) (s : State) : Host.Outcome State Fault Refusal :=
  match op with
  | .writeReg index v => .next (regWrite s index v)
  | .readReg index => .next (logRead s (regRead s index))
  | .writeBus addr width v =>
    if alignedWord addr width then .next (regWrite s (addr / 4) v) else .refused (.unalignedAccess addr width)
  | .readBus addr width =>
    if alignedWord addr width then .next (logRead s (regRead s (addr / 4))) else .refused (.unalignedAccess addr width)
  | .writeIn c i v => if hostWord s c i then .next (hostWriteIn s c i v) else .fault (.outsideIn c i)
  | .readOut c i => if hostWord s c i then .next (hostReadOut s c i (Config.raceDraw s.draws c)) else .fault (.outsideOut c i)
  | .wait => .next s
  | .hardReset => .next (hardReset s)

/-! ## Command lines -/

/-- A line of a command sequence in the syntax of R78. -/
inductive HostLine where
  | init (nch fs : Word)
  | reset
  | process (count off : Word)
  | setp (pid : Nat) (value : F)
  | getp (pid : Nat)
  | ramp (pid : Nat) (value : F) (dur : Word)
  | wait
  deriving DecidableEq, Repr

/-- The register accesses a line stands for, in its order, `CMD` last; GETP then reads `RESULT` (R78). -/
def HostLine.ops : HostLine → List HostOp
  | .init nch fs => [.writeReg 1 nch, .writeReg 2 fs, .writeReg 0 (encode .init)]
  | .reset => [.writeReg 0 (encode .reset)]
  | .process count off => [.writeReg 1 count, .writeReg 2 off, .writeReg 0 (encode .process)]
  | .setp pid value => [.writeReg 1 value, .writeReg 0 (encode (.setp pid))]
  | .getp pid => [.writeReg 0 (encode (.getp pid)), .readReg 4]
  | .ramp pid value dur => [.writeReg 1 value, .writeReg 2 dur, .writeReg 0 (encode (.ramp pid))]
  | .wait => [.wait]

/-! ## Who moves -/

/-- Whether the host has an access it can make now: while `wait` is its next action it waits for `READY` (R78, log 17). -/
def hostReady (s : State) : Bool :=
  match s.hostQ with
  | [] => false
  | .wait :: _ => s.lifecycle == .ready
  | _ => true

/-- Whether both agents can move: a frame boundary of a running block with a host access pending (R62). -/
def contested (s : State) : Bool := s.lifecycle == .busy && hostReady s

/-- The agent that moves next, none when there is nothing to do: the engine only while `BUSY` (R111), the host while it has
an access it can make, the one `turn` names when both can (R62, log 2). -/
def mover (s : State) : Option Agent :=
  if contested s then some s.turn
  else if s.lifecycle = .busy then some .engine
  else if hostReady s then some .host
  else none

/-- The number of the step, to which its free values are applied (log 2). -/
def tick (s : State) : State := { s with draws := s.draws + 1 }

/-- The host's next access is taken from its list. -/
def popHost (s : State) (rest : List HostOp) : State := { tick s with hostQ := rest }

/-- Where both agents can move next, which one does is a free value (R62, log 2). -/
def drawTurn (s : State) : State :=
  if contested s then { s with turn := if Config.turnDraw s.draws then .host else .engine } else s

end Sys2Proof.Machine
end

