-- ==== Sys2Proof/Machine/Step.lean ====
section
/-! DEFINITION. One step of the machine: one host access or one frame (R62, R179). -/

namespace Sys2Proof.Machine

/-- A write of `w` to `CMD` (R70, R80): the command the decoder reads, or a refusal with `E_ILLEGAL` (R76). -/
def issue (w : Word) (s : State) : Host.Outcome State Fault Refusal :=
  match decode w with
  | .ok i => exec i s
  | .error _ => .next (refuse .illegal s)

/-- The host's next access. -/
def hostStep (op : HostOp) (s : State) : Host.Outcome State Fault Refusal :=
  match portCommand op with
  | some w => issue w s
  | none => hostAccess op s

/-- What the agent that moves does: its next atomic action. -/
def act (s : State) : Agent → Host.Outcome State Fault Refusal
  | .engine => frameStep (tick s)
  | .host =>
    match s.hostQ with
    | [] => .next s
    | op :: rest => hostStep op (popHost s rest)

/-- One step: the agent `mover` names performs its next atomic action, and where both can move after it, who does is drawn
(R62); a machine with nothing to do stays as it is (log 21). -/
def step (s : State) : Host.Outcome State Fault Refusal :=
  match mover s with
  | none => .next s
  | some agent => andThen (act s agent) fun t => .next (drawTurn t)

/-- `s` with a write of the command word to `CMD` as the host's very next access, and the host as the agent that moves
next (log 1). -/
def State.withFetchWord (s : State) (nbits w : Nat) : State :=
  { s with hostQ := .writeReg 0 (BitVec.ofNat 32 (w % 2 ^ nbits)) :: s.hostQ, turn := .host }

/-- `s` with a command sequence in the syntax of R78 as the host's remaining accesses. -/
def State.withProgram (s : State) (lines : List HostLine) : State :=
  { s with hostQ := lines.flatMap HostLine.ops }

end Sys2Proof.Machine
end

