-- ==== Sys2Proof/Safety.lean ====
section
/-! DEFINITION. The terms claims about runs use: the invariants the spec states over the state, and what a safe step is. -/

namespace Sys2Proof.Machine

/-- A value of `[0,1]`, not NaN (R27, R30). -/
def In01 (v : F) : Prop := Num.fle Num.zero v = true ∧ Num.fle v Num.one = true

/-- Of magnitude at most 1, not NaN and not infinite. -/
def AtMost1 (v : F) : Prop := Num.mag v ≤ Num.mag Num.one

/-- The invariant of R27: `ui`, `goal` in `[0,1]`, `slope` finite of magnitude at most 1. -/
structure Ramper.Ok (r : Ramper) : Prop where
  ui : In01 r.ui
  goal : In01 r.goal
  slope : AtMost1 r.slope

/-- The invariant of R29 and R30 on a phase: `0 <= PHASE < TWO_PI`, compared in F. -/
def PhaseOk (p : F) : Prop := Num.fle Num.zero p = true ∧ Num.flt p Config.twoPi = true

/-- The invariant of R29 and R30 on a channel of instance `p` at host rate `fs`: the position lies in the buffer, the phase in `[0, 2π)`, and
the delay bank is canonical and holds no word beyond `BUF_SIZE` (R52). -/
structure Channel.Ok (p : HwParams) (fs : Nat) (ch : Channel) : Prop where
  wpos : ch.wpos < bufSize p fs
  phase : PhaseOk ch.phase
  wf : Memory.wf ch.dly
  bank : ∀ cell ∈ ch.dly, cell.1 < 4 * bufSize p fs

/-- The configuration latches hold what INIT accepts, and there is one record per channel (R25, R29). -/
structure State.Configured (s : State) : Prop where
  channels : 1 ≤ s.nch ∧ s.nch ≤ s.params.maxCh
  rate : LegalRate s.fsHost
  records : s.chans.length = s.nch

/-- What R24 and R110 say of a running block: a frame is left, and the block lies inside the host buffers. -/
structure State.Running (s : State) : Prop where
  left : s.blkF.toNat < s.blkCount.toNat
  inside : s.blkOff.toNat + s.blkCount.toNat ≤ s.params.hostBufLen

/-- What the records of races hold (R61, log 13): nothing outside a running block, and while one runs, one place in the log per
pending read. -/
structure State.RacesOk (s : State) : Prop where
  dropped : s.lifecycle ≠ .busy → s.inRace = [] ∧ s.outRace = [] ∧ s.outPending = []
  logged : ∀ e ∈ s.outPending, e.1 < s.hostLog.length
  distinct : s.outPending.Pairwise fun e f => e.1 < f.1

/-- The invariants of R24, R25, R27, R28, R29, R30, the canonical form of the memories, the records of races, and that the
parameters make an instance (R6, R7). -/
structure State.Inv (s : State) : Prop where
  mix : s.rampMix.Ok
  rate : s.rampRate.Ok
  depth : s.rampDepth.Ok
  feedback : In01 s.togFeedback
  delay : In01 s.togDelay
  configured : s.lifecycle ≠ .uninit → s.Configured
  channel : ∀ ch ∈ s.chans, Channel.Ok s.params s.fsHost ch
  running : s.lifecycle = .busy → s.Running
  inWf : Memory.wf s.inMem
  outWf : Memory.wf s.outMem
  races : s.RacesOk
  legal : Legal s.params

/-- All channels have one write position and one phase (R35). -/
def State.Uniform (s : State) : Prop :=
  ∀ ch ∈ s.chans, ∀ ch' ∈ s.chans, ch.wpos = ch'.wpos ∧ ch.phase = ch'.phase

/-- The step relation of the engine, with what R34 calls its parameters as arguments: with step parameters `p` and the host's
accesses `ops` still to come, the engine can go from `e` to `e'`. The rest of the machine's state is no argument. -/
def EngineStep (p : StepParams) (ops : List HostOp) (e e' : Engine) : Prop :=
  ∃ s t : State, s.toEngine = e ∧ s.toStepParams = p ∧ s.hostQ = ops ∧ step s = .next t ∧ t.toEngine = e'

/-- The host accesses the spec gives a result for in state `s`: aligned ones (R56), and audio words that exist (R53). -/
def HostOp.Legal (s : State) : HostOp → Prop
  | .writeReg _ _ => True
  | .readReg _ => True
  | .writeBus addr width _ => width = 4 ∧ addr % 4 = 0
  | .readBus addr width => width = 4 ∧ addr % 4 = 0
  | .writeIn c i _ => c < hostChannels s ∧ i < s.params.hostBufLen
  | .readOut c i => c < hostChannels s ∧ i < s.params.hostBufLen
  | .wait => True
  | .hardReset => True

/-- The host's next access, if there is one, is legal. -/
def State.NextLegal (s : State) : Prop := ∀ op rest, s.hostQ = op :: rest → op.Legal s

/-- A safe step: it answers a next state. -/
def Safe (o : Host.Outcome State Fault Refusal) : Prop := ∃ t, o = .next t

/-- `rem` steps of a ramper with no other operation on it (R107). -/
def stepRamperTimes : Nat → Ramper → Ramper
  | 0, r => r
  | n + 1, r => stepRamperTimes n (stepRamper r)

end Sys2Proof.Machine
end

