-- ==== Sys2Proof/Certificates/Slice0/Obligations.lean ====
section
/-! DEFINITION. The statements about the machine for the provers. Each names the rule of spec/ it says. -/

open Sys2Proof Sys2Proof.Machine

/-! ## Encoding -/

/-- Words written out from the bit layout of R71 and the opcode map of R74 decode to the commands they stand for, and
words of R76 are rejected. -/
def Obligations.WrittenOutWordsDecode : Prop :=
  decode 0x00000001#32 = .ok .init ∧ decode 0x00000002#32 = .ok .reset ∧ decode 0x00000003#32 = .ok .process ∧
  decode 0x00000204#32 = .ok (.setp 2) ∧ decode 0x0000FF05#32 = .ok (.getp 255) ∧ decode 0x00000106#32 = .ok (.ramp 1) ∧
  decode 0x00000000#32 = .error .reservedOpcode ∧ decode 0x00000007#32 = .error .reservedOpcode ∧
  decode 0x00000102#32 = .error .pidNotZero ∧ decode 0x00010004#32 = .error .mbzNotZero

/-- Decoding the word of a well-formed command gives the command back, whatever its parameter id (R71, R80). -/
def Obligations.DecodeOfEncode : Prop :=
  ∀ i : Instr, i.WellFormed → decode (encode i) = .ok i

/-- A word that decodes is the word of the command it decodes to, and that command is well formed: no two words have one
meaning and no bit is dropped (R71, R80). -/
def Obligations.EncodeOfDecode : Prop :=
  ∀ (w : Word) (i : Instr), decode w = .ok i → i.WellFormed ∧ encode i = w

/-- R74: a word selects a row of the opcode map exactly when `(w AND mask) = match`, and the decoder reads the command of the
row the word selects. -/
def Obligations.OpcodeMapSelectsTheCommand : Prop :=
  ∀ (w : Word) (i : Instr),
    decode w = .ok i ↔ ∃ r ∈ opcodeMap, w &&& r.mask = r.pattern ∧ i = r.command (pidField w)

/-- R76: a word is illegal exactly when `MBZ` is not zero, or `OPC` is reserved, or `PID` is not zero in format Z or A; writing
it to `CMD` then changes `LAST` and, if it is 0, `ERR`, and nothing else; every other word is a command. -/
def Obligations.IllegalWordsAreRefused : Prop :=
  ∀ (w : Word) (s : State),
    ((mbzField w ≠ 0 ∨ ¬(1 ≤ opcField w ∧ opcField w ≤ 6) ∨
        ((opcField w = 1 ∨ opcField w = 2 ∨ opcField w = 3) ∧ pidField w ≠ 0)) →
      issue w s = .next { s with last := .illegal, err := if s.err = .none then .illegal else s.err }) ∧
    (¬(mbzField w ≠ 0 ∨ ¬(1 ≤ opcField w ∧ opcField w ≤ 6) ∨
        ((opcField w = 1 ∨ opcField w = 2 ∨ opcField w = 3) ∧ pidField w ≠ 0)) →
      ∃ i, decode w = .ok i ∧ issue w s = exec i s)

/-! ## Steps -/

/-- A step in which the host writes `CMD` runs the command the word decodes to (R70, R80). Around it the step takes the access
off the host's list, counts itself, and draws who moves next where both agents can. -/
def Obligations.StepRunsTheCommandWritten : Prop :=
  ∀ (s : State) (w : Word) (rest : List HostOp) (i : Instr),
    mover s = some .host → s.hostQ = .writeReg 0 w :: rest → decode w = .ok i →
    step s = andThen (exec i { s with hostQ := rest, draws := s.draws + 1 }) fun t => .next (drawTurn t)

/-- Placing a command word as the host's next access makes the very next step run it, in every state (the model's own
convention, log 1). -/
def Obligations.PlacedWordRunsNext : Prop :=
  ∀ (s : State) (w : Nat) (i : Instr), w < 4294967296 → decode (BitVec.ofNat 32 w) = .ok i →
    step (s.withFetchWord 32 w) =
      andThen (exec i { s with turn := .host, draws := s.draws + 1 }) fun t => .next (drawTurn t)

/-- R62: at a frame boundary of a running block with a command pending, the command may land there or the next frame may come
first; both are steps of the model, one for each value of `turn`. -/
def Obligations.BoundaryAdmitsCommandAndFrame : Prop :=
  ∀ (s : State) (w : Word) (rest : List HostOp), s.lifecycle = .busy → s.hostQ = .writeReg 0 w :: rest →
    step { s with turn := .host } =
        andThen (issue w { s with turn := .host, hostQ := rest, draws := s.draws + 1 }) (fun t => .next (drawTurn t)) ∧
    step { s with turn := .engine } =
        andThen (frameStep { s with turn := .engine, draws := s.draws + 1 }) (fun t => .next (drawTurn t))

/-- R111 and R179: a running block with no host access pending goes on with its next frame. The second clause is the model's
own choice (DESIGN CHOICE, log 21), no rule of the spec: with no host access pending and no block running the spec has no step
at all, and the model's step answers the same state. -/
def Obligations.EngineMovesOnlyWhileBusy : Prop :=
  ∀ s : State, s.hostQ = [] →
    (s.lifecycle = .busy →
      step s = andThen (frameStep { s with draws := s.draws + 1 }) fun t => .next (drawTurn t)) ∧
    (s.lifecycle ≠ .busy → step s = .next s)

/-! ## Refusal and lifecycle -/

/-- R171: a refused command writes `LAST` and, if it is 0, `ERR`; `STATE`, every parameter, every buffer, `RESULT`, the block
latches and the configuration keep their values. -/
def Obligations.RefusalWritesOnlyLastAndErr : Prop :=
  (∀ (i : Instr) (s t : State), exec i s = .next t → t.last ≠ .none →
    t = { s with last := t.last, err := if s.err = .none then t.last else s.err }) ∧
  (∀ (w : Word) (e : DecodeError) (s : State), decode w = .error e →
    issue w s = .next { s with last := .illegal, err := if s.err = .none then .illegal else s.err })

/-- R178: which command each `STATE` accepts, and the refusal with `E_STATE` of the others; an illegal word is refused in every
`STATE`. -/
def Obligations.LifecycleGatesCommands : Prop :=
  ∀ s : State,
    (s.lifecycle = .uninit → ∀ i : Instr, i ≠ .init → exec i s = .next (refuse .state s)) ∧
    (s.lifecycle = .busy → ∀ i : Instr, i = .init ∨ i = .reset ∨ i = .process → exec i s = .next (refuse .state s)) ∧
    (s.lifecycle ≠ .busy → 1 ≤ s.arg0.toNat → s.arg0.toNat ≤ s.params.maxCh → LegalRate s.arg1.toNat →
      bufSize s.params s.arg1.toNat ≠ 0 → s.arg0.toNat * bufSize s.params s.arg1.toNat ≤ s.params.dlyRamWords →
      ∃ t, exec .init s = .next t ∧ t.last = .none) ∧
    (s.lifecycle = .ready → ∃ t, exec .reset s = .next t ∧ t.last = .none) ∧
    (s.lifecycle = .ready → s.arg1.toNat + s.arg0.toNat ≤ s.params.hostBufLen →
      ∃ t, exec .process s = .next t ∧ t.last = .none) ∧
    (s.lifecycle ≠ .uninit → ∀ pid, (∃ t, exec (.setp pid) s = .next t ∧ t.last = .none) ∧
      (∃ t, exec (.getp pid) s = .next t ∧ t.last = .none) ∧ (∃ t, exec (.ramp pid) s = .next t ∧ t.last = .none)) ∧
    (∀ w e, decode w = .error e → issue w s = .next (refuse .illegal s))

/-- R163: `STATE` changes only when the host moves and its access is hardware reset, an INIT accepted in `UNINIT` or a PROCESS with
frames accepted in `READY`, and when the engine moves and the step is the last frame step of a block. -/
def Obligations.LifecycleChangesOnlyByItsEvents : Prop :=
  ∀ s t : State, step s = .next t →
    t.lifecycle = s.lifecycle ∨
    (t.lifecycle = .uninit ∧ mover s = some .host ∧ ∃ rest, s.hostQ = .hardReset :: rest) ∨
    (s.lifecycle = .uninit ∧ t.lifecycle = .ready ∧ mover s = some .host ∧ ∃ op rest w, s.hostQ = op :: rest ∧
      portCommand op = some w ∧ decode w = .ok .init ∧ t.last = .none) ∨
    (s.lifecycle = .ready ∧ t.lifecycle = .busy ∧ mover s = some .host ∧ ∃ op rest w, s.hostQ = op :: rest ∧
      portCommand op = some w ∧ decode w = .ok .process ∧ t.last = .none ∧ t.blkCount ≠ 0#32) ∨
    (s.lifecycle = .busy ∧ t.lifecycle = .ready ∧ s.blkF + 1#32 = s.blkCount ∧ mover s = some .engine ∧
      ∃ u, frameStep (tick s) = .next u ∧ t = drawTurn u)

/-- R176: `ERR` keeps the first code until the host moves with a hardware reset or an INIT that is accepted, which clear it. -/
def Obligations.ErrIsSticky : Prop :=
  ∀ s t : State, step s = .next t → s.err ≠ .none →
    t.err = s.err ∨
    (t.err = .none ∧ mover s = some .host ∧ ∃ op rest, s.hostQ = op :: rest ∧
      (op = .hardReset ∨ ∃ w, portCommand op = some w ∧ decode w = .ok .init ∧ t.last = .none ∧ t.lifecycle = .ready))

/-! ## INIT, RESET, PROCESS -/

/-- R160: an INIT that passes its checks sets exactly the configuration, the rampers, the toggles, fresh channels (every delay
word `+0.0`, position 0, phase `+0.0`), the block latches and the status fields; a refused INIT changes nothing but `ERR` and
`LAST`. -/
def Obligations.InitConfiguresTheEngine : Prop :=
  ∀ s : State,
    (s.lifecycle ≠ .busy → 1 ≤ s.arg0.toNat → s.arg0.toNat ≤ s.params.maxCh → LegalRate s.arg1.toNat →
      bufSize s.params s.arg1.toNat ≠ 0 → s.arg0.toNat * bufSize s.params s.arg1.toNat ≤ s.params.dlyRamWords →
      exec .init s = .next
        { s with
          nch := s.arg0.toNat
          fsHost := s.arg1.toNat
          rampMix := ⟨paramInit 0, paramInit 0, 0x00000000#32, 0#32⟩
          rampRate := ⟨paramInit 1, paramInit 1, 0x00000000#32, 0#32⟩
          rampDepth := ⟨paramInit 2, paramInit 2, 0x00000000#32, 0#32⟩
          togFeedback := paramInit 3
          togDelay := paramInit 4
          chans := List.replicate s.arg0.toNat ⟨[], 0, 0x00000000#32⟩
          blkCount := 0#32
          blkOff := 0#32
          blkF := 0#32
          lifecycle := .ready
          err := .none
          last := .none }) ∧
    (∀ k, readWord [] k = 0x00000000#32) ∧
    (¬(s.lifecycle ≠ .busy ∧ 1 ≤ s.arg0.toNat ∧ s.arg0.toNat ≤ s.params.maxCh ∧ LegalRate s.arg1.toNat ∧
        bufSize s.params s.arg1.toNat ≠ 0 ∧ s.arg0.toNat * bufSize s.params s.arg1.toNat ≤ s.params.dlyRamWords) →
      ∃ e, e ≠ .none ∧
        exec .init s = .next { s with last := e, err := if s.err = .none then e else s.err })

/-- R161: the checks of INIT in their order; the first that fails decides the code. -/
def Obligations.InitChecksInOrder : Prop :=
  ∀ s : State,
    (s.lifecycle = .busy → exec .init s = .next (refuse .state s)) ∧
    (s.lifecycle ≠ .busy → s.arg0.toNat = 0 → exec .init s = .next (refuse .zeroCh s)) ∧
    (s.lifecycle ≠ .busy → s.arg0.toNat ≠ 0 → bufSize s.params s.arg1.toNat = 0 → exec .init s = .next (refuse .zeroBuf s)) ∧
    (s.lifecycle ≠ .busy → s.arg0.toNat ≠ 0 → bufSize s.params s.arg1.toNat ≠ 0 →
      (s.arg1.toNat < 6 ∨ 4194304 < s.arg1.toNat) → exec .init s = .next (refuse .badRate s)) ∧
    (s.lifecycle ≠ .busy → s.arg0.toNat ≠ 0 → bufSize s.params s.arg1.toNat ≠ 0 → 6 ≤ s.arg1.toNat → s.arg1.toNat ≤ 4194304 →
      (s.params.maxCh < s.arg0.toNat ∨ s.params.dlyRamWords < s.arg0.toNat * bufSize s.params s.arg1.toNat) →
      exec .init s = .next (refuse .alloc s))

/-- R162: RESET in `READY` zeroes every delay word, phase and position and writes nothing else but `LAST`; in any other `STATE`
it is refused with `E_STATE`. -/
def Obligations.ResetFlushesTheAudioHistory : Prop :=
  ∀ s : State,
    (s.lifecycle = .ready → ∃ t, exec .reset s = .next t ∧
      t = { s with chans := t.chans, last := .none } ∧ t.chans.length = s.chans.length ∧
      ∀ ch ∈ t.chans, (∀ k, readWord ch.dly k = 0x00000000#32) ∧ ch.phase = 0x00000000#32 ∧ ch.wpos = 0) ∧
    (s.lifecycle ≠ .ready → exec .reset s = .next (refuse .state s))

/-- R110: PROCESS in `READY` within the host buffers latches the block, runs the three dezipper checks with their own durations
and sets `STATE`; the state and range checks refuse in that order and then nothing else happens. -/
def Obligations.ProcessStartsTheBlock : Prop :=
  ∀ s : State,
    (s.lifecycle ≠ .ready → exec .process s = .next (refuse .state s)) ∧
    (s.lifecycle = .ready → s.params.hostBufLen < s.arg1.toNat + s.arg0.toNat →
      exec .process s = .next (refuse .range s)) ∧
    (s.lifecycle = .ready → s.arg1.toNat + s.arg0.toNat ≤ s.params.hostBufLen →
      exec .process s = .next
        { s with
          blkCount := s.arg0
          blkOff := s.arg1
          blkF := 0#32
          rampMix := dezipperCheck (Config.nanDraw s.draws 0) s.rampMix (BitVec.ofNat 32 (4 * s.fsHost / 50))
          rampRate := dezipperCheck (Config.nanDraw s.draws 1) s.rampRate (BitVec.ofNat 32 (4 * s.fsHost / 10))
          rampDepth := dezipperCheck (Config.nanDraw s.draws 2) s.rampDepth (BitVec.ofNat 32 (4 * s.fsHost / 10))
          lifecycle := if s.arg0 = 0#32 then .ready else .busy
          last := .none })

/-! ## SETP, GETP, RAMP -/

/-- R150: SETP stores the clamped operand as the UI value of a ramped parameter or as the toggle's value, and writes nothing
else but `LAST`; in `UNINIT` it is refused. -/
def Obligations.SetpStoresTheClampedValue : Prop :=
  ∀ (s : State) (pid : Nat),
    (s.lifecycle = .uninit → exec (.setp pid) s = .next (refuse .state s)) ∧
    (s.lifecycle ≠ .uninit → exec (.setp pid) s = .next
      (if pid = 0 then { s with rampMix := { s.rampMix with ui := Num.clamp01 s.arg0 }, last := .none }
       else if pid = 1 then { s with rampRate := { s.rampRate with ui := Num.clamp01 s.arg0 }, last := .none }
       else if pid = 2 then { s with rampDepth := { s.rampDepth with ui := Num.clamp01 s.arg0 }, last := .none }
       else if pid = 3 then { s with togFeedback := Num.clamp01 s.arg0, last := .none }
       else if pid = 4 then { s with togDelay := Num.clamp01 s.arg0, last := .none }
       else { s with last := .none }))

/-- R151: GETP puts the UI value, the toggle's value or `+0.0` into `RESULT` and writes nothing else but `LAST`; on refusal
`RESULT` keeps its old value. -/
def Obligations.GetpReturnsTheUiValue : Prop :=
  ∀ (s : State) (pid : Nat),
    (s.lifecycle = .uninit → exec (.getp pid) s = .next (refuse .state s) ∧ (refuse .state s).result = s.result) ∧
    (s.lifecycle ≠ .uninit → exec (.getp pid) s = .next
      { s with
        result := if pid = 0 then s.rampMix.ui else if pid = 1 then s.rampRate.ui else if pid = 2 then s.rampDepth.ui
          else if pid = 3 then s.togFeedback else if pid = 4 then s.togDelay else 0x00000000#32
        last := .none })

/-- R152: RAMP starts a ramp of the one ramper named, from its current value to the clamped operand over `ARG1` samples, and
writes nothing else but `LAST`; for a toggle and an unknown id it does nothing; in `UNINIT` it is refused. The rampers meet
the invariant of R27, so that no slope is NaN. -/
def Obligations.RampStartsTheNamedRamp : Prop :=
  ∀ (s : State) (pid : Nat),
    (s.lifecycle = .uninit → exec (.ramp pid) s = .next (refuse .state s)) ∧
    (s.lifecycle ≠ .uninit → s.rampMix.Ok → s.rampRate.Ok → s.rampDepth.Ok →
      ∃ go : Ramper → Ramper,
        (∀ r, go r = if s.arg1 = 0#32 then ⟨Num.clamp01 s.arg0, Num.clamp01 s.arg0, 0x00000000#32, 0#32⟩
          else ⟨Num.clamp01 s.arg0, Num.clamp01 s.arg0,
            Num.fdiv (Num.fsub (cur r) (Num.clamp01 s.arg0)) (Num.ofNat s.arg1.toNat), s.arg1⟩) ∧
        exec (.ramp pid) s = .next
          (if pid = 0 then { s with rampMix := go s.rampMix, last := .none }
           else if pid = 1 then { s with rampRate := go s.rampRate, last := .none }
           else if pid = 2 then { s with rampDepth := go s.rampDepth, last := .none }
           else { s with last := .none }))

/-- R153: for an unknown id SETP and RAMP change nothing but `LAST`, GETP sets `RESULT` to `+0.0`, and no error is recorded. -/
def Obligations.UnknownIdsDoNothing : Prop :=
  ∀ (s : State) (pid : Nat), s.lifecycle ≠ .uninit → 5 ≤ pid → pid < 256 →
    exec (.setp pid) s = .next { s with last := .none } ∧
    exec (.ramp pid) s = .next { s with last := .none } ∧
    exec (.getp pid) s = .next { s with result := 0x00000000#32, last := .none }

/-- R17: CLAMP01 gives a value of `[0,1]` for every bit pattern, keeps the values of `[0,1]` bit for bit, sends NaN and whatever is
below 0 to `+0.0` and whatever is above 1 to `1.0`. -/
def Obligations.ClampGivesUnitInterval : Prop :=
  ∀ a : F, In01 (Num.clamp01 a) ∧ (In01 a → Num.clamp01 a = a) ∧ (Num.isNaN a = true → Num.clamp01 a = 0x00000000#32) ∧
    (Num.flt a Sys2Proof.Num.zero = true → Num.clamp01 a = 0x00000000#32) ∧
    (Num.flt Num.one a = true → Num.clamp01 a = 0x3F800000#32)

/-! ## Rampers -/

/-- R105: while a ramp is active, or when the goal already is the UI value, the dezipper check changes nothing; otherwise it
starts a ramp to the UI value. -/
def Obligations.DezipperWaitsForTheRunningRamp : Prop :=
  ∀ (bits : Word) (r : Ramper) (d : Word),
    (r.rem ≠ 0#32 → dezipperCheck bits r d = r) ∧
    (Num.feq r.goal r.ui = true → dezipperCheck bits r d = r) ∧
    (r.rem = 0#32 → Num.feq r.goal r.ui = false → dezipperCheck bits r d = startRamp bits r r.ui d)

/-- R104: `startRamp` on a ramper that meets R27 sets all four fields as the rule says; a duration of 0 jumps. -/
def Obligations.StartRampSetsAllFields : Prop :=
  ∀ (bits : Word) (r : Ramper) (v : F) (d : Word), r.Ok → In01 v →
    startRamp bits r v d =
      if d = 0#32 then { ui := v, goal := v, slope := 0x00000000#32, rem := 0#32 }
      else { ui := v, goal := v, slope := Num.fdiv (Num.fsub (cur r) v) (Num.ofNat d.toNat), rem := d }

/-- R27 and R101: every ramper operation keeps `ui` and `goal` in `[0,1]` and `slope` of magnitude at most 1, and the current
value is in `[0,1]`. -/
def Obligations.RamperOperationsKeepItsInvariant : Prop :=
  ∀ (bits : Word) (r : Ramper) (v : F) (d : Word), r.Ok → In01 v →
    In01 (cur r) ∧ (setUIValue r v).Ok ∧ (stepRamper r).Ok ∧ (startRamp bits r v d).Ok ∧ (dezipperCheck bits r d).Ok

/-- R107: the k-th value after a ramp of `d` samples starts is the rounded point of the line for `k < d`, and exactly the goal
from call number `d` on; `rem` counts down and stops at 0 (R103). -/
def Obligations.RampReachesItsGoalExactly : Prop :=
  ∀ (bits : Word) (r : Ramper) (v : F) (d : Word), d ≠ 0#32 → ∀ k : Nat,
    (k < d.toNat →
      (stepRamperTimes k (startRamp bits r v d)).rem.toNat = d.toNat - k ∧
      cur (stepRamperTimes k (startRamp bits r v d)) =
        Num.clamp01 (Num.fadd (Num.fmul (startRamp bits r v d).slope (Num.ofNat (d.toNat - k))) v)) ∧
    (d.toNat ≤ k →
      (stepRamperTimes k (startRamp bits r v d)).rem = 0#32 ∧ cur (stepRamperTimes k (startRamp bits r v d)) = v)

/-! ## The frame step -/

/-- R111 and R113: a frame step adds 1 to `BLK_F`, sets `STATE` to `READY` after the last frame, and takes one sample off each
running ramp. -/
def Obligations.FrameStepAdvancesTheBlock : Prop :=
  ∀ s t : State, frameStep s = .next t →
    t.blkF = s.blkF + 1#32 ∧
    t.lifecycle = (if s.blkF + 1#32 = s.blkCount then .ready else .busy) ∧
    t.rampMix = { s.rampMix with rem := if s.rampMix.rem = 0#32 then 0#32 else s.rampMix.rem - 1#32 } ∧
    t.rampRate = { s.rampRate with rem := if s.rampRate.rem = 0#32 then 0#32 else s.rampRate.rem - 1#32 } ∧
    t.rampDepth = { s.rampDepth with rem := if s.rampDepth.rem = 0#32 then 0#32 else s.rampDepth.rem - 1#32 }

/-- The frame of a frame step (R52, R53, R111, R113): of the rampers only `rem` changes; of the channels' delay banks only the
word at the channel's own write position; of `OUT` only the word of each channel at sample `BLK_OFF + BLK_F`; of the host's log
(the model's own) only the places of pending reads of those words. Besides these, the channels' positions and phases, `BLK_F`,
`STATE` and the model's records of races, nothing changes. -/
def Obligations.FrameStepLeavesTheRestAlone : Prop :=
  ∀ s t : State, frameStep s = .next t →
    t = { s with
      rampMix := { s.rampMix with rem := t.rampMix.rem }
      rampRate := { s.rampRate with rem := t.rampRate.rem }
      rampDepth := { s.rampDepth with rem := t.rampDepth.rem }
      chans := t.chans
      outMem := t.outMem
      blkF := t.blkF
      lifecycle := t.lifecycle
      hostLog := t.hostLog
      inRace := t.inRace
      outRace := t.outRace
      outPending := t.outPending } ∧
    t.chans.length = s.chans.length ∧
    (∀ (c : Nat) (ch ch' : Channel), s.chans[c]? = some ch → t.chans[c]? = some ch' →
      ∀ a, a / 4 ≠ ch.wpos → readByte ch'.dly a = readByte ch.dly a) ∧
    (∀ a, (∀ c, c < s.chans.length → a / 4 ≠ hostIndex c (s.blkOff.toNat + s.blkF.toNat)) →
      readByte t.outMem a = readByte s.outMem a) ∧
    t.hostLog.length = s.hostLog.length ∧
    (∀ k, (∀ e ∈ s.outPending, e.1 = k → ∀ c, c < s.chans.length → e.2 ≠ hostIndex c (s.blkOff.toNat + s.blkF.toNat)) →
      t.hostLog[k]? = s.hostLog[k]?)

/-- R111, R112, R114, R115, R116: what a frame step does to each channel, spelled out. Mix is the current value of `RAMP[0]`, the
rate that of `RAMP[1]`, the depth that of `RAMP[2]`. The read offset comes from the phase BEFORE its advance: the table's value
there plus 1, times 0.5, times the depth in slots, plus `PREDELAY` exactly when the Delay toggle is at least 0.5. The new phase is
the old one plus the increment, less `TWO_PI` when that reaches it (a NaN is stored with free bits, log 7). `CHANSTEP` then runs on
the channel's own input word, feedback on exactly when the Feedback toggle is at least 0.5, and its output is the one `OUT` word
the frame writes for the channel, at sample `BLK_OFF + BLK_F`. Every byte of `OUT` outside those words, and all of `IN`, is
unchanged (R53). -/
def Obligations.FrameStepWritesItsOutputWords : Prop :=
  (∀ (s t : State) (c : Nat) (ch : Channel) (mix rate depth depthSmp sv base off inc adv phase : F),
    Memory.wf s.outMem → frameStep s = .next t → s.chans[c]? = some ch →
    mix = cur s.rampMix → rate = cur s.rampRate → depth = cur s.rampDepth →
    depthSmp = Num.fmul (Num.fmul (Num.fmul (Num.fmul depth depth) depth) 0x3BA3D70A#32) (Num.ofNat (4 * s.fsHost)) →
    sampleTable s.params.wtN ch.phase = some sv →
    base = Num.fmul (Num.fmul (Num.fadd sv 0x3F800000#32) 0x3F000000#32) depthSmp →
    off = (if Num.fge s.togDelay 0x3F000000#32 = true then Num.fadd base (Num.rnRat (4 * s.fsHost) 100) else base) →
    inc = Num.fmul
      (Num.fadd 0x3D4CCCCD#32 (Num.fmul 0x419F999A#32 (Num.fmul (Num.fmul rate rate) (Num.fmul rate rate))))
      (Num.fdiv 0x40C90FDB#32 (Num.ofNat (4 * s.fsHost))) →
    adv = Num.fadd ch.phase inc →
    phase = (if Num.fge adv 0x40C90FDB#32 = true then Num.fsub adv 0x40C90FDB#32 else adv) →
    ∃ ch' y,
      chanStep (bufSize s.params s.fsHost) { ch with phase := Num.settle (frameNaN s.draws c 2) phase }
        (engineRead s c (s.blkOff.toNat + s.blkF.toNat)) off mix (Num.fge s.togFeedback 0x3F000000#32)
        (frameNaN s.draws c 0) (frameNaN s.draws c 1) = .next (ch', y) ∧
      t.chans[c]? = some ch' ∧ readWord t.outMem (hostIndex c (s.blkOff.toNat + s.blkF.toNat)) = y) ∧
  (∀ s t : State, frameStep s = .next t →
    (∀ ch ∈ s.chans, ∃ sv, sampleTable s.params.wtN ch.phase = some sv) ∧
    (∀ a, (∀ c, c < s.chans.length → a / 4 ≠ hostIndex c (s.blkOff.toNat + s.blkF.toNat)) →
      readByte t.outMem a = readByte s.outMem a) ∧
    t.inMem = s.inMem)

/-- R138: the whole channel step, for a position in the buffer and a read position that has a floor and a ceiling. A result that
is NaN is stored with free sign and payload (R15, log 7). -/
def Obligations.ChannelStepFollowsItsRule : Prop :=
  ∀ (b : Nat) (ch : Channel) (x off mix : F) (fb : Bool) (bitsY bitsFb : Word) (p : F) (fl ce : Int) (d : F),
    ch.wpos < b →
    p = (if Num.flt (Num.fsub (Num.ofNat ch.wpos) off) Sys2Proof.Num.zero = true
      then Num.fadd (Num.fsub (Num.ofNat ch.wpos) off) (Num.ofNat b) else Num.fsub (Num.ofNat ch.wpos) off) →
    Num.floor p = some fl → Num.ceil p = some ce →
    d = Num.lerp (readWord (writeWord ch.dly ch.wpos x) (fl % b).toNat)
      (readWord (writeWord ch.dly ch.wpos x) (ce % b).toNat) (Num.fsub p (Num.ofInt fl)) →
    ∃ ch' y, chanStep b ch x off mix fb bitsY bitsFb = .next (ch', y) ∧ ch'.phase = ch.phase ∧
      ch'.wpos = (ch.wpos + 1) % b ∧
      y = Num.settle bitsY
        (Num.fadd x (Num.fmul (Num.fsub (Num.fmul (Num.tanh (Num.fadd d x)) Config.clipGain) x) mix)) ∧
      (Memory.wf ch.dly → readWord ch'.dly ch.wpos =
        if fb then Num.settle bitsFb (Num.tanh (Num.fadd x (Num.fmul d Config.fbGain))) else x) ∧
      (∀ a, a / 4 ≠ ch.wpos → readByte ch'.dly a = readByte ch.dly a)

/-- R132: each of the two indices lies in `[0, BUF_SIZE)` whatever the read position is, and so does the advanced write
position (R137). -/
def Obligations.DelayIndicesStayInTheBuffer : Prop :=
  ∀ (b : Nat) (i : Int) (w : Nat), 0 < b → wrapIndex b i < b ∧ advance b w < b ∧
    ((wrapIndex b i : Nat) : Int) = i - b * (i / b)

/-- R139, first and third item: with an integer offset `k` the delayed signal is the slot `k` places back from the write
position, across the seam of the buffer when `w < k`; with `k = 0` it is the sample just written, so there is no base delay
(C1). -/
def Obligations.IntegerOffsetReadsTheSlotBack : Prop :=
  ∀ (dly : Memory) (b w k : Nat) (x : F), Memory.wf dly → w < b → b ≤ 16777216 → k < b → Num.isFinite x = true →
    Num.isFinite (readWord dly ((w + b - k) % b)) = true →
    ∃ d, delayedSignal (delayWrite dly w x) b (readPosition b w (Num.ofNat k)) = some d ∧
      Num.value d = Num.value (if k = 0 then x else readWord dly ((w + b - k) % b))

/-- R134: the wet signal, and its bound: `|wet| <= CLIP_GAIN` whenever `d + x` is not NaN. -/
def Obligations.WetSignalIsBounded : Prop :=
  ∀ d x : F, wetSignal d x = Num.fmul (Num.tanh (Num.fadd d x)) 0x3F83D70A#32 ∧
    (Num.isNaN (Num.fadd d x) = false →
      Num.isNaN (wetSignal d x) = false ∧ Num.mag (wetSignal d x) ≤ Num.mag Config.clipGain)

/-- R135: with Mix `+0.0` the output is the clean input bit for bit, for a finite nonzero input and a finite `wet - x`. -/
def Obligations.MixZeroIsTransparent : Prop :=
  ∀ x wet : F, Num.isFinite x = true → Num.mag x ≠ 0 → Num.isFinite (Num.fsub wet x) = true →
    mixOutput x wet 0x00000000#32 = x

/-- R141 and source property 5: while inputs and delay words are of magnitude at most 1, every output is of magnitude at most 2.5
and the delay words stay of magnitude at most 1, feedback or not. -/
def Obligations.OutputStaysBounded : Prop :=
  ∀ s t : State, s.Inv → s.lifecycle = .busy →
    (∀ ch ∈ s.chans, ∀ k, AtMost1 (readWord ch.dly k)) →
    (∀ c, c < s.chans.length → AtMost1 (engineRead s c (s.blkOff.toNat + s.blkF.toNat))) →
    frameStep s = .next t →
    (∀ ch ∈ t.chans, ∀ k, AtMost1 (readWord ch.dly k)) ∧
    (∀ c, c < s.chans.length →
      Num.mag (readWord t.outMem (hostIndex c (s.blkOff.toNat + s.blkF.toNat))) ≤ Num.mag 0x40200000#32)

/-- R118: what a frame does to a channel depends on that channel's record, its own input word and the per-frame quantities, and
on no other channel. -/
def Obligations.ChannelsAreIndependent : Prop :=
  ∀ (s1 s2 t1 t2 : State) (c : Nat), Memory.wf s1.outMem → Memory.wf s2.outMem → c < s1.chans.length →
    frameParams s1 = frameParams s2 → s1.chans[c]? = s2.chans[c]? →
    engineRead s1 c (frameParams s1).sample = engineRead s2 c (frameParams s1).sample →
    frameStep s1 = .next t1 → frameStep s2 = .next t2 →
    t1.chans[c]? = t2.chans[c]? ∧
    readWord t1.outMem (hostIndex c (frameParams s1).sample) = readWord t2.outMem (hostIndex c (frameParams s1).sample)

/-- R105 and R154: a UI value set while a block runs does not reach the audio of that block: the frames' channels and outputs do
not depend on it. -/
def Obligations.UiValueDoesNotReachTheRunningBlock : Prop :=
  ∀ (s t : State) (a b c : F), frameStep s = .next t →
    frameStep { s with
      rampMix := { s.rampMix with ui := a }
      rampRate := { s.rampRate with ui := b }
      rampDepth := { s.rampDepth with ui := c } } =
    .next { t with
      rampMix := { t.rampMix with ui := a }
      rampRate := { t.rampRate with ui := b }
      rampDepth := { t.rampDepth with ui := c } }

/-- R28, R115, R117: the toggles enter a frame only as their comparison with 0.5, one for all its channels: with toggle values on
the same sides of 0.5 the frame step answers the same, the toggles apart. The Delay toggle does one thing: a channel's read offset is
the offset without it, plus `PREDELAY` exactly when the toggle is at least 0.5; the Feedback toggle does one thing: the channel step
runs with feedback exactly when it is at least 0.5. -/
def Obligations.TogglesActAtOneHalf : Prop :=
  (∀ (s : State) (f d : F), Num.fge f 0x3F000000#32 = Num.fge s.togFeedback 0x3F000000#32 →
    Num.fge d 0x3F000000#32 = Num.fge s.togDelay 0x3F000000#32 →
    frameStep { s with togFeedback := f, togDelay := d } =
      andThen (frameStep s) fun t => .next { t with togFeedback := f, togDelay := d }) ∧
  (∀ s : State, In01 s.togFeedback → In01 s.togDelay →
    ((frameParams s).fb = true ↔ Num.value Num.half ≤ Num.value s.togFeedback) ∧
    ((frameParams s).dl = true ↔ Num.value Num.half ≤ Num.value s.togDelay)) ∧
  (∀ (s : State) (c : Nat) (ch : Channel) (x sv base : F), sampleTable s.params.wtN ch.phase = some sv →
    base = lfoOffset s.fsHost sv (depthSamples s.fsHost (cur s.rampDepth)) false →
    base = Num.fmul (Num.fmul (Num.fadd sv 0x3F800000#32) 0x3F000000#32) (depthSamples s.fsHost (cur s.rampDepth)) ∧
    channelFrame (frameParams s) c ch x =
      chanStep (bufSize s.params s.fsHost)
        { ch with
          phase := Num.settle (frameNaN s.draws c 2)
            (wrap2Pi (Num.fadd ch.phase (phaseInc s.fsHost (cur s.rampRate)))) }
        x (if Num.fge s.togDelay 0x3F000000#32 = true then Num.fadd base (predelay s.fsHost) else base)
        (cur s.rampMix) (Num.fge s.togFeedback 0x3F000000#32) (frameNaN s.draws c 0) (frameNaN s.draws c 1))

/-! ## LFO -/

/-- R116 and R30: for every rate of `[0,1]` and every legal host rate, the phase advance and its wrap keep the phase in
`[0, 2π)`. -/
def Obligations.PhaseAdvanceStaysInRange : Prop :=
  ∀ (fs : Nat) (rate ph : F), LegalRate fs → In01 rate → PhaseOk ph →
    PhaseOk (wrap2Pi (Num.fadd ph (phaseInc fs rate)))

/-- R116: the LFO frequency lies between `MIN_RATE_HZ` and `MAX_RATE_HZ` for every rate of `[0,1]`, so the LFO never stops, and it
meets both ends. -/
def Obligations.LfoFrequencyRange : Prop :=
  (∀ rate : F, In01 rate →
    Num.fle Config.minRateHz (lfoFreq rate) = true ∧ Num.fle (lfoFreq rate) Config.maxRateHz = true) ∧
  lfoFreq 0x00000000#32 = Config.minRateHz ∧ lfoFreq 0x3F800000#32 = Config.maxRateHz

/-- R114: the modulation depth in slots is not negative and at most `MAX_DEPTH_S * FS_INT_F`, with `+0.0` at depth 0 and the bound
itself at depth 1. -/
def Obligations.DepthSamplesRange : Prop :=
  ∀ fs : Nat, LegalRate fs →
    (∀ depth : F, In01 depth → Num.fle Sys2Proof.Num.zero (depthSamples fs depth) = true ∧
      Num.fle (depthSamples fs depth) (Num.fmul Config.maxDepthS (fsIntF fs)) = true) ∧
    depthSamples fs 0x00000000#32 = 0x00000000#32 ∧
    depthSamples fs 0x3F800000#32 = Num.fmul Config.maxDepthS (fsIntF fs)

/-- R90: two entries of the default `TABLE`, and for every length `WT_N` the zero at its start, its odd symmetry as values, no
entry NaN or infinite, and, where 4 divides it, the quarter points. -/
def Obligations.WavetableSymmetry : Prop :=
  table 65536 1 = 0x38C90FDB#32 ∧ table 65536 65535 = 0xB8C90FDB#32 ∧
  ∀ n, 2 ≤ n →
    table n 0 = 0x00000000#32 ∧
    (∀ i, 0 < i → i < n → Num.value (table n (n - i)) = -Num.value (table n i) ∧ Num.isFinite (table n i) = true) ∧
    (n % 4 = 0 → table n (n / 4) = 0x3F800000#32 ∧ table n (n / 2) = 0x00000000#32 ∧
      table n (3 * n / 4) = 0xBF800000#32)

/-- R92 and R93, for every legal instance: for every phase of `[0, 2π)` SAMPLETABLE interpolates the two entries around
`(phase / 2π) * (WT_N - 1)`, and the value is finite and never beyond the left entry on the side away from the right one; up to
`WT_N` 2^24 + 1, where `WT_N - 1` is exact in F, both entries lie inside the table without the clamps, and from `TWO_PI` on the value
is the last entry's, however large the phase is (for the default `WT_N` the word 0xB8C90FDB). A finite phase below 0, however large,
gives `+0.0`, and so does a zero. A NaN or infinite phase, and no other, has no result. -/
def Obligations.SampleTableInterpolatesTheTable : Prop :=
  (∀ (p : HwParams) (phase idx : F), Legal p → PhaseOk phase →
    idx = Num.fmul (Num.fdiv phase Config.twoPi) (Num.ofNat (p.wtN - 1)) →
    ∃ (i j : Nat) (a b v : F), i ≤ j ∧ j ≤ i + 1 ∧ (p.wtN ≤ 16777217 → j ≤ p.wtN - 1) ∧
      Num.floor idx = some (i : Int) ∧ Num.ceil idx = some (j : Int) ∧
      a = table p.wtN (min i (p.wtN - 1)) ∧ b = table p.wtN (min j (p.wtN - 1)) ∧
      sampleTable p.wtN phase = some v ∧ v = Num.lerp a b (Num.fsub idx (Num.ofNat i)) ∧ Num.isFinite v = true ∧
      (Num.value a ≤ Num.value b → Num.value a ≤ Num.value v) ∧
      (Num.value b ≤ Num.value a → Num.value v ≤ Num.value a)) ∧
  (∀ (p : HwParams) (phase : F), Legal p → Num.isFinite phase = true →
    (Num.value phase ≤ 0 → sampleTable p.wtN phase = some 0x00000000#32) ∧
    (p.wtN ≤ 16777217 → Num.value Config.twoPi ≤ Num.value phase →
      ∃ v, sampleTable p.wtN phase = some v ∧ Num.value v = Num.value (table p.wtN (p.wtN - 1)))) ∧
  (∀ phase : F, Num.isFinite phase = true → Num.value Config.twoPi ≤ Num.value phase →
    sampleTable 65536 phase = some 0xB8C90FDB#32) ∧
  ∀ (n : Nat) (phase : F), sampleTable n phase = none ↔ Num.isFinite phase = false

/-! ## Numerics -/

/-- R13 and R19 P1: the sum and the difference of finite values are rounded to nearest, ties to even, whenever the result is
finite: no finite value is nearer, and of two equally near ones the even pattern is taken. -/
def Obligations.SumIsCorrectlyRounded : Prop :=
  ∀ a b c : F, Num.isFinite a = true → Num.isFinite b = true → Num.isFinite c = true →
    (Num.isFinite (Num.fadd a b) = true →
      |Num.value (Num.fadd a b) - (Num.value a + Num.value b)| ≤ |Num.value c - (Num.value a + Num.value b)| ∧
      (|Num.value (Num.fadd a b) - (Num.value a + Num.value b)| = |Num.value c - (Num.value a + Num.value b)| →
        Num.value c ≠ Num.value (Num.fadd a b) → Num.low31 (Num.fadd a b) % 2 = 0)) ∧
    (Num.isFinite (Num.fsub a b) = true →
      |Num.value (Num.fsub a b) - (Num.value a - Num.value b)| ≤ |Num.value c - (Num.value a - Num.value b)| ∧
      (|Num.value (Num.fsub a b) - (Num.value a - Num.value b)| = |Num.value c - (Num.value a - Num.value b)| →
        Num.value c ≠ Num.value (Num.fsub a b) → Num.low31 (Num.fsub a b) % 2 = 0))

/-- R13 and R19 P1: the product of finite values is rounded to nearest, ties to even, whenever the result is finite. The unit of
`value` is 2^-149, so the exact product is `value a * value b` in units of 2^-298. -/
def Obligations.ProductIsCorrectlyRounded : Prop :=
  ∀ a b c : F, Num.isFinite a = true → Num.isFinite b = true → Num.isFinite c = true →
    Num.isFinite (Num.fmul a b) = true →
    |Num.value (Num.fmul a b) * 2 ^ 149 - Num.value a * Num.value b| ≤
      |Num.value c * 2 ^ 149 - Num.value a * Num.value b| ∧
    (|Num.value (Num.fmul a b) * 2 ^ 149 - Num.value a * Num.value b| =
        |Num.value c * 2 ^ 149 - Num.value a * Num.value b| →
      Num.value c ≠ Num.value (Num.fmul a b) → Num.low31 (Num.fmul a b) % 2 = 0)

/-- R13 and R19 P1: the quotient of finite values, the divisor not zero, is rounded to nearest whenever the result is finite,
said after multiplying by the divisor. -/
def Obligations.QuotientIsCorrectlyRounded : Prop :=
  ∀ a b c : F, Num.isFinite a = true → Num.isFinite b = true → Num.value b ≠ 0 → Num.isFinite c = true →
    Num.isFinite (Num.fdiv a b) = true →
    |Num.value (Num.fdiv a b) * Num.value b - Num.value a * 2 ^ 149| ≤
      |Num.value c * Num.value b - Num.value a * 2 ^ 149|

/-- R19 P3: `TANH` is odd, bounded by 1 and monotone. -/
def Obligations.TanhIsOddBoundedMonotone : Prop :=
  ∀ a b : F, Num.isNaN a = false → Num.isNaN b = false →
    Num.tanh (Num.neg a) = Num.neg (Num.tanh a) ∧ Num.mag (Num.tanh a) ≤ Num.mag Num.one ∧
    (Num.value a ≤ Num.value b → Num.value (Num.tanh a) ≤ Num.value (Num.tanh b))

/-- R18: `LERP` gives its left end at `t = +0.0`, and the common end when the ends are equal, as values. -/
def Obligations.LerpMeetsItsEnds : Prop :=
  ∀ a b t : F, Num.isFinite a = true → Num.isFinite t = true →
    Num.value (Num.lerp a a t) = Num.value a ∧
    (Num.isFinite (Num.fsub b a) = true → Num.value (Num.lerp a b 0x00000000#32) = Num.value a)

/-! ## The host's side -/

/-- R21: what a host read of each control register returns; a write to `CMD` issues a command; a write to a read-only register
or to an index above 9 is ignored; no command and no frame step writes `ARG0` or `ARG1`. -/
def Obligations.ControlRegisterFile : Prop :=
  ∀ (s : State) (v : Word),
    (regRead s 0 = 0#32 ∧ regRead s 1 = s.arg0 ∧ regRead s 2 = s.arg1 ∧ regRead s 3 = statusWord s ∧
      regRead s 4 = s.result ∧ regRead s 7 = s.blkF ∧ regRead s 8 = s.blkCount ∧ regRead s 9 = s.blkOff) ∧
    (s.lifecycle = .uninit → regRead s 5 = 0#32 ∧ regRead s 6 = 0#32) ∧
    (s.lifecycle ≠ .uninit → regRead s 5 = BitVec.ofNat 32 s.nch ∧ regRead s 6 = BitVec.ofNat 32 s.fsHost) ∧
    (∀ i, 9 < i → regRead s i = 0#32) ∧
    (∀ i, hostAccess (.readReg i) s = .next { s with hostLog := s.hostLog ++ [regRead s i] }) ∧
    hostStep (.writeReg 0 v) s = issue v s ∧
    hostAccess (.writeReg 1 v) s = .next { s with arg0 := v } ∧
    hostAccess (.writeReg 2 v) s = .next { s with arg1 := v } ∧
    (∀ i, 3 ≤ i → hostAccess (.writeReg i v) s = .next s) ∧
    (∀ i t, exec i s = .next t → t.arg0 = s.arg0 ∧ t.arg1 = s.arg1) ∧
    (∀ t, frameStep s = .next t → t.arg0 = s.arg0 ∧ t.arg1 = s.arg1)

/-- R55 and R56: on a byte-mapped platform one aligned 32-bit access at byte address `4 * i` acts as the access to register
`i`, a write of `CMD` included; any other width or a misaligned address is refused by name, with no next state. -/
def Obligations.ByteMappingIsAlignedWords : Prop :=
  ∀ (s : State) (i : Nat) (v : Word),
    hostStep (.writeBus (4 * i) 4 v) s = hostStep (.writeReg i v) s ∧
    hostStep (.readBus (4 * i) 4) s = hostStep (.readReg i) s ∧
    ∀ a width, width ≠ 4 ∨ a % 4 ≠ 0 →
      hostStep (.writeBus a width v) s = .refused (.unalignedAccess a width) ∧
      hostStep (.readBus a width) s = .refused (.unalignedAccess a width)

/-- R22 and R172: the fields of `STATUS` and its zero bits, and the numbers of the result codes that stand in `ERR` and `LAST`. -/
def Obligations.StatusFields : Prop :=
  (∀ s : State, (statusWord s).toNat =
    (match s.lifecycle with | .uninit => 0 | .ready => 1 | .busy => 2) + 256 * s.err.byte.toNat + 65536 * s.last.byte.toNat) ∧
  Code.none.byte = 0#8 ∧ Code.zeroCh.byte = 1#8 ∧ Code.zeroBuf.byte = 2#8 ∧ Code.alloc.byte = 3#8 ∧
  Code.badRate.byte = 4#8 ∧ Code.illegal.byte = 5#8 ∧ Code.state.byte = 6#8 ∧ Code.range.byte = 7#8 ∧
  ∀ e : Code, e.byte.toNat ≤ 7

/-- R191: hardware reset leaves every register at the value the rule gives and abandons a running block, and the instance stays
the same one (R9); the host's audio memories keep their contents and the records of races are dropped (log 14). -/
def Obligations.HardwareResetLeavesUninit : Prop :=
  ∀ (s : State) (rest : List HostOp), mover s = some .host → s.hostQ = .hardReset :: rest →
    ∃ t, step s = .next t ∧ t.lifecycle = .uninit ∧ t.err = .none ∧ t.last = .none ∧ t.arg0 = 0#32 ∧ t.arg1 = 0#32 ∧
      t.result = 0#32 ∧ t.blkCount = 0#32 ∧ t.blkOff = 0#32 ∧ t.blkF = 0#32 ∧ regRead t 5 = 0#32 ∧ regRead t 6 = 0#32 ∧
      t.inMem = s.inMem ∧ t.outMem = s.outMem ∧ t.hostQ = rest ∧ t.hostLog = s.hostLog ∧ t.inRace = [] ∧ t.outRace = [] ∧
      t.outPending = [] ∧ t.params = s.params

/-- R61 (with the conventions of log 13). `raced` gives the current word or one of the older ones, each for some free value, and
with no older one the current word. The engine's read of an `IN` word is `raced` of the word and its recorded older contents. A
host write of an `IN` word stores it, keeps every other word, and records the old contents exactly when the word belongs to the
running block. A host read of an `OUT` word logs `raced` of the word and its recorded older contents; for a word of the running
block that is not yet written, an odd free value makes it a pending read besides, and for any other word it changes nothing else.
With no block running, what it logs is the current word. A frame step of a block records, for each `OUT` word it writes, the
contents before, and puts the new sample into the log for every pending read of that word; the last frame drops all records. -/
def Obligations.RacesAdmitOldAndNew : Prop :=
  (∀ (now : Word) (older : List Word),
    (∀ n, raced now older n = now ∨ raced now older n ∈ older) ∧ (∀ n, raced now [] n = now) ∧
    (∃ n, raced now older n = now) ∧ ∀ w ∈ older, ∃ n, raced now older n = w) ∧
  (∀ (s : State) (c i : Nat), engineRead s c i =
    raced (readWord s.inMem (hostIndex c i)) (olderAt s.inRace (hostIndex c i)) (Config.raceDraw s.draws c)) ∧
  (∀ (s t : State) (c i : Nat) (v : F), Memory.wf s.inMem → hostAccess (.writeIn c i v) s = .next t →
    t = { s with
      inMem := t.inMem
      inRace := if s.lifecycle = .busy ∧ s.blkOff.toNat ≤ i ∧ i < s.blkOff.toNat + s.blkCount.toNat
        then (hostIndex c i, readWord s.inMem (hostIndex c i)) :: s.inRace else s.inRace } ∧
    readWord t.inMem (hostIndex c i) = v ∧ ∀ k, k ≠ hostIndex c i → readWord t.inMem k = readWord s.inMem k) ∧
  (∀ (s : State) (c i : Nat), hostWord s c i = true →
    hostAccess (.readOut c i) s = .next (hostReadOut s c i (Config.raceDraw s.draws c))) ∧
  (∀ (s : State) (c i draw : Nat), hostReadOut s c i draw =
    { s with
      hostLog := s.hostLog ++ [raced (readWord s.outMem (hostIndex c i)) (olderAt s.outRace (hostIndex c i)) draw]
      outPending := if (s.lifecycle = .busy ∧ s.blkOff.toNat + s.blkF.toNat ≤ i ∧
          i < s.blkOff.toNat + s.blkCount.toNat) ∧ draw % 2 = 1
        then s.outPending ++ [(s.hostLog.length, hostIndex c i)] else s.outPending }) ∧
  (∀ (s : State) (c i draw : Nat), s.Inv → s.lifecycle ≠ .busy →
    hostReadOut s c i draw = { s with hostLog := s.hostLog ++ [readWord s.outMem (hostIndex c i)] }) ∧
  (∀ (s t : State) (i : Nat), s.Inv → i = s.blkOff.toNat + s.blkF.toNat → frameStep s = .next t →
    (s.blkF + 1#32 = s.blkCount → t.inRace = [] ∧ t.outRace = [] ∧ t.outPending = []) ∧
    (s.blkF + 1#32 ≠ s.blkCount → t.inRace = s.inRace ∧
      (∀ e, e ∈ t.outRace ↔ e ∈ s.outRace ∨
        ∃ c, c < s.chans.length ∧ e = (hostIndex c i, readWord s.outMem (hostIndex c i))) ∧
      (∀ e, e ∈ t.outPending ↔ e ∈ s.outPending ∧ ∀ c, c < s.chans.length → e.2 ≠ hostIndex c i)) ∧
    ∀ e ∈ s.outPending, ∀ c, c < s.chans.length → e.2 = hostIndex c i →
      t.hostLog[e.1]? = some (readWord t.outMem (hostIndex c i)))

/-- R53 and R23: `IN` is written only by the host, `OUT` only by a frame step, and the operand registers only by a host register
write or hardware reset. -/
def Obligations.EachMemoryHasOneWriter : Prop :=
  ∀ s t : State, step s = .next t →
    (t.inMem = s.inMem ∨ (mover s = some .host ∧ ∃ c i v rest, s.hostQ = .writeIn c i v :: rest ∧
      t.inMem = writeWord s.inMem (hostIndex c i) v)) ∧
    (t.outMem = s.outMem ∨ (s.lifecycle = .busy ∧ mover s = some .engine)) ∧
    ((t.arg0 = s.arg0 ∧ t.arg1 = s.arg1) ∨ mover s = some .host ∧ ∃ op rest, s.hostQ = op :: rest ∧
      (op = .hardReset ∨ (∃ v, op = .writeReg 1 v ∨ op = .writeReg 2 v) ∨ ∃ v, op = .writeBus 4 4 v ∨ op = .writeBus 8 4 v))

/-! ## Headline results -/

/-- R6, R7, R184: exactly the legal parameters make a machine, the state after its reset meets the invariants, and `State.reset` is
the one with the defaults; the values the spec does not give there are the model's choice (log 3, log 4, log 5). -/
def Obligations.InvariantsHoldAtReset : Prop :=
  powerOn .default = some State.reset ∧
  ∀ p : HwParams, (¬ Legal p → powerOn p = none) ∧
    (Legal p → ∃ s, powerOn p = some s ∧ s.params = p ∧ s.lifecycle = .uninit ∧ s.Inv ∧ s.Uniform)

/-- R24, R25, R27 to R30: every step from a state that meets the invariants gives one that meets them: ramper and toggle values in
`[0,1]`, write positions in the buffer, phases in `[0, 2π)`, delay banks within `BUF_SIZE`, the running block inside the host
buffers with a frame left, memories canonical, no race recorded outside a running block (R61, log 13). The parameters of the
instance never change (R9). -/
def Obligations.StepKeepsTheInvariants : Prop :=
  ∀ s t : State, s.Inv → step s = .next t → t.Inv ∧ t.params = s.params

/-- R35: every step keeps all channels at one write position and one phase. -/
def Obligations.ChannelsStayInStep : Prop :=
  ∀ s t : State, s.Inv → s.Uniform → step s = .next t → t.Uniform

/-- R170 and R16: processing raises nothing: from a state that meets the invariants the frame step always completes, whatever the
samples are: no floor or ceiling of a NaN or infinity, no index outside a buffer. -/
def Obligations.FrameStepAlwaysCompletes : Prop :=
  ∀ s : State, s.Inv → s.lifecycle = .busy → ∃ t, frameStep s = .next t

/-- From a state that meets the invariants, a step stops only on a host access the spec gives no result for. -/
def Obligations.StepAlwaysCompletes : Prop :=
  ∀ s : State, s.Inv → s.NextLegal → Safe (step s)

/-- R111 and R197: a block always runs to its end: with no host access pending, a running block is `READY` after exactly its
remaining frame steps and not before. -/
def Obligations.BlockRunsToItsEnd : Prop :=
  ∀ s : State, s.Inv → s.lifecycle = .busy → s.hostQ = [] →
    (∃ t, core.run (s.blkCount.toNat - s.blkF.toNat) s = .next t ∧ t.lifecycle = .ready ∧ t.blkF = s.blkCount) ∧
    ∀ k, k < s.blkCount.toNat - s.blkF.toNat →
      ∃ t, core.run k s = .next t ∧ t.lifecycle = .busy ∧ t.blkF.toNat = s.blkF.toNat + k
end

