-- ==== Sys2Proof/Laws/Memory.lean ====
section
/-! SUPPORT. The laws of the memory operations: read after write, the canonical form is kept, equal contents are equal
memories. -/

namespace Sys2Proof.Machine

/-! ## Bytes -/

@[simp] theorem readByte_nil (a : Nat) : readByte [] a = 0#8 := rfl

theorem readByte_eq_zero_of_forall_ne {m : Memory} {a : Nat} (h : ∀ c ∈ m, c.1 ≠ a) : readByte m a = 0#8 := by
  induction m with
  | nil => rfl
  | cons c m ih =>
    have hc : c.1 ≠ a := h c (by simp)
    simp only [readByte, if_neg hc]
    exact ih fun d hd => h d (by simp [hd])

theorem Memory.wf_nil : Memory.wf [] := ⟨List.Pairwise.nil, by simp⟩

theorem Memory.wf_tail {c : Host.Cell} {m : Memory} (h : Memory.wf (c :: m)) : Memory.wf m :=
  ⟨(List.pairwise_cons.1 h.1).2, fun d hd => h.2 d (by simp [hd])⟩

theorem Memory.wf_head_lt {c : Host.Cell} {m : Memory} (h : Memory.wf (c :: m)) : ∀ d ∈ m, c.1 < d.1 :=
  (List.pairwise_cons.1 h.1).1

theorem readByte_head {c : Host.Cell} {m : Memory} {a : Nat} (h : Memory.wf (c :: m)) (ha : a < c.1) :
    readByte (c :: m) a = 0#8 :=
  readByte_eq_zero_of_forall_ne fun d hd => by
    rcases List.mem_cons.1 hd with rfl | hd
    · omega
    · have := Memory.wf_head_lt h d hd; omega

/-- Every address a write lists was listed before or is the one written. -/
theorem writeByte_mem {m : Memory} {a : Nat} {v : Byte} :
    ∀ d ∈ writeByte m a v, d ∈ m ∨ (d = (a, v) ∧ v ≠ 0#8) := by
  induction m with
  | nil =>
    intro d hd
    by_cases hv : v = 0#8
    · simp [writeByte, hv] at hd
    · simp only [writeByte, if_neg hv, List.mem_singleton] at hd
      exact .inr ⟨hd, hv⟩
  | cons c m ih =>
    intro d hd
    simp only [writeByte] at hd
    split at hd
    · split at hd
      · exact .inl hd
      · rcases List.mem_cons.1 hd with rfl | hd
        · exact .inr ⟨rfl, ‹_›⟩
        · exact .inl hd
    · split at hd
      · split at hd
        · exact .inl (by simp [hd])
        · rcases List.mem_cons.1 hd with rfl | hd
          · exact .inr ⟨rfl, ‹_›⟩
          · exact .inl (by simp [hd])
      · rcases List.mem_cons.1 hd with rfl | hd
        · exact .inl (by simp)
        · rcases ih d hd with h | h
          · exact .inl (by simp [h])
          · exact .inr h

/-- A write keeps the canonical form. -/
theorem writeByte_wf {m : Memory} (h : Memory.wf m) (a : Nat) (v : Byte) : Memory.wf (writeByte m a v) := by
  induction m with
  | nil =>
    by_cases hv : v = 0#8
    · rw [hv]; exact Memory.wf_nil
    · simp only [writeByte, if_neg hv]
      exact ⟨List.pairwise_singleton _ _, by simpa using hv⟩
  | cons c m ih =>
    have hlt := Memory.wf_head_lt h
    have hne : c.2 ≠ 0#8 := h.2 c (by simp)
    have ht := (Memory.wf_tail h)
    simp only [writeByte]
    split
    · split
      · exact h
      · refine ⟨List.pairwise_cons.2 ⟨fun d hd => ?_, h.1⟩, fun d hd => ?_⟩
        · rcases List.mem_cons.1 hd with rfl | hd
          · assumption
          · have := hlt d hd; simp only; omega
        · rcases List.mem_cons.1 hd with rfl | hd
          · assumption
          · exact h.2 d hd
    · split
      · split
        · exact ht
        · refine ⟨List.pairwise_cons.2 ⟨fun d hd => ?_, ht.1⟩, fun d hd => ?_⟩
          · have := hlt d hd; simp only; omega
          · rcases List.mem_cons.1 hd with rfl | hd
            · assumption
            · exact ht.2 d hd
      · have ih' := ih ht
        refine ⟨List.pairwise_cons.2 ⟨fun d hd => ?_, ih'.1⟩, fun d hd => ?_⟩
        · rcases writeByte_mem d hd with hd | ⟨rfl, -⟩
          · exact hlt d hd
          · simp only; omega
        · rcases List.mem_cons.1 hd with rfl | hd
          · exact hne
          · exact ih'.2 d hd

/-- Reading the address just written gives the byte written. -/
theorem readByte_writeByte_same {m : Memory} (h : Memory.wf m) (a : Nat) (v : Byte) :
    readByte (writeByte m a v) a = v := by
  induction m with
  | nil =>
    simp only [writeByte]
    split <;> simp_all [readByte]
  | cons c m ih =>
    simp only [writeByte]
    split
    · split
      · rename_i hlt hv; rw [hv]; exact readByte_head h hlt
      · simp [readByte]
    · split
      · split
        · rename_i hca hv
          rw [hv]
          exact readByte_eq_zero_of_forall_ne fun d hd => by have := Memory.wf_head_lt h d hd; omega
        · simp [readByte]
      · rename_i hne
        simp only [readByte, if_neg hne]
        exact ih (Memory.wf_tail h)

/-- A write leaves every other address alone. -/
theorem readByte_writeByte_other {m : Memory} {a b : Nat} (v : Byte) (hab : b ≠ a) :
    readByte (writeByte m a v) b = readByte m b := by
  induction m with
  | nil =>
    simp only [writeByte]
    split <;> simp [readByte, hab.symm]
  | cons c m ih =>
    simp only [writeByte]
    split
    · split
      · rfl
      · simp [readByte, hab.symm]
    · split
      · rename_i hca
        split
        · simp only [readByte]; rw [if_neg (by omega)]
        · simp only [readByte]
          rw [if_neg hab.symm, if_neg (by omega)]
      · simp only [readByte, ih]

/-- Canonical memories with the same contents are the same memory. -/
theorem Memory.ext_of_readByte {m n : Memory} (hm : Memory.wf m) (hn : Memory.wf n)
    (h : ∀ a, readByte m a = readByte n a) : m = n := by
  induction m generalizing n with
  | nil =>
    cases n with
    | nil => rfl
    | cons d n =>
      have := h d.1
      simp only [readByte, if_true] at this
      exact absurd this.symm (hn.2 d (by simp))
  | cons c m ih =>
    cases n with
    | nil =>
      have := h c.1
      simp only [readByte, if_true] at this
      exact absurd this (hm.2 c (by simp))
    | cons d n =>
      have hc := h c.1
      have hd := h d.1
      have hcd : c.1 = d.1 := by
        rcases Nat.lt_trichotomy c.1 d.1 with hlt | heq | hgt
        · rw [readByte_head hn hlt] at hc
          simp only [readByte, if_true] at hc
          exact absurd hc (hm.2 c (by simp))
        · exact heq
        · rw [readByte_head hm hgt] at hd
          simp only [readByte, if_true] at hd
          exact absurd hd.symm (hn.2 d (by simp))
      have hval : c.2 = d.2 := by simpa [readByte, hcd] using hc
      have hrest : m = n := ih (Memory.wf_tail hm) (Memory.wf_tail hn) fun a => by
        by_cases ha : c.1 = a
        · have h1 : readByte m a = 0#8 := readByte_eq_zero_of_forall_ne fun e he => by
            have := Memory.wf_head_lt hm e he; omega
          have h2 : readByte n a = 0#8 := readByte_eq_zero_of_forall_ne fun e he => by
            have := Memory.wf_head_lt hn e he; omega
          rw [h1, h2]
        · have := h a
          simp only [readByte, if_neg ha, if_neg (hcd ▸ ha : ¬ d.1 = a)] at this
          exact this
      rw [hrest, Prod.ext hcd hval]

/-! ## Words -/

/-- Four bytes, put together least significant first, are the word they were taken from. -/
theorem wordByte_append (v : Word) : wordByte v 3 ++ wordByte v 2 ++ wordByte v 1 ++ wordByte v 0 = v := by
  ext i hi
  simp only [wordByte, BitVec.getElem_append, BitVec.getElem_extractLsb']
  split
  · simp [BitVec.getLsbD_eq_getElem hi]
  · split
    · rw [← BitVec.getLsbD_eq_getElem hi]; congr 1; omega
    · split
      · rw [← BitVec.getLsbD_eq_getElem hi]; congr 1; omega
      · rw [← BitVec.getLsbD_eq_getElem hi]; congr 1; omega

theorem readWord_nil (i : Nat) : readWord [] i = 0#32 := by
  simp [readWord]

/-- A word write keeps the canonical form. -/
theorem writeWord_wf {m : Memory} (h : Memory.wf m) (i : Nat) (v : Word) : Memory.wf (writeWord m i v) :=
  writeByte_wf (writeByte_wf (writeByte_wf (writeByte_wf h _ _) _ _) _ _) _ _

/-- Reading the word just written gives it back. -/
theorem readWord_writeWord_same {m : Memory} (h : Memory.wf m) (i : Nat) (v : Word) :
    readWord (writeWord m i v) i = v := by
  have h0 := writeByte_wf h (4 * i) (wordByte v 0)
  have h1 := writeByte_wf h0 (4 * i + 1) (wordByte v 1)
  have h2 := writeByte_wf h1 (4 * i + 2) (wordByte v 2)
  simp only [readWord, writeWord]
  rw [readByte_writeByte_same h2, readByte_writeByte_other _ (by omega), readByte_writeByte_same h1,
    readByte_writeByte_other _ (by omega), readByte_writeByte_other _ (by omega), readByte_writeByte_same h0,
    readByte_writeByte_other _ (by omega), readByte_writeByte_other _ (by omega),
    readByte_writeByte_other _ (by omega), readByte_writeByte_same h]
  exact wordByte_append v

/-- A word write leaves every byte outside the word alone. -/
theorem readByte_writeWord_other {m : Memory} {i a : Nat} (v : Word) (h : a / 4 ≠ i) :
    readByte (writeWord m i v) a = readByte m a := by
  simp only [writeWord]
  rw [readByte_writeByte_other _ (by omega), readByte_writeByte_other _ (by omega),
    readByte_writeByte_other _ (by omega), readByte_writeByte_other _ (by omega)]

/-- A word write leaves every other word alone. -/
theorem readWord_writeWord_other {m : Memory} {i j : Nat} (v : Word) (h : j ≠ i) :
    readWord (writeWord m i v) j = readWord m j := by
  simp only [readWord]
  rw [readByte_writeWord_other v (by omega), readByte_writeWord_other v (by omega),
    readByte_writeWord_other v (by omega), readByte_writeWord_other v (by omega)]

/-- A word depends on its four bytes only. -/
theorem readWord_congr {m n : Memory} {i : Nat} (h : ∀ a, a / 4 = i → readByte m a = readByte n a) :
    readWord m i = readWord n i := by
  simp only [readWord]
  rw [h _ (by omega), h _ (by omega), h _ (by omega), h _ (by omega)]

/-- Every address a word write lists was listed before or lies in the word. -/
theorem writeWord_mem {m : Memory} {i : Nat} {v : Word} : ∀ d ∈ writeWord m i v, d ∈ m ∨ d.1 / 4 = i := by
  intro d hd
  rcases writeByte_mem d hd with hd | ⟨rfl, -⟩
  · rcases writeByte_mem d hd with hd | ⟨rfl, -⟩
    · rcases writeByte_mem d hd with hd | ⟨rfl, -⟩
      · rcases writeByte_mem d hd with hd | ⟨rfl, -⟩
        · exact .inl hd
        · exact .inr (by simp only; omega)
      · exact .inr (by simp only; omega)
    · exact .inr (by simp only; omega)
  · exact .inr (by simp only; omega)

end Sys2Proof.Machine
end

