-- ==== Sys2Proof/Laws/State.lean ====
section
/-! SUPPORT. What each update of the state does to each field, true by unfolding, so that no later proof unfolds an
update. -/

namespace Sys2Proof.Machine

/-! ## `refuse` -/

@[simp] theorem refuse_lifecycle (e : Code) (s : State) : (refuse e s).lifecycle = s.lifecycle := rfl
@[simp] theorem refuse_err (e : Code) (s : State) : (refuse e s).err = (if s.err = .none then e else s.err) := rfl
@[simp] theorem refuse_last (e : Code) (s : State) : (refuse e s).last = e := rfl
@[simp] theorem refuse_arg0 (e : Code) (s : State) : (refuse e s).arg0 = s.arg0 := rfl
@[simp] theorem refuse_arg1 (e : Code) (s : State) : (refuse e s).arg1 = s.arg1 := rfl
@[simp] theorem refuse_result (e : Code) (s : State) : (refuse e s).result = s.result := rfl
@[simp] theorem refuse_blkCount (e : Code) (s : State) : (refuse e s).blkCount = s.blkCount := rfl
@[simp] theorem refuse_blkOff (e : Code) (s : State) : (refuse e s).blkOff = s.blkOff := rfl
@[simp] theorem refuse_blkF (e : Code) (s : State) : (refuse e s).blkF = s.blkF := rfl
@[simp] theorem refuse_nch (e : Code) (s : State) : (refuse e s).nch = s.nch := rfl
@[simp] theorem refuse_fsHost (e : Code) (s : State) : (refuse e s).fsHost = s.fsHost := rfl
@[simp] theorem refuse_rampMix (e : Code) (s : State) : (refuse e s).rampMix = s.rampMix := rfl
@[simp] theorem refuse_rampRate (e : Code) (s : State) : (refuse e s).rampRate = s.rampRate := rfl
@[simp] theorem refuse_rampDepth (e : Code) (s : State) : (refuse e s).rampDepth = s.rampDepth := rfl
@[simp] theorem refuse_togFeedback (e : Code) (s : State) : (refuse e s).togFeedback = s.togFeedback := rfl
@[simp] theorem refuse_togDelay (e : Code) (s : State) : (refuse e s).togDelay = s.togDelay := rfl
@[simp] theorem refuse_chans (e : Code) (s : State) : (refuse e s).chans = s.chans := rfl
@[simp] theorem refuse_inMem (e : Code) (s : State) : (refuse e s).inMem = s.inMem := rfl
@[simp] theorem refuse_outMem (e : Code) (s : State) : (refuse e s).outMem = s.outMem := rfl
@[simp] theorem refuse_hostQ (e : Code) (s : State) : (refuse e s).hostQ = s.hostQ := rfl
@[simp] theorem refuse_hostLog (e : Code) (s : State) : (refuse e s).hostLog = s.hostLog := rfl
@[simp] theorem refuse_turn (e : Code) (s : State) : (refuse e s).turn = s.turn := rfl
@[simp] theorem refuse_draws (e : Code) (s : State) : (refuse e s).draws = s.draws := rfl
@[simp] theorem refuse_inRace (e : Code) (s : State) : (refuse e s).inRace = s.inRace := rfl
@[simp] theorem refuse_outRace (e : Code) (s : State) : (refuse e s).outRace = s.outRace := rfl
@[simp] theorem refuse_outPending (e : Code) (s : State) : (refuse e s).outPending = s.outPending := rfl
@[simp] theorem refuse_params (e : Code) (s : State) : (refuse e s).params = s.params := rfl

/-! ## `accept` -/

@[simp] theorem accept_lifecycle (s : State) : (accept s).lifecycle = s.lifecycle := rfl
@[simp] theorem accept_err (s : State) : (accept s).err = s.err := rfl
@[simp] theorem accept_last (s : State) : (accept s).last = .none := rfl
@[simp] theorem accept_arg0 (s : State) : (accept s).arg0 = s.arg0 := rfl
@[simp] theorem accept_arg1 (s : State) : (accept s).arg1 = s.arg1 := rfl
@[simp] theorem accept_result (s : State) : (accept s).result = s.result := rfl
@[simp] theorem accept_blkCount (s : State) : (accept s).blkCount = s.blkCount := rfl
@[simp] theorem accept_blkOff (s : State) : (accept s).blkOff = s.blkOff := rfl
@[simp] theorem accept_blkF (s : State) : (accept s).blkF = s.blkF := rfl
@[simp] theorem accept_nch (s : State) : (accept s).nch = s.nch := rfl
@[simp] theorem accept_fsHost (s : State) : (accept s).fsHost = s.fsHost := rfl
@[simp] theorem accept_rampMix (s : State) : (accept s).rampMix = s.rampMix := rfl
@[simp] theorem accept_rampRate (s : State) : (accept s).rampRate = s.rampRate := rfl
@[simp] theorem accept_rampDepth (s : State) : (accept s).rampDepth = s.rampDepth := rfl
@[simp] theorem accept_togFeedback (s : State) : (accept s).togFeedback = s.togFeedback := rfl
@[simp] theorem accept_togDelay (s : State) : (accept s).togDelay = s.togDelay := rfl
@[simp] theorem accept_chans (s : State) : (accept s).chans = s.chans := rfl
@[simp] theorem accept_inMem (s : State) : (accept s).inMem = s.inMem := rfl
@[simp] theorem accept_outMem (s : State) : (accept s).outMem = s.outMem := rfl
@[simp] theorem accept_hostQ (s : State) : (accept s).hostQ = s.hostQ := rfl
@[simp] theorem accept_hostLog (s : State) : (accept s).hostLog = s.hostLog := rfl
@[simp] theorem accept_turn (s : State) : (accept s).turn = s.turn := rfl
@[simp] theorem accept_draws (s : State) : (accept s).draws = s.draws := rfl
@[simp] theorem accept_inRace (s : State) : (accept s).inRace = s.inRace := rfl
@[simp] theorem accept_outRace (s : State) : (accept s).outRace = s.outRace := rfl
@[simp] theorem accept_outPending (s : State) : (accept s).outPending = s.outPending := rfl
@[simp] theorem accept_params (s : State) : (accept s).params = s.params := rfl

/-! ## `tick` -/

@[simp] theorem tick_lifecycle (s : State) : (tick s).lifecycle = s.lifecycle := rfl
@[simp] theorem tick_err (s : State) : (tick s).err = s.err := rfl
@[simp] theorem tick_last (s : State) : (tick s).last = s.last := rfl
@[simp] theorem tick_arg0 (s : State) : (tick s).arg0 = s.arg0 := rfl
@[simp] theorem tick_arg1 (s : State) : (tick s).arg1 = s.arg1 := rfl
@[simp] theorem tick_result (s : State) : (tick s).result = s.result := rfl
@[simp] theorem tick_blkCount (s : State) : (tick s).blkCount = s.blkCount := rfl
@[simp] theorem tick_blkOff (s : State) : (tick s).blkOff = s.blkOff := rfl
@[simp] theorem tick_blkF (s : State) : (tick s).blkF = s.blkF := rfl
@[simp] theorem tick_nch (s : State) : (tick s).nch = s.nch := rfl
@[simp] theorem tick_fsHost (s : State) : (tick s).fsHost = s.fsHost := rfl
@[simp] theorem tick_rampMix (s : State) : (tick s).rampMix = s.rampMix := rfl
@[simp] theorem tick_rampRate (s : State) : (tick s).rampRate = s.rampRate := rfl
@[simp] theorem tick_rampDepth (s : State) : (tick s).rampDepth = s.rampDepth := rfl
@[simp] theorem tick_togFeedback (s : State) : (tick s).togFeedback = s.togFeedback := rfl
@[simp] theorem tick_togDelay (s : State) : (tick s).togDelay = s.togDelay := rfl
@[simp] theorem tick_chans (s : State) : (tick s).chans = s.chans := rfl
@[simp] theorem tick_inMem (s : State) : (tick s).inMem = s.inMem := rfl
@[simp] theorem tick_outMem (s : State) : (tick s).outMem = s.outMem := rfl
@[simp] theorem tick_hostQ (s : State) : (tick s).hostQ = s.hostQ := rfl
@[simp] theorem tick_hostLog (s : State) : (tick s).hostLog = s.hostLog := rfl
@[simp] theorem tick_turn (s : State) : (tick s).turn = s.turn := rfl
@[simp] theorem tick_draws (s : State) : (tick s).draws = s.draws + 1 := rfl
@[simp] theorem tick_inRace (s : State) : (tick s).inRace = s.inRace := rfl
@[simp] theorem tick_outRace (s : State) : (tick s).outRace = s.outRace := rfl
@[simp] theorem tick_outPending (s : State) : (tick s).outPending = s.outPending := rfl
@[simp] theorem tick_params (s : State) : (tick s).params = s.params := rfl

/-! ## `popHost` -/

@[simp] theorem popHost_lifecycle (s : State) (rest : List HostOp) : (popHost s rest).lifecycle = s.lifecycle := rfl
@[simp] theorem popHost_err (s : State) (rest : List HostOp) : (popHost s rest).err = s.err := rfl
@[simp] theorem popHost_last (s : State) (rest : List HostOp) : (popHost s rest).last = s.last := rfl
@[simp] theorem popHost_arg0 (s : State) (rest : List HostOp) : (popHost s rest).arg0 = s.arg0 := rfl
@[simp] theorem popHost_arg1 (s : State) (rest : List HostOp) : (popHost s rest).arg1 = s.arg1 := rfl
@[simp] theorem popHost_result (s : State) (rest : List HostOp) : (popHost s rest).result = s.result := rfl
@[simp] theorem popHost_blkCount (s : State) (rest : List HostOp) : (popHost s rest).blkCount = s.blkCount := rfl
@[simp] theorem popHost_blkOff (s : State) (rest : List HostOp) : (popHost s rest).blkOff = s.blkOff := rfl
@[simp] theorem popHost_blkF (s : State) (rest : List HostOp) : (popHost s rest).blkF = s.blkF := rfl
@[simp] theorem popHost_nch (s : State) (rest : List HostOp) : (popHost s rest).nch = s.nch := rfl
@[simp] theorem popHost_fsHost (s : State) (rest : List HostOp) : (popHost s rest).fsHost = s.fsHost := rfl
@[simp] theorem popHost_rampMix (s : State) (rest : List HostOp) : (popHost s rest).rampMix = s.rampMix := rfl
@[simp] theorem popHost_rampRate (s : State) (rest : List HostOp) : (popHost s rest).rampRate = s.rampRate := rfl
@[simp] theorem popHost_rampDepth (s : State) (rest : List HostOp) : (popHost s rest).rampDepth = s.rampDepth := rfl
@[simp] theorem popHost_togFeedback (s : State) (rest : List HostOp) : (popHost s rest).togFeedback = s.togFeedback := rfl
@[simp] theorem popHost_togDelay (s : State) (rest : List HostOp) : (popHost s rest).togDelay = s.togDelay := rfl
@[simp] theorem popHost_chans (s : State) (rest : List HostOp) : (popHost s rest).chans = s.chans := rfl
@[simp] theorem popHost_inMem (s : State) (rest : List HostOp) : (popHost s rest).inMem = s.inMem := rfl
@[simp] theorem popHost_outMem (s : State) (rest : List HostOp) : (popHost s rest).outMem = s.outMem := rfl
@[simp] theorem popHost_hostQ (s : State) (rest : List HostOp) : (popHost s rest).hostQ = rest := rfl
@[simp] theorem popHost_hostLog (s : State) (rest : List HostOp) : (popHost s rest).hostLog = s.hostLog := rfl
@[simp] theorem popHost_turn (s : State) (rest : List HostOp) : (popHost s rest).turn = s.turn := rfl
@[simp] theorem popHost_draws (s : State) (rest : List HostOp) : (popHost s rest).draws = s.draws + 1 := rfl
@[simp] theorem popHost_inRace (s : State) (rest : List HostOp) : (popHost s rest).inRace = s.inRace := rfl
@[simp] theorem popHost_outRace (s : State) (rest : List HostOp) : (popHost s rest).outRace = s.outRace := rfl
@[simp] theorem popHost_outPending (s : State) (rest : List HostOp) : (popHost s rest).outPending = s.outPending := rfl
@[simp] theorem popHost_params (s : State) (rest : List HostOp) : (popHost s rest).params = s.params := rfl

/-! ## `logRead` -/

@[simp] theorem logRead_lifecycle (s : State) (v : Word) : (logRead s v).lifecycle = s.lifecycle := rfl
@[simp] theorem logRead_err (s : State) (v : Word) : (logRead s v).err = s.err := rfl
@[simp] theorem logRead_last (s : State) (v : Word) : (logRead s v).last = s.last := rfl
@[simp] theorem logRead_arg0 (s : State) (v : Word) : (logRead s v).arg0 = s.arg0 := rfl
@[simp] theorem logRead_arg1 (s : State) (v : Word) : (logRead s v).arg1 = s.arg1 := rfl
@[simp] theorem logRead_result (s : State) (v : Word) : (logRead s v).result = s.result := rfl
@[simp] theorem logRead_blkCount (s : State) (v : Word) : (logRead s v).blkCount = s.blkCount := rfl
@[simp] theorem logRead_blkOff (s : State) (v : Word) : (logRead s v).blkOff = s.blkOff := rfl
@[simp] theorem logRead_blkF (s : State) (v : Word) : (logRead s v).blkF = s.blkF := rfl
@[simp] theorem logRead_nch (s : State) (v : Word) : (logRead s v).nch = s.nch := rfl
@[simp] theorem logRead_fsHost (s : State) (v : Word) : (logRead s v).fsHost = s.fsHost := rfl
@[simp] theorem logRead_rampMix (s : State) (v : Word) : (logRead s v).rampMix = s.rampMix := rfl
@[simp] theorem logRead_rampRate (s : State) (v : Word) : (logRead s v).rampRate = s.rampRate := rfl
@[simp] theorem logRead_rampDepth (s : State) (v : Word) : (logRead s v).rampDepth = s.rampDepth := rfl
@[simp] theorem logRead_togFeedback (s : State) (v : Word) : (logRead s v).togFeedback = s.togFeedback := rfl
@[simp] theorem logRead_togDelay (s : State) (v : Word) : (logRead s v).togDelay = s.togDelay := rfl
@[simp] theorem logRead_chans (s : State) (v : Word) : (logRead s v).chans = s.chans := rfl
@[simp] theorem logRead_inMem (s : State) (v : Word) : (logRead s v).inMem = s.inMem := rfl
@[simp] theorem logRead_outMem (s : State) (v : Word) : (logRead s v).outMem = s.outMem := rfl
@[simp] theorem logRead_hostQ (s : State) (v : Word) : (logRead s v).hostQ = s.hostQ := rfl
@[simp] theorem logRead_hostLog (s : State) (v : Word) : (logRead s v).hostLog = s.hostLog ++ [v] := rfl
@[simp] theorem logRead_turn (s : State) (v : Word) : (logRead s v).turn = s.turn := rfl
@[simp] theorem logRead_draws (s : State) (v : Word) : (logRead s v).draws = s.draws := rfl
@[simp] theorem logRead_inRace (s : State) (v : Word) : (logRead s v).inRace = s.inRace := rfl
@[simp] theorem logRead_outRace (s : State) (v : Word) : (logRead s v).outRace = s.outRace := rfl
@[simp] theorem logRead_outPending (s : State) (v : Word) : (logRead s v).outPending = s.outPending := rfl
@[simp] theorem logRead_params (s : State) (v : Word) : (logRead s v).params = s.params := rfl

/-! ## `hostWriteIn` -/

@[simp] theorem hostWriteIn_lifecycle (s : State) (c i : Nat) (v : F) : (hostWriteIn s c i v).lifecycle = s.lifecycle := rfl
@[simp] theorem hostWriteIn_err (s : State) (c i : Nat) (v : F) : (hostWriteIn s c i v).err = s.err := rfl
@[simp] theorem hostWriteIn_last (s : State) (c i : Nat) (v : F) : (hostWriteIn s c i v).last = s.last := rfl
@[simp] theorem hostWriteIn_arg0 (s : State) (c i : Nat) (v : F) : (hostWriteIn s c i v).arg0 = s.arg0 := rfl
@[simp] theorem hostWriteIn_arg1 (s : State) (c i : Nat) (v : F) : (hostWriteIn s c i v).arg1 = s.arg1 := rfl
@[simp] theorem hostWriteIn_result (s : State) (c i : Nat) (v : F) : (hostWriteIn s c i v).result = s.result := rfl
@[simp] theorem hostWriteIn_blkCount (s : State) (c i : Nat) (v : F) : (hostWriteIn s c i v).blkCount = s.blkCount := rfl
@[simp] theorem hostWriteIn_blkOff (s : State) (c i : Nat) (v : F) : (hostWriteIn s c i v).blkOff = s.blkOff := rfl
@[simp] theorem hostWriteIn_blkF (s : State) (c i : Nat) (v : F) : (hostWriteIn s c i v).blkF = s.blkF := rfl
@[simp] theorem hostWriteIn_nch (s : State) (c i : Nat) (v : F) : (hostWriteIn s c i v).nch = s.nch := rfl
@[simp] theorem hostWriteIn_fsHost (s : State) (c i : Nat) (v : F) : (hostWriteIn s c i v).fsHost = s.fsHost := rfl
@[simp] theorem hostWriteIn_rampMix (s : State) (c i : Nat) (v : F) : (hostWriteIn s c i v).rampMix = s.rampMix := rfl
@[simp] theorem hostWriteIn_rampRate (s : State) (c i : Nat) (v : F) : (hostWriteIn s c i v).rampRate = s.rampRate := rfl
@[simp] theorem hostWriteIn_rampDepth (s : State) (c i : Nat) (v : F) : (hostWriteIn s c i v).rampDepth = s.rampDepth := rfl
@[simp] theorem hostWriteIn_togFeedback (s : State) (c i : Nat) (v : F) : (hostWriteIn s c i v).togFeedback = s.togFeedback := rfl
@[simp] theorem hostWriteIn_togDelay (s : State) (c i : Nat) (v : F) : (hostWriteIn s c i v).togDelay = s.togDelay := rfl
@[simp] theorem hostWriteIn_chans (s : State) (c i : Nat) (v : F) : (hostWriteIn s c i v).chans = s.chans := rfl
@[simp] theorem hostWriteIn_inMem (s : State) (c i : Nat) (v : F) : (hostWriteIn s c i v).inMem = writeWord s.inMem (hostIndex c i) v := rfl
@[simp] theorem hostWriteIn_outMem (s : State) (c i : Nat) (v : F) : (hostWriteIn s c i v).outMem = s.outMem := rfl
@[simp] theorem hostWriteIn_hostQ (s : State) (c i : Nat) (v : F) : (hostWriteIn s c i v).hostQ = s.hostQ := rfl
@[simp] theorem hostWriteIn_hostLog (s : State) (c i : Nat) (v : F) : (hostWriteIn s c i v).hostLog = s.hostLog := rfl
@[simp] theorem hostWriteIn_turn (s : State) (c i : Nat) (v : F) : (hostWriteIn s c i v).turn = s.turn := rfl
@[simp] theorem hostWriteIn_draws (s : State) (c i : Nat) (v : F) : (hostWriteIn s c i v).draws = s.draws := rfl
@[simp] theorem hostWriteIn_inRace (s : State) (c i : Nat) (v : F) : (hostWriteIn s c i v).inRace = (if inRunningBlock s i then (hostIndex c i, readWord s.inMem (hostIndex c i)) :: s.inRace else s.inRace) := rfl
@[simp] theorem hostWriteIn_outRace (s : State) (c i : Nat) (v : F) : (hostWriteIn s c i v).outRace = s.outRace := rfl
@[simp] theorem hostWriteIn_outPending (s : State) (c i : Nat) (v : F) : (hostWriteIn s c i v).outPending = s.outPending := rfl
@[simp] theorem hostWriteIn_params (s : State) (c i : Nat) (v : F) : (hostWriteIn s c i v).params = s.params := rfl

/-! ## `hostReadOut` -/

@[simp] theorem hostReadOut_lifecycle (s : State) (c i draw : Nat) : (hostReadOut s c i draw).lifecycle = s.lifecycle := rfl
@[simp] theorem hostReadOut_err (s : State) (c i draw : Nat) : (hostReadOut s c i draw).err = s.err := rfl
@[simp] theorem hostReadOut_last (s : State) (c i draw : Nat) : (hostReadOut s c i draw).last = s.last := rfl
@[simp] theorem hostReadOut_arg0 (s : State) (c i draw : Nat) : (hostReadOut s c i draw).arg0 = s.arg0 := rfl
@[simp] theorem hostReadOut_arg1 (s : State) (c i draw : Nat) : (hostReadOut s c i draw).arg1 = s.arg1 := rfl
@[simp] theorem hostReadOut_result (s : State) (c i draw : Nat) : (hostReadOut s c i draw).result = s.result := rfl
@[simp] theorem hostReadOut_blkCount (s : State) (c i draw : Nat) : (hostReadOut s c i draw).blkCount = s.blkCount := rfl
@[simp] theorem hostReadOut_blkOff (s : State) (c i draw : Nat) : (hostReadOut s c i draw).blkOff = s.blkOff := rfl
@[simp] theorem hostReadOut_blkF (s : State) (c i draw : Nat) : (hostReadOut s c i draw).blkF = s.blkF := rfl
@[simp] theorem hostReadOut_nch (s : State) (c i draw : Nat) : (hostReadOut s c i draw).nch = s.nch := rfl
@[simp] theorem hostReadOut_fsHost (s : State) (c i draw : Nat) : (hostReadOut s c i draw).fsHost = s.fsHost := rfl
@[simp] theorem hostReadOut_rampMix (s : State) (c i draw : Nat) : (hostReadOut s c i draw).rampMix = s.rampMix := rfl
@[simp] theorem hostReadOut_rampRate (s : State) (c i draw : Nat) : (hostReadOut s c i draw).rampRate = s.rampRate := rfl
@[simp] theorem hostReadOut_rampDepth (s : State) (c i draw : Nat) : (hostReadOut s c i draw).rampDepth = s.rampDepth := rfl
@[simp] theorem hostReadOut_togFeedback (s : State) (c i draw : Nat) : (hostReadOut s c i draw).togFeedback = s.togFeedback := rfl
@[simp] theorem hostReadOut_togDelay (s : State) (c i draw : Nat) : (hostReadOut s c i draw).togDelay = s.togDelay := rfl
@[simp] theorem hostReadOut_chans (s : State) (c i draw : Nat) : (hostReadOut s c i draw).chans = s.chans := rfl
@[simp] theorem hostReadOut_inMem (s : State) (c i draw : Nat) : (hostReadOut s c i draw).inMem = s.inMem := rfl
@[simp] theorem hostReadOut_outMem (s : State) (c i draw : Nat) : (hostReadOut s c i draw).outMem = s.outMem := rfl
@[simp] theorem hostReadOut_hostQ (s : State) (c i draw : Nat) : (hostReadOut s c i draw).hostQ = s.hostQ := rfl
@[simp] theorem hostReadOut_hostLog (s : State) (c i draw : Nat) : (hostReadOut s c i draw).hostLog = s.hostLog ++ [raced (readWord s.outMem (hostIndex c i)) (olderAt s.outRace (hostIndex c i)) draw] := rfl
@[simp] theorem hostReadOut_turn (s : State) (c i draw : Nat) : (hostReadOut s c i draw).turn = s.turn := rfl
@[simp] theorem hostReadOut_draws (s : State) (c i draw : Nat) : (hostReadOut s c i draw).draws = s.draws := rfl
@[simp] theorem hostReadOut_inRace (s : State) (c i draw : Nat) : (hostReadOut s c i draw).inRace = s.inRace := rfl
@[simp] theorem hostReadOut_outRace (s : State) (c i draw : Nat) : (hostReadOut s c i draw).outRace = s.outRace := rfl
@[simp] theorem hostReadOut_outPending (s : State) (c i draw : Nat) : (hostReadOut s c i draw).outPending = (if awaitsFrame s i && draw % 2 == 1 then s.outPending ++ [(s.hostLog.length, hostIndex c i)] else s.outPending) := rfl
@[simp] theorem hostReadOut_params (s : State) (c i draw : Nat) : (hostReadOut s c i draw).params = s.params := rfl

/-! ## `dezipperAll` -/

@[simp] theorem dezipperAll_lifecycle (s : State) : (dezipperAll s).lifecycle = s.lifecycle := rfl
@[simp] theorem dezipperAll_err (s : State) : (dezipperAll s).err = s.err := rfl
@[simp] theorem dezipperAll_last (s : State) : (dezipperAll s).last = s.last := rfl
@[simp] theorem dezipperAll_arg0 (s : State) : (dezipperAll s).arg0 = s.arg0 := rfl
@[simp] theorem dezipperAll_arg1 (s : State) : (dezipperAll s).arg1 = s.arg1 := rfl
@[simp] theorem dezipperAll_result (s : State) : (dezipperAll s).result = s.result := rfl
@[simp] theorem dezipperAll_blkCount (s : State) : (dezipperAll s).blkCount = s.blkCount := rfl
@[simp] theorem dezipperAll_blkOff (s : State) : (dezipperAll s).blkOff = s.blkOff := rfl
@[simp] theorem dezipperAll_blkF (s : State) : (dezipperAll s).blkF = s.blkF := rfl
@[simp] theorem dezipperAll_nch (s : State) : (dezipperAll s).nch = s.nch := rfl
@[simp] theorem dezipperAll_fsHost (s : State) : (dezipperAll s).fsHost = s.fsHost := rfl
@[simp] theorem dezipperAll_rampMix (s : State) : (dezipperAll s).rampMix = dezipperCheck (Config.nanDraw s.draws 0) s.rampMix (dezipMix s.fsHost) := rfl
@[simp] theorem dezipperAll_rampRate (s : State) : (dezipperAll s).rampRate = dezipperCheck (Config.nanDraw s.draws 1) s.rampRate (dezipRate s.fsHost) := rfl
@[simp] theorem dezipperAll_rampDepth (s : State) : (dezipperAll s).rampDepth = dezipperCheck (Config.nanDraw s.draws 2) s.rampDepth (dezipDepth s.fsHost) := rfl
@[simp] theorem dezipperAll_togFeedback (s : State) : (dezipperAll s).togFeedback = s.togFeedback := rfl
@[simp] theorem dezipperAll_togDelay (s : State) : (dezipperAll s).togDelay = s.togDelay := rfl
@[simp] theorem dezipperAll_chans (s : State) : (dezipperAll s).chans = s.chans := rfl
@[simp] theorem dezipperAll_inMem (s : State) : (dezipperAll s).inMem = s.inMem := rfl
@[simp] theorem dezipperAll_outMem (s : State) : (dezipperAll s).outMem = s.outMem := rfl
@[simp] theorem dezipperAll_hostQ (s : State) : (dezipperAll s).hostQ = s.hostQ := rfl
@[simp] theorem dezipperAll_hostLog (s : State) : (dezipperAll s).hostLog = s.hostLog := rfl
@[simp] theorem dezipperAll_turn (s : State) : (dezipperAll s).turn = s.turn := rfl
@[simp] theorem dezipperAll_draws (s : State) : (dezipperAll s).draws = s.draws := rfl
@[simp] theorem dezipperAll_inRace (s : State) : (dezipperAll s).inRace = s.inRace := rfl
@[simp] theorem dezipperAll_outRace (s : State) : (dezipperAll s).outRace = s.outRace := rfl
@[simp] theorem dezipperAll_outPending (s : State) : (dezipperAll s).outPending = s.outPending := rfl
@[simp] theorem dezipperAll_params (s : State) : (dezipperAll s).params = s.params := rfl

/-! ## `startBlock` -/

@[simp] theorem startBlock_lifecycle (s : State) (n off : Word) : (startBlock s n off).lifecycle = (if n = 0#32 then .ready else .busy) := rfl
@[simp] theorem startBlock_err (s : State) (n off : Word) : (startBlock s n off).err = s.err := rfl
@[simp] theorem startBlock_last (s : State) (n off : Word) : (startBlock s n off).last = s.last := rfl
@[simp] theorem startBlock_arg0 (s : State) (n off : Word) : (startBlock s n off).arg0 = s.arg0 := rfl
@[simp] theorem startBlock_arg1 (s : State) (n off : Word) : (startBlock s n off).arg1 = s.arg1 := rfl
@[simp] theorem startBlock_result (s : State) (n off : Word) : (startBlock s n off).result = s.result := rfl
@[simp] theorem startBlock_blkCount (s : State) (n off : Word) : (startBlock s n off).blkCount = n := rfl
@[simp] theorem startBlock_blkOff (s : State) (n off : Word) : (startBlock s n off).blkOff = off := rfl
@[simp] theorem startBlock_blkF (s : State) (n off : Word) : (startBlock s n off).blkF = 0#32 := rfl
@[simp] theorem startBlock_nch (s : State) (n off : Word) : (startBlock s n off).nch = s.nch := rfl
@[simp] theorem startBlock_fsHost (s : State) (n off : Word) : (startBlock s n off).fsHost = s.fsHost := rfl
@[simp] theorem startBlock_rampMix (s : State) (n off : Word) : (startBlock s n off).rampMix = s.rampMix := rfl
@[simp] theorem startBlock_rampRate (s : State) (n off : Word) : (startBlock s n off).rampRate = s.rampRate := rfl
@[simp] theorem startBlock_rampDepth (s : State) (n off : Word) : (startBlock s n off).rampDepth = s.rampDepth := rfl
@[simp] theorem startBlock_togFeedback (s : State) (n off : Word) : (startBlock s n off).togFeedback = s.togFeedback := rfl
@[simp] theorem startBlock_togDelay (s : State) (n off : Word) : (startBlock s n off).togDelay = s.togDelay := rfl
@[simp] theorem startBlock_chans (s : State) (n off : Word) : (startBlock s n off).chans = s.chans := rfl
@[simp] theorem startBlock_inMem (s : State) (n off : Word) : (startBlock s n off).inMem = s.inMem := rfl
@[simp] theorem startBlock_outMem (s : State) (n off : Word) : (startBlock s n off).outMem = s.outMem := rfl
@[simp] theorem startBlock_hostQ (s : State) (n off : Word) : (startBlock s n off).hostQ = s.hostQ := rfl
@[simp] theorem startBlock_hostLog (s : State) (n off : Word) : (startBlock s n off).hostLog = s.hostLog := rfl
@[simp] theorem startBlock_turn (s : State) (n off : Word) : (startBlock s n off).turn = s.turn := rfl
@[simp] theorem startBlock_draws (s : State) (n off : Word) : (startBlock s n off).draws = s.draws := rfl
@[simp] theorem startBlock_inRace (s : State) (n off : Word) : (startBlock s n off).inRace = s.inRace := rfl
@[simp] theorem startBlock_outRace (s : State) (n off : Word) : (startBlock s n off).outRace = s.outRace := rfl
@[simp] theorem startBlock_outPending (s : State) (n off : Word) : (startBlock s n off).outPending = s.outPending := rfl
@[simp] theorem startBlock_params (s : State) (n off : Word) : (startBlock s n off).params = s.params := rfl

/-! ## `initialise` -/

@[simp] theorem initialise_lifecycle (s : State) (nch fs : Nat) : (initialise s nch fs).lifecycle = .ready := rfl
@[simp] theorem initialise_err (s : State) (nch fs : Nat) : (initialise s nch fs).err = .none := rfl
@[simp] theorem initialise_last (s : State) (nch fs : Nat) : (initialise s nch fs).last = .none := rfl
@[simp] theorem initialise_arg0 (s : State) (nch fs : Nat) : (initialise s nch fs).arg0 = s.arg0 := rfl
@[simp] theorem initialise_arg1 (s : State) (nch fs : Nat) : (initialise s nch fs).arg1 = s.arg1 := rfl
@[simp] theorem initialise_result (s : State) (nch fs : Nat) : (initialise s nch fs).result = s.result := rfl
@[simp] theorem initialise_blkCount (s : State) (nch fs : Nat) : (initialise s nch fs).blkCount = 0#32 := rfl
@[simp] theorem initialise_blkOff (s : State) (nch fs : Nat) : (initialise s nch fs).blkOff = 0#32 := rfl
@[simp] theorem initialise_blkF (s : State) (nch fs : Nat) : (initialise s nch fs).blkF = 0#32 := rfl
@[simp] theorem initialise_nch (s : State) (nch fs : Nat) : (initialise s nch fs).nch = nch := rfl
@[simp] theorem initialise_fsHost (s : State) (nch fs : Nat) : (initialise s nch fs).fsHost = fs := rfl
@[simp] theorem initialise_rampMix (s : State) (nch fs : Nat) : (initialise s nch fs).rampMix = idleRamper (paramInit 0) := rfl
@[simp] theorem initialise_rampRate (s : State) (nch fs : Nat) : (initialise s nch fs).rampRate = idleRamper (paramInit 1) := rfl
@[simp] theorem initialise_rampDepth (s : State) (nch fs : Nat) : (initialise s nch fs).rampDepth = idleRamper (paramInit 2) := rfl
@[simp] theorem initialise_togFeedback (s : State) (nch fs : Nat) : (initialise s nch fs).togFeedback = paramInit 3 := rfl
@[simp] theorem initialise_togDelay (s : State) (nch fs : Nat) : (initialise s nch fs).togDelay = paramInit 4 := rfl
@[simp] theorem initialise_chans (s : State) (nch fs : Nat) : (initialise s nch fs).chans = List.replicate nch freshChannel := rfl
@[simp] theorem initialise_inMem (s : State) (nch fs : Nat) : (initialise s nch fs).inMem = s.inMem := rfl
@[simp] theorem initialise_outMem (s : State) (nch fs : Nat) : (initialise s nch fs).outMem = s.outMem := rfl
@[simp] theorem initialise_hostQ (s : State) (nch fs : Nat) : (initialise s nch fs).hostQ = s.hostQ := rfl
@[simp] theorem initialise_hostLog (s : State) (nch fs : Nat) : (initialise s nch fs).hostLog = s.hostLog := rfl
@[simp] theorem initialise_turn (s : State) (nch fs : Nat) : (initialise s nch fs).turn = s.turn := rfl
@[simp] theorem initialise_draws (s : State) (nch fs : Nat) : (initialise s nch fs).draws = s.draws := rfl
@[simp] theorem initialise_inRace (s : State) (nch fs : Nat) : (initialise s nch fs).inRace = s.inRace := rfl
@[simp] theorem initialise_outRace (s : State) (nch fs : Nat) : (initialise s nch fs).outRace = s.outRace := rfl
@[simp] theorem initialise_outPending (s : State) (nch fs : Nat) : (initialise s nch fs).outPending = s.outPending := rfl
@[simp] theorem initialise_params (s : State) (nch fs : Nat) : (initialise s nch fs).params = s.params := rfl

/-! ## `finishFrame` -/

@[simp] theorem finishFrame_lifecycle (s : State) (rs : List (Channel × F)) : (finishFrame s rs).lifecycle = (if lastFrame s then .ready else .busy) := rfl
@[simp] theorem finishFrame_err (s : State) (rs : List (Channel × F)) : (finishFrame s rs).err = s.err := rfl
@[simp] theorem finishFrame_last (s : State) (rs : List (Channel × F)) : (finishFrame s rs).last = s.last := rfl
@[simp] theorem finishFrame_arg0 (s : State) (rs : List (Channel × F)) : (finishFrame s rs).arg0 = s.arg0 := rfl
@[simp] theorem finishFrame_arg1 (s : State) (rs : List (Channel × F)) : (finishFrame s rs).arg1 = s.arg1 := rfl
@[simp] theorem finishFrame_result (s : State) (rs : List (Channel × F)) : (finishFrame s rs).result = s.result := rfl
@[simp] theorem finishFrame_blkCount (s : State) (rs : List (Channel × F)) : (finishFrame s rs).blkCount = s.blkCount := rfl
@[simp] theorem finishFrame_blkOff (s : State) (rs : List (Channel × F)) : (finishFrame s rs).blkOff = s.blkOff := rfl
@[simp] theorem finishFrame_blkF (s : State) (rs : List (Channel × F)) : (finishFrame s rs).blkF = s.blkF + 1#32 := rfl
@[simp] theorem finishFrame_nch (s : State) (rs : List (Channel × F)) : (finishFrame s rs).nch = s.nch := rfl
@[simp] theorem finishFrame_fsHost (s : State) (rs : List (Channel × F)) : (finishFrame s rs).fsHost = s.fsHost := rfl
@[simp] theorem finishFrame_rampMix (s : State) (rs : List (Channel × F)) : (finishFrame s rs).rampMix = stepRamper s.rampMix := rfl
@[simp] theorem finishFrame_rampRate (s : State) (rs : List (Channel × F)) : (finishFrame s rs).rampRate = stepRamper s.rampRate := rfl
@[simp] theorem finishFrame_rampDepth (s : State) (rs : List (Channel × F)) : (finishFrame s rs).rampDepth = stepRamper s.rampDepth := rfl
@[simp] theorem finishFrame_togFeedback (s : State) (rs : List (Channel × F)) : (finishFrame s rs).togFeedback = s.togFeedback := rfl
@[simp] theorem finishFrame_togDelay (s : State) (rs : List (Channel × F)) : (finishFrame s rs).togDelay = s.togDelay := rfl
@[simp] theorem finishFrame_chans (s : State) (rs : List (Channel × F)) : (finishFrame s rs).chans = rs.map Prod.fst := rfl
@[simp] theorem finishFrame_inMem (s : State) (rs : List (Channel × F)) : (finishFrame s rs).inMem = s.inMem := rfl
@[simp] theorem finishFrame_outMem (s : State) (rs : List (Channel × F)) : (finishFrame s rs).outMem = outAfter s rs := rfl
@[simp] theorem finishFrame_hostQ (s : State) (rs : List (Channel × F)) : (finishFrame s rs).hostQ = s.hostQ := rfl
@[simp] theorem finishFrame_hostLog (s : State) (rs : List (Channel × F)) : (finishFrame s rs).hostLog = resolveReads (outAfter s rs) (nextWords s) s.outPending s.hostLog := rfl
@[simp] theorem finishFrame_turn (s : State) (rs : List (Channel × F)) : (finishFrame s rs).turn = s.turn := rfl
@[simp] theorem finishFrame_draws (s : State) (rs : List (Channel × F)) : (finishFrame s rs).draws = s.draws := rfl
@[simp] theorem finishFrame_inRace (s : State) (rs : List (Channel × F)) : (finishFrame s rs).inRace = (if lastFrame s then [] else s.inRace) := rfl
@[simp] theorem finishFrame_outRace (s : State) (rs : List (Channel × F)) : (finishFrame s rs).outRace = (if lastFrame s then [] else s.outRace ++ contentsOf s.outMem (nextWords s)) := rfl
@[simp] theorem finishFrame_outPending (s : State) (rs : List (Channel × F)) : (finishFrame s rs).outPending = (if lastFrame s then [] else s.outPending.filter fun e => !(nextWords s).contains e.2) := rfl
@[simp] theorem finishFrame_params (s : State) (rs : List (Channel × F)) : (finishFrame s rs).params = s.params := rfl

/-! ## `drawTurn` -/

@[simp] theorem drawTurn_lifecycle (s : State) : (drawTurn s).lifecycle = s.lifecycle := by unfold drawTurn; split <;> rfl
@[simp] theorem drawTurn_err (s : State) : (drawTurn s).err = s.err := by unfold drawTurn; split <;> rfl
@[simp] theorem drawTurn_last (s : State) : (drawTurn s).last = s.last := by unfold drawTurn; split <;> rfl
@[simp] theorem drawTurn_arg0 (s : State) : (drawTurn s).arg0 = s.arg0 := by unfold drawTurn; split <;> rfl
@[simp] theorem drawTurn_arg1 (s : State) : (drawTurn s).arg1 = s.arg1 := by unfold drawTurn; split <;> rfl
@[simp] theorem drawTurn_result (s : State) : (drawTurn s).result = s.result := by unfold drawTurn; split <;> rfl
@[simp] theorem drawTurn_blkCount (s : State) : (drawTurn s).blkCount = s.blkCount := by unfold drawTurn; split <;> rfl
@[simp] theorem drawTurn_blkOff (s : State) : (drawTurn s).blkOff = s.blkOff := by unfold drawTurn; split <;> rfl
@[simp] theorem drawTurn_blkF (s : State) : (drawTurn s).blkF = s.blkF := by unfold drawTurn; split <;> rfl
@[simp] theorem drawTurn_nch (s : State) : (drawTurn s).nch = s.nch := by unfold drawTurn; split <;> rfl
@[simp] theorem drawTurn_fsHost (s : State) : (drawTurn s).fsHost = s.fsHost := by unfold drawTurn; split <;> rfl
@[simp] theorem drawTurn_rampMix (s : State) : (drawTurn s).rampMix = s.rampMix := by unfold drawTurn; split <;> rfl
@[simp] theorem drawTurn_rampRate (s : State) : (drawTurn s).rampRate = s.rampRate := by unfold drawTurn; split <;> rfl
@[simp] theorem drawTurn_rampDepth (s : State) : (drawTurn s).rampDepth = s.rampDepth := by unfold drawTurn; split <;> rfl
@[simp] theorem drawTurn_togFeedback (s : State) : (drawTurn s).togFeedback = s.togFeedback := by unfold drawTurn; split <;> rfl
@[simp] theorem drawTurn_togDelay (s : State) : (drawTurn s).togDelay = s.togDelay := by unfold drawTurn; split <;> rfl
@[simp] theorem drawTurn_chans (s : State) : (drawTurn s).chans = s.chans := by unfold drawTurn; split <;> rfl
@[simp] theorem drawTurn_inMem (s : State) : (drawTurn s).inMem = s.inMem := by unfold drawTurn; split <;> rfl
@[simp] theorem drawTurn_outMem (s : State) : (drawTurn s).outMem = s.outMem := by unfold drawTurn; split <;> rfl
@[simp] theorem drawTurn_hostQ (s : State) : (drawTurn s).hostQ = s.hostQ := by unfold drawTurn; split <;> rfl
@[simp] theorem drawTurn_hostLog (s : State) : (drawTurn s).hostLog = s.hostLog := by unfold drawTurn; split <;> rfl
@[simp] theorem drawTurn_draws (s : State) : (drawTurn s).draws = s.draws := by unfold drawTurn; split <;> rfl
@[simp] theorem drawTurn_inRace (s : State) : (drawTurn s).inRace = s.inRace := by unfold drawTurn; split <;> rfl
@[simp] theorem drawTurn_outRace (s : State) : (drawTurn s).outRace = s.outRace := by unfold drawTurn; split <;> rfl
@[simp] theorem drawTurn_outPending (s : State) : (drawTurn s).outPending = s.outPending := by unfold drawTurn; split <;> rfl
@[simp] theorem drawTurn_params (s : State) : (drawTurn s).params = s.params := by unfold drawTurn; split <;> rfl

/-! ## `setRamp` and `setTog` -/

@[simp] theorem setRamp_lifecycle (s : State) (r : RampId) (v : Ramper) : (s.setRamp r v).lifecycle = s.lifecycle := by cases r <;> rfl
@[simp] theorem setTog_lifecycle (s : State) (t : TogId) (v : F) : (s.setTog t v).lifecycle = s.lifecycle := by cases t <;> rfl
@[simp] theorem setRamp_err (s : State) (r : RampId) (v : Ramper) : (s.setRamp r v).err = s.err := by cases r <;> rfl
@[simp] theorem setTog_err (s : State) (t : TogId) (v : F) : (s.setTog t v).err = s.err := by cases t <;> rfl
@[simp] theorem setRamp_last (s : State) (r : RampId) (v : Ramper) : (s.setRamp r v).last = s.last := by cases r <;> rfl
@[simp] theorem setTog_last (s : State) (t : TogId) (v : F) : (s.setTog t v).last = s.last := by cases t <;> rfl
@[simp] theorem setRamp_arg0 (s : State) (r : RampId) (v : Ramper) : (s.setRamp r v).arg0 = s.arg0 := by cases r <;> rfl
@[simp] theorem setTog_arg0 (s : State) (t : TogId) (v : F) : (s.setTog t v).arg0 = s.arg0 := by cases t <;> rfl
@[simp] theorem setRamp_arg1 (s : State) (r : RampId) (v : Ramper) : (s.setRamp r v).arg1 = s.arg1 := by cases r <;> rfl
@[simp] theorem setTog_arg1 (s : State) (t : TogId) (v : F) : (s.setTog t v).arg1 = s.arg1 := by cases t <;> rfl
@[simp] theorem setRamp_result (s : State) (r : RampId) (v : Ramper) : (s.setRamp r v).result = s.result := by cases r <;> rfl
@[simp] theorem setTog_result (s : State) (t : TogId) (v : F) : (s.setTog t v).result = s.result := by cases t <;> rfl
@[simp] theorem setRamp_blkCount (s : State) (r : RampId) (v : Ramper) : (s.setRamp r v).blkCount = s.blkCount := by cases r <;> rfl
@[simp] theorem setTog_blkCount (s : State) (t : TogId) (v : F) : (s.setTog t v).blkCount = s.blkCount := by cases t <;> rfl
@[simp] theorem setRamp_blkOff (s : State) (r : RampId) (v : Ramper) : (s.setRamp r v).blkOff = s.blkOff := by cases r <;> rfl
@[simp] theorem setTog_blkOff (s : State) (t : TogId) (v : F) : (s.setTog t v).blkOff = s.blkOff := by cases t <;> rfl
@[simp] theorem setRamp_blkF (s : State) (r : RampId) (v : Ramper) : (s.setRamp r v).blkF = s.blkF := by cases r <;> rfl
@[simp] theorem setTog_blkF (s : State) (t : TogId) (v : F) : (s.setTog t v).blkF = s.blkF := by cases t <;> rfl
@[simp] theorem setRamp_nch (s : State) (r : RampId) (v : Ramper) : (s.setRamp r v).nch = s.nch := by cases r <;> rfl
@[simp] theorem setTog_nch (s : State) (t : TogId) (v : F) : (s.setTog t v).nch = s.nch := by cases t <;> rfl
@[simp] theorem setRamp_fsHost (s : State) (r : RampId) (v : Ramper) : (s.setRamp r v).fsHost = s.fsHost := by cases r <;> rfl
@[simp] theorem setTog_fsHost (s : State) (t : TogId) (v : F) : (s.setTog t v).fsHost = s.fsHost := by cases t <;> rfl
@[simp] theorem setTog_rampMix (s : State) (t : TogId) (v : F) : (s.setTog t v).rampMix = s.rampMix := by cases t <;> rfl
@[simp] theorem setTog_rampRate (s : State) (t : TogId) (v : F) : (s.setTog t v).rampRate = s.rampRate := by cases t <;> rfl
@[simp] theorem setTog_rampDepth (s : State) (t : TogId) (v : F) : (s.setTog t v).rampDepth = s.rampDepth := by cases t <;> rfl
@[simp] theorem setRamp_togFeedback (s : State) (r : RampId) (v : Ramper) : (s.setRamp r v).togFeedback = s.togFeedback := by cases r <;> rfl
@[simp] theorem setRamp_togDelay (s : State) (r : RampId) (v : Ramper) : (s.setRamp r v).togDelay = s.togDelay := by cases r <;> rfl
@[simp] theorem setRamp_chans (s : State) (r : RampId) (v : Ramper) : (s.setRamp r v).chans = s.chans := by cases r <;> rfl
@[simp] theorem setTog_chans (s : State) (t : TogId) (v : F) : (s.setTog t v).chans = s.chans := by cases t <;> rfl
@[simp] theorem setRamp_inMem (s : State) (r : RampId) (v : Ramper) : (s.setRamp r v).inMem = s.inMem := by cases r <;> rfl
@[simp] theorem setTog_inMem (s : State) (t : TogId) (v : F) : (s.setTog t v).inMem = s.inMem := by cases t <;> rfl
@[simp] theorem setRamp_outMem (s : State) (r : RampId) (v : Ramper) : (s.setRamp r v).outMem = s.outMem := by cases r <;> rfl
@[simp] theorem setTog_outMem (s : State) (t : TogId) (v : F) : (s.setTog t v).outMem = s.outMem := by cases t <;> rfl
@[simp] theorem setRamp_hostQ (s : State) (r : RampId) (v : Ramper) : (s.setRamp r v).hostQ = s.hostQ := by cases r <;> rfl
@[simp] theorem setTog_hostQ (s : State) (t : TogId) (v : F) : (s.setTog t v).hostQ = s.hostQ := by cases t <;> rfl
@[simp] theorem setRamp_hostLog (s : State) (r : RampId) (v : Ramper) : (s.setRamp r v).hostLog = s.hostLog := by cases r <;> rfl
@[simp] theorem setTog_hostLog (s : State) (t : TogId) (v : F) : (s.setTog t v).hostLog = s.hostLog := by cases t <;> rfl
@[simp] theorem setRamp_turn (s : State) (r : RampId) (v : Ramper) : (s.setRamp r v).turn = s.turn := by cases r <;> rfl
@[simp] theorem setTog_turn (s : State) (t : TogId) (v : F) : (s.setTog t v).turn = s.turn := by cases t <;> rfl
@[simp] theorem setRamp_draws (s : State) (r : RampId) (v : Ramper) : (s.setRamp r v).draws = s.draws := by cases r <;> rfl
@[simp] theorem setTog_draws (s : State) (t : TogId) (v : F) : (s.setTog t v).draws = s.draws := by cases t <;> rfl
@[simp] theorem setRamp_inRace (s : State) (r : RampId) (v : Ramper) : (s.setRamp r v).inRace = s.inRace := by cases r <;> rfl
@[simp] theorem setTog_inRace (s : State) (t : TogId) (v : F) : (s.setTog t v).inRace = s.inRace := by cases t <;> rfl
@[simp] theorem setRamp_outRace (s : State) (r : RampId) (v : Ramper) : (s.setRamp r v).outRace = s.outRace := by cases r <;> rfl
@[simp] theorem setTog_outRace (s : State) (t : TogId) (v : F) : (s.setTog t v).outRace = s.outRace := by cases t <;> rfl
@[simp] theorem setRamp_outPending (s : State) (r : RampId) (v : Ramper) : (s.setRamp r v).outPending = s.outPending := by cases r <;> rfl
@[simp] theorem setTog_outPending (s : State) (t : TogId) (v : F) : (s.setTog t v).outPending = s.outPending := by cases t <;> rfl
@[simp] theorem setRamp_params (s : State) (r : RampId) (v : Ramper) : (s.setRamp r v).params = s.params := by cases r <;> rfl
@[simp] theorem setTog_params (s : State) (t : TogId) (v : F) : (s.setTog t v).params = s.params := by cases t <;> rfl
@[simp] theorem getRamp_setRamp_same (s : State) (r : RampId) (v : Ramper) : (s.setRamp r v).getRamp r = v := by
  cases r <;> rfl
theorem getRamp_setRamp_other (s : State) {r q : RampId} (v : Ramper) (h : q ≠ r) :
    (s.setRamp r v).getRamp q = s.getRamp q := by
  cases r <;> cases q <;> first | rfl | exact absurd rfl h
@[simp] theorem getTog_setTog_same (s : State) (t : TogId) (v : F) : (s.setTog t v).getTog t = v := by cases t <;> rfl
theorem getTog_setTog_other (s : State) {t u : TogId} (v : F) (h : u ≠ t) : (s.setTog t v).getTog u = s.getTog u := by
  cases t <;> cases u <;> first | rfl | exact absurd rfl h

/-! ## Hardware reset -/

@[simp] theorem hardReset_lifecycle (s : State) : (hardReset s).lifecycle = State.reset.lifecycle := rfl
@[simp] theorem hardReset_err (s : State) : (hardReset s).err = State.reset.err := rfl
@[simp] theorem hardReset_last (s : State) : (hardReset s).last = State.reset.last := rfl
@[simp] theorem hardReset_arg0 (s : State) : (hardReset s).arg0 = State.reset.arg0 := rfl
@[simp] theorem hardReset_arg1 (s : State) : (hardReset s).arg1 = State.reset.arg1 := rfl
@[simp] theorem hardReset_result (s : State) : (hardReset s).result = State.reset.result := rfl
@[simp] theorem hardReset_blkCount (s : State) : (hardReset s).blkCount = State.reset.blkCount := rfl
@[simp] theorem hardReset_blkOff (s : State) : (hardReset s).blkOff = State.reset.blkOff := rfl
@[simp] theorem hardReset_blkF (s : State) : (hardReset s).blkF = State.reset.blkF := rfl
@[simp] theorem hardReset_nch (s : State) : (hardReset s).nch = State.reset.nch := rfl
@[simp] theorem hardReset_fsHost (s : State) : (hardReset s).fsHost = State.reset.fsHost := rfl
@[simp] theorem hardReset_rampMix (s : State) : (hardReset s).rampMix = State.reset.rampMix := rfl
@[simp] theorem hardReset_rampRate (s : State) : (hardReset s).rampRate = State.reset.rampRate := rfl
@[simp] theorem hardReset_rampDepth (s : State) : (hardReset s).rampDepth = State.reset.rampDepth := rfl
@[simp] theorem hardReset_togFeedback (s : State) : (hardReset s).togFeedback = State.reset.togFeedback := rfl
@[simp] theorem hardReset_togDelay (s : State) : (hardReset s).togDelay = State.reset.togDelay := rfl
@[simp] theorem hardReset_chans (s : State) : (hardReset s).chans = State.reset.chans := rfl
@[simp] theorem hardReset_inMem (s : State) : (hardReset s).inMem = s.inMem := rfl
@[simp] theorem hardReset_outMem (s : State) : (hardReset s).outMem = s.outMem := rfl
@[simp] theorem hardReset_hostQ (s : State) : (hardReset s).hostQ = s.hostQ := rfl
@[simp] theorem hardReset_hostLog (s : State) : (hardReset s).hostLog = s.hostLog := rfl
@[simp] theorem hardReset_turn (s : State) : (hardReset s).turn = s.turn := rfl
@[simp] theorem hardReset_draws (s : State) : (hardReset s).draws = s.draws := rfl
@[simp] theorem hardReset_inRace (s : State) : (hardReset s).inRace = State.reset.inRace := rfl
@[simp] theorem hardReset_outRace (s : State) : (hardReset s).outRace = State.reset.outRace := rfl
@[simp] theorem hardReset_outPending (s : State) : (hardReset s).outPending = State.reset.outPending := rfl
@[simp] theorem hardReset_params (s : State) : (hardReset s).params = s.params := rfl

end Sys2Proof.Machine
end

