-- ==== Sys2Proof/Laws/Step.lean ====
section
/-! SUPPORT. What each shared operation can do, said once: sequencing, the frame, a command, a host access, a step. -/

namespace Sys2Proof.Machine

/-! ## Sequencing -/

@[simp] theorem andThen_next {α β : Type} (a : α) (f : α → Host.Outcome β Fault Refusal) :
    andThen (.next a) f = f a := rfl

/-- A sequence that has a value ran both its parts. -/
theorem andThen_eq_next {α β : Type} {o : Host.Outcome α Fault Refusal} {f : α → Host.Outcome β Fault Refusal}
    {b : β} : andThen o f = .next b ↔ ∃ a, o = .next a ∧ f a = .next b := by
  cases o <;> simp [andThen]

/-! ## The frame -/

/-- A channel step that has a value had its position in the bank and a finite read position; this is all it does. -/
theorem chanStep_eq_next {b : Nat} {ch : Channel} {x off mix : F} {fb : Bool} {by' bf : Word} {r : Channel × F} :
    chanStep b ch x off mix fb by' bf = .next r ↔
      ch.wpos < b ∧ ∃ d, delayedSignal (delayWrite ch.dly ch.wpos x) b (readPosition b ch.wpos off) = some d ∧
        r = ({ ch with
            dly := feedbackWrite fb bf (delayWrite ch.dly ch.wpos x) ch.wpos d
            wpos := advance b ch.wpos },
          Num.settle by' (mixOutput x (wetSignal d x) mix)) := by
  unfold chanStep
  split
  · constructor
    · intro h; cases h
    · rintro ⟨h, -⟩; omega
  · cases hd : delayedSignal (delayWrite ch.dly ch.wpos x) b (readPosition b ch.wpos off) with
    | none => simp
    | some d =>
      simp only [Host.Outcome.next.injEq, Option.some.injEq, exists_eq_left']
      constructor
      · intro h; exact ⟨by omega, h.symm⟩
      · rintro ⟨-, h⟩; exact h.symm

/-- A channel of a frame that has a value had a finite phase, and is then the channel step at the offset of that phase. -/
theorem channelFrame_eq_next {p : FrameParams} {c : Nat} {ch : Channel} {x : F} {r : Channel × F} :
    channelFrame p c ch x = .next r ↔ ∃ sv, sampleTable p.hw.wtN ch.phase = some sv ∧
      chanStep (bufSize p.hw p.fs)
        { ch with phase := Num.settle (frameNaN p.draw c 2) (wrap2Pi (Num.fadd ch.phase p.inc)) }
        x (lfoOffset p.fs sv p.depthSmp p.dl) p.mix p.fb (frameNaN p.draw c 0) (frameNaN p.draw c 1) = .next r := by
  unfold channelFrame
  cases sampleTable p.hw.wtN ch.phase <;> simp

/-- The channels of a frame are each a channel step of their own (R118). -/
theorem frameChannels_cons {p : FrameParams} {s : State} {c : Nat} {ch : Channel} {rest : List Channel}
    {rs : List (Channel × F)} :
    frameChannels p s c (ch :: rest) = .next rs ↔ ∃ r rs', rs = r :: rs' ∧
      channelFrame p c ch (engineRead s c p.sample) = .next r ∧ frameChannels p s (c + 1) rest = .next rs' := by
  simp only [frameChannels, andThen_eq_next]
  constructor
  · rintro ⟨r, hr, rs', hrs, h⟩
    exact ⟨r, rs', by simpa using h.symm, hr, hrs⟩
  · rintro ⟨r, rs', rfl, hr, hrs⟩
    exact ⟨r, hr, rs', hrs, rfl⟩

/-- Entry by entry, what the channels of a frame give. -/
theorem frameChannels_get {p : FrameParams} {s : State} :
    ∀ {chs : List Channel} {c : Nat} {rs : List (Channel × F)}, frameChannels p s c chs = .next rs →
      rs.length = chs.length ∧ ∀ k ch, chs[k]? = some ch → ∃ r, rs[k]? = some r ∧
        channelFrame p (c + k) ch (engineRead s (c + k) p.sample) = .next r := by
  intro chs
  induction chs with
  | nil =>
    intro c rs h
    simp only [frameChannels, Host.Outcome.next.injEq] at h
    subst h
    simp
  | cons a chs ih =>
    intro c rs h
    obtain ⟨r, rs', rfl, hr, hrs⟩ := frameChannels_cons.1 h
    obtain ⟨hl, hk⟩ := ih hrs
    refine ⟨by simp [hl], fun k ch hch => ?_⟩
    cases k with
    | zero =>
      obtain rfl : a = ch := by simpa using hch
      exact ⟨r, by simp, hr⟩
    | succ k =>
      obtain ⟨r', h1, h2⟩ := hk k ch (by simpa using hch)
      exact ⟨r', by simpa using h1, by rw [show c + (k + 1) = c + 1 + k by omega]; exact h2⟩

/-- The channels of a frame all have a value when each of them has. -/
theorem frameChannels_total {p : FrameParams} {s : State} {chs : List Channel}
    (h : ∀ ch ∈ chs, ∀ c x, ∃ r, channelFrame p c ch x = .next r) : ∀ c, ∃ rs, frameChannels p s c chs = .next rs := by
  induction chs with
  | nil => intro c; exact ⟨[], rfl⟩
  | cons a chs ih =>
    intro c
    obtain ⟨r, hr⟩ := h a (by simp) c (engineRead s c p.sample)
    obtain ⟨rs, hrs⟩ := ih (fun ch hch => h ch (by simp [hch])) (c + 1)
    exact ⟨r :: rs, frameChannels_cons.2 ⟨r, rs, rfl, hr, hrs⟩⟩

/-- A frame step that has a value is `finishFrame` of its channels' values. -/
theorem frameStep_eq_next {s t : State} :
    frameStep s = .next t ↔ (frameParams s).sample < s.params.hostBufLen ∧
      ∃ rs, frameChannels (frameParams s) s 0 s.chans = .next rs ∧ t = finishFrame s rs := by
  unfold frameStep
  split
  · constructor
    · intro h; cases h
    · rintro ⟨h, -⟩; omega
  · simp only [andThen_eq_next, Host.Outcome.next.injEq]
    constructor
    · rintro ⟨rs, h, rfl⟩; exact ⟨by omega, rs, h, rfl⟩
    · rintro ⟨-, rs, h, rfl⟩; exact ⟨rs, h, rfl⟩

/-! ## The words a frame writes -/

/-- The word index of `(c, i)` tells the channels apart (R53, log 12). -/
theorem hostIndex_inj {c d i : Nat} : hostIndex c i = hostIndex d i ↔ c = d := by
  simp [hostIndex, Config.channelSpan]

/-- The words of a frame keep the canonical form of `OUT`. -/
theorem writeOut_wf {i : Nat} {ys : List F} :
    ∀ {m : Memory} {c : Nat}, Memory.wf m → Memory.wf (writeOut m i c ys) := by
  induction ys with
  | nil => intro m c h; exact h
  | cons y ys ih => intro m c h; exact ih (writeWord_wf h (hostIndex c i) y)

/-- A byte outside the words of a frame is unchanged. -/
theorem readByte_writeOut_other {i a : Nat} {ys : List F} : ∀ {m : Memory} {c : Nat},
    (∀ k, k < ys.length → a / 4 ≠ hostIndex (c + k) i) → readByte (writeOut m i c ys) a = readByte m a := by
  induction ys with
  | nil => intro m c h; rfl
  | cons y ys ih =>
    intro m c h
    rw [writeOut, ih fun k hk => by
      have := h (k + 1) (by simpa using hk); rwa [show c + 1 + k = c + (k + 1) by omega]]
    exact readByte_writeWord_other y (by simpa using h 0 (by simp))

/-- Each word of a frame holds its channel's sample. -/
theorem readWord_writeOut_same {i k : Nat} {ys : List F} : ∀ {m : Memory} {c : Nat} {y : F}, Memory.wf m →
    ys[k]? = some y → readWord (writeOut m i c ys) (hostIndex (c + k) i) = y := by
  induction ys generalizing k with
  | nil => intro m c y _ h; simp at h
  | cons z ys ih =>
    intro m c y hm h
    cases k with
    | zero =>
      obtain rfl : z = y := by simpa using h
      rw [writeOut, readWord_congr (n := writeWord m (hostIndex c i) z)]
      · exact readWord_writeWord_same hm _ _
      · intro a ha
        refine readByte_writeOut_other fun k _ => ?_
        rw [ha, Nat.add_zero]
        intro he
        have := hostIndex_inj.1 he
        omega
    | succ k =>
      rw [writeOut, show c + (k + 1) = c + 1 + k by omega]
      exact ih (writeWord_wf hm _ _) (by simpa using h)

/-- A channel of a frame writes its delay bank at its own position only (R130, R136). -/
theorem channelFrame_dly_other {p : FrameParams} {c : Nat} {ch : Channel} {x : F} {r : Channel × F}
    (h : channelFrame p c ch x = .next r) {a : Nat} (ha : a / 4 ≠ ch.wpos) : readByte r.1.dly a = readByte ch.dly a := by
  obtain ⟨sv, -, h⟩ := channelFrame_eq_next.1 h
  obtain ⟨-, d, -, rfl⟩ := chanStep_eq_next.1 h
  simp only [feedbackWrite, delayWrite]
  split
  · rw [readByte_writeWord_other _ ha, readByte_writeWord_other _ ha]
  · rw [readByte_writeWord_other _ ha]

/-! ## The records of races -/

theorem mem_frameWords {i n w : Nat} : w ∈ frameWords i n ↔ ∃ c, c < n ∧ w = hostIndex c i := by
  simp [frameWords, eq_comm]

theorem mem_nextWords {s : State} {w : Nat} :
    w ∈ nextWords s ↔ ∃ c, c < s.chans.length ∧ w = hostIndex c (s.blkOff.toNat + s.blkF.toNat) := mem_frameWords

theorem mem_contentsOf {m : Memory} {ws : List Nat} {e : Nat × Word} :
    e ∈ contentsOf m ws ↔ e.1 ∈ ws ∧ e.2 = readWord m e.1 := by
  obtain ⟨w, v⟩ := e
  simp only [contentsOf, List.mem_map, Prod.mk.injEq]
  constructor
  · rintro ⟨u, hu, rfl, rfl⟩; exact ⟨hu, rfl⟩
  · rintro ⟨hu, rfl⟩; exact ⟨w, hu, rfl, rfl⟩

theorem mem_olderAt {race : List (Nat × Word)} {i : Nat} {v : Word} : v ∈ olderAt race i ↔ (i, v) ∈ race := by
  simp [olderAt]

@[simp] theorem resolveReads_nil (out : Memory) (ws : List Nat) (log : List Word) : resolveReads out ws [] log = log := rfl

theorem resolveReads_cons (out : Memory) (ws : List Nat) (e : Nat × Nat) (pending : List (Nat × Nat)) (log : List Word) :
    resolveReads out ws (e :: pending) log =
      resolveReads out ws pending (if ws.contains e.2 then log.set e.1 (readWord out e.2) else log) := rfl

@[simp] theorem resolveReads_length (out : Memory) (ws : List Nat) (pending : List (Nat × Nat)) (log : List Word) :
    (resolveReads out ws pending log).length = log.length := by
  induction pending generalizing log with
  | nil => rfl
  | cons e pending ih => rw [resolveReads_cons, ih]; split <;> simp

/-- A place of the log that no pending read of one of the words waits for keeps its value. -/
theorem resolveReads_other {out : Memory} {ws : List Nat} {pending : List (Nat × Nat)} {log : List Word} {k : Nat}
    (h : ∀ e ∈ pending, e.1 = k → e.2 ∉ ws) : (resolveReads out ws pending log)[k]? = log[k]? := by
  induction pending generalizing log with
  | nil => rfl
  | cons e pending ih =>
    rw [resolveReads_cons, ih fun f hf => h f (by simp [hf])]
    split
    · rename_i hc
      exact List.getElem?_set_ne fun hk => h e (by simp) hk (by simpa using hc)
    · rfl

/-- A pending read of one of the words gives its new contents, when the pending reads have places of their own. -/
theorem resolveReads_same {out : Memory} {ws : List Nat} {pending : List (Nat × Nat)} {log : List Word} {e : Nat × Nat}
    (hd : pending.Pairwise fun e f => e.1 < f.1) (he : e ∈ pending) (hw : e.2 ∈ ws) (hl : e.1 < log.length) :
    (resolveReads out ws pending log)[e.1]? = some (readWord out e.2) := by
  induction pending generalizing log with
  | nil => cases he
  | cons f pending ih =>
    obtain ⟨hf, hd⟩ := List.pairwise_cons.1 hd
    rw [resolveReads_cons]
    rcases List.mem_cons.1 he with rfl | he
    · rw [resolveReads_other fun g hg hk => absurd (hf g hg) (by omega)]
      simp [hw, hl]
    · exact ih hd he (by split <;> simpa using hl)

/-! ## A step -/

/-- What a step can be: nothing to do, a frame, or the host's next access. -/
theorem step_cases {s t : State} (h : step s = .next t) :
    (mover s = none ∧ t = s) ∨
    (mover s = some .engine ∧ s.lifecycle = .busy ∧ ∃ u, frameStep (tick s) = .next u ∧ t = drawTurn u) ∨
    (mover s = some .host ∧ ∃ op rest u, s.hostQ = op :: rest ∧ hostStep op (popHost s rest) = .next u ∧
      t = drawTurn u) := by
  unfold step at h
  cases hm : mover s with
  | none =>
    simp only [hm, Host.Outcome.next.injEq] at h
    exact .inl ⟨rfl, h.symm⟩
  | some a =>
    simp only [hm, andThen_eq_next, Host.Outcome.next.injEq] at h
    obtain ⟨u, hu, rfl⟩ := h
    cases a with
    | engine =>
      refine .inr (.inl ⟨rfl, ?_, u, hu, rfl⟩)
      unfold mover at hm
      split at hm
      · rename_i hc; simp [contested] at hc; exact hc.1
      · split at hm
        · assumption
        · split at hm <;> simp at hm
    | host =>
      refine .inr (.inr ⟨rfl, ?_⟩)
      cases hq : s.hostQ with
      | nil =>
        exfalso
        have hr : hostReady s = false := by simp [hostReady, hq]
        unfold mover at hm
        simp only [contested, hr, Bool.and_false, Bool.false_eq_true, if_false] at hm
        split at hm <;> simp at hm
      | cons op rest =>
        refine ⟨op, rest, u, rfl, ?_, rfl⟩
        simpa [act, hq] using hu

/-- Every command answers a next state, whatever the state (R170, R171). -/
theorem exec_next (i : Instr) (s : State) : ∃ t, exec i s = .next t := by
  cases i <;> simp only [exec]
  · unfold execInit; split <;> exact ⟨_, rfl⟩
  · unfold execReset; split <;> exact ⟨_, rfl⟩
  · unfold execProcess; split
    · exact ⟨_, rfl⟩
    · split <;> exact ⟨_, rfl⟩
  · unfold execSetp; split <;> exact ⟨_, rfl⟩
  · unfold execGetp; split <;> exact ⟨_, rfl⟩
  · unfold execRamp; split <;> exact ⟨_, rfl⟩

end Sys2Proof.Machine
end

