-- ==== Sys2Proof/Laws/Engine.lean ====
section
/-! SUPPORT. R34: what the engine does depends on its own state, the parameters of the step relation and the host's accesses, and
on nothing else the machine holds: the contents of `OUT`, the records of its races and the host's log feed no rule. -/

namespace Sys2Proof.Machine

/-- The state with everything R34 calls the observable result of a run taken out. -/
def blind (s : State) : State := { s with outMem := [], outRace := [], outPending := [], hostLog := [] }

/-- An outcome with the observable result taken out. -/
def blindNext (o : Host.Outcome State Fault Refusal) : Host.Outcome State Fault Refusal := andThen o fun t => .next (blind t)

@[simp] theorem blindNext_next (t : State) : blindNext (.next t) = .next (blind t) := rfl

/-- Two states without their results are equal exactly when engine, step parameters and host accesses are. -/
theorem blind_eq_iff {s s' : State} :
    blind s = blind s' ↔ s.toEngine = s'.toEngine ∧ s.toStepParams = s'.toStepParams ∧ s.hostQ = s'.hostQ := by
  simp [blind]

/-- The channels of a frame read `IN`, never `OUT` (R53). -/
theorem frameChannels_blind (p : FrameParams) (s : State) (chs : List Channel) :
    ∀ c, frameChannels p (blind s) c chs = frameChannels p s c chs := by
  induction chs with
  | nil => intro c; rfl
  | cons ch chs ih => intro c; simp only [frameChannels, ih]; rfl

theorem frameStep_blind (s : State) : blindNext (frameStep (blind s)) = blindNext (frameStep s) := by
  unfold frameStep
  rw [show frameParams (blind s) = frameParams s from rfl, show (blind s).params = s.params from rfl,
    show (blind s).chans = s.chans from rfl, frameChannels_blind]
  split
  · rfl
  · cases frameChannels (frameParams s) s 0 s.chans <;> rfl

theorem setParam_blind (s : State) (p : Param) (v : F) : setParam (blind s) p v = blind (setParam s p v) := by
  rcases p with r | t | _
  · cases r <;> rfl
  · cases t <;> rfl
  · rfl

theorem rampParam_blind (s : State) (p : Param) (v : F) (d : Word) :
    rampParam (blind s) p v d = blind (rampParam s p v d) := by
  rcases p with r | t | _
  · cases r <;> rfl
  · rfl
  · rfl

theorem paramValue_blind (s : State) (p : Param) : paramValue (blind s) p = paramValue s p := by
  rcases p with r | t | _
  · cases r <;> rfl
  · cases t <;> rfl
  · rfl

/-- Every command does to the engine what it does without the result of the run. -/
theorem exec_blind (i : Instr) (s : State) : blindNext (exec i (blind s)) = blindNext (exec i s) := by
  cases i with
  | init =>
    simp only [exec, execInit, show initCheck (blind s) = initCheck s from rfl, show u32Arg0 (blind s) = u32Arg0 s from rfl,
      show u32Arg1 (blind s) = u32Arg1 s from rfl]
    split <;> rfl
  | reset =>
    simp only [exec, execReset, show (blind s).lifecycle = s.lifecycle from rfl]
    split <;> rfl
  | process =>
    simp only [exec, execProcess, show (blind s).lifecycle = s.lifecycle from rfl, show (blind s).params = s.params from rfl,
      show u32Arg0 (blind s) = u32Arg0 s from rfl, show u32Arg1 (blind s) = u32Arg1 s from rfl]
    split
    · rfl
    · split <;> rfl
  | setp pid =>
    simp only [exec, execSetp, show (blind s).lifecycle = s.lifecycle from rfl, setParam_blind]
    split <;> rfl
  | getp pid =>
    simp only [exec, execGetp, show (blind s).lifecycle = s.lifecycle from rfl, paramValue_blind]
    split <;> rfl
  | ramp pid =>
    simp only [exec, execRamp, show (blind s).lifecycle = s.lifecycle from rfl, rampParam_blind]
    split <;> rfl

theorem regWrite_blind (s : State) (index : Nat) (v : Word) : regWrite (blind s) index v = blind (regWrite s index v) := by
  unfold regWrite
  split <;> rfl

/-- A host access that is no command: a read tells the host something and the engine nothing (R57). -/
theorem hostAccess_blind (op : HostOp) (s : State) :
    blindNext (hostAccess op (blind s)) = blindNext (hostAccess op s) := by
  cases op with
  | writeReg index v => simp only [hostAccess, regWrite_blind]; rfl
  | writeBus addr width v => simp only [hostAccess, regWrite_blind]; split <;> rfl
  | readBus addr width => simp only [hostAccess]; split <;> rfl
  | writeIn c i v => simp only [hostAccess, show hostWord (blind s) c i = hostWord s c i from rfl]; split <;> rfl
  | readOut c i => simp only [hostAccess, show hostWord (blind s) c i = hostWord s c i from rfl]; split <;> rfl
  | readReg _ => rfl
  | wait => rfl
  | hardReset => rfl

theorem hostStep_blind (op : HostOp) (s : State) : blindNext (hostStep op (blind s)) = blindNext (hostStep op s) := by
  unfold hostStep
  split
  · rename_i w _
    unfold issue
    cases decode w with
    | ok i => exact exec_blind i s
    | error _ => rfl
  · exact hostAccess_blind op s

theorem drawTurn_blind (s : State) : drawTurn (blind s) = blind (drawTurn s) := by
  simp only [drawTurn, show contested (blind s) = contested s from rfl]
  split <;> rfl

theorem act_blind (s : State) (a : Agent) : blindNext (act (blind s) a) = blindNext (act s a) := by
  cases a with
  | engine => exact frameStep_blind (tick s)
  | host =>
    unfold act
    simp only [show (blind s).hostQ = s.hostQ from rfl]
    split
    · rfl
    · rename_i op rest _; exact hostStep_blind op (popHost s rest)

/-- Drawing the next agent does not look at the result of the run. -/
theorem blindNext_drawTurn (o : Host.Outcome State Fault Refusal) :
    blindNext (andThen o fun t => .next (drawTurn t)) = andThen (blindNext o) fun t => .next (drawTurn t) := by
  cases o <;> simp [andThen, blindNext, drawTurn_blind]

/-- R34: a step does the same to everything but the result of the run, whatever that result is. -/
theorem step_blind (s : State) : blindNext (step (blind s)) = blindNext (step s) := by
  unfold step
  rw [show mover (blind s) = mover s from rfl]
  split
  · rfl
  · rw [blindNext_drawTurn, act_blind, blindNext_drawTurn]

/-- The step relation of the engine is the step of every machine in that engine state with those parameters and host accesses. -/
theorem engineStep_iff {s : State} {e' : Engine} :
    EngineStep s.toStepParams s.hostQ s.toEngine e' ↔ ∃ t, step s = .next t ∧ t.toEngine = e' := by
  constructor
  · rintro ⟨u, v, he, hp, hq, hv, rfl⟩
    have hb : blindNext (step u) = blindNext (step s) := by
      rw [← step_blind u, ← step_blind s, blind_eq_iff.2 ⟨he, hp, hq⟩]
    rw [hv] at hb
    obtain ⟨t, ht, h⟩ := andThen_eq_next.1 hb.symm
    exact ⟨t, ht, (blind_eq_iff.1 (Host.Outcome.next.inj h)).1⟩
  · rintro ⟨t, ht, rfl⟩
    exact ⟨s, t, rfl, rfl, rfl, ht, rfl⟩

/-- R34: the parameters of the step relation leave nothing open: the engine has at most one next state under them. -/
theorem engineStep_functional {p : StepParams} {ops : List HostOp} {e e₁ e₂ : Engine} (h₁ : EngineStep p ops e e₁)
    (h₂ : EngineStep p ops e e₂) : e₁ = e₂ := by
  obtain ⟨s, t, rfl, rfl, rfl, ht, rfl⟩ := h₁
  obtain ⟨u, hu, rfl⟩ := engineStep_iff.1 h₂
  rw [Host.Outcome.next.inj (ht.symm.trans hu)]

end Sys2Proof.Machine
end

