-- ==== Sys2Proof/Laws/Numerics.lean ====
section
/-! SUPPORT. The laws of the binary32 primitives that every bound rests on: magnitudes are strictly ordered by their
patterns, rounding never crosses a representable value, and the patterns `pack` builds read back. -/

namespace Sys2Proof.Num

/-! ## Magnitudes -/

theorem units_lt_succ (n : Nat) : units n < units (n + 1) := by
  unfold units
  by_cases h0 : n / 8388608 = 0
  · by_cases h1 : (n + 1) / 8388608 = 0
    · rw [if_pos h0, if_pos h1]; omega
    · have e1 : (n + 1) / 8388608 = 1 := by omega
      rw [if_pos h0, if_neg h1, e1]; simp; omega
  · have h1 : ¬ (n + 1) / 8388608 = 0 := by omega
    rw [if_neg h0, if_neg h1]
    by_cases hc : (n + 1) / 8388608 = n / 8388608
    · rw [hc]
      exact Nat.mul_lt_mul_of_pos_right (by omega) (by positivity)
    · have e1 : (n + 1) / 8388608 - 1 = (n / 8388608 - 1) + 1 := by omega
      have e2 : (n + 1) % 8388608 = 0 := by omega
      have hp : 0 < 2 ^ (n / 8388608 - 1) := by positivity
      rw [e1, e2, Nat.pow_succ]
      have hle : 8388608 + n % 8388608 < 16777216 := by omega
      calc (8388608 + n % 8388608) * 2 ^ (n / 8388608 - 1)
          < 16777216 * 2 ^ (n / 8388608 - 1) := Nat.mul_lt_mul_of_pos_right hle hp
        _ = (8388608 + 0) * (2 ^ (n / 8388608 - 1) * 2) := by ring

/-- Patterns order magnitudes strictly. -/
theorem units_strictMono : StrictMono units := strictMono_nat_of_lt_succ units_lt_succ

theorem units_le_iff {m n : Nat} : units m ≤ units n ↔ m ≤ n := units_strictMono.le_iff_le

theorem units_lt_iff {m n : Nat} : units m < units n ↔ m < n := units_strictMono.lt_iff_lt

/-- The pattern with exponent step `e` and significand `k` has the magnitude `k * 2^e`. -/
theorem units_block (e k : Nat) (hk : k ≤ 16777216) (he : e = 0 ∨ 8388608 ≤ k) :
    units (e * 8388608 + k) = k * 2 ^ e := by
  unfold units
  rcases Nat.lt_or_ge k 8388608 with hlt | hge
  · obtain rfl : e = 0 := by omega
    rw [if_pos (by omega)]; simp; omega
  · rw [if_neg (by omega)]
    rcases Nat.lt_or_ge k 16777216 with h1 | h1
    · have e1 : (e * 8388608 + k) / 8388608 = e + 1 := by omega
      have e2 : (e * 8388608 + k) % 8388608 = k - 8388608 := by omega
      rw [e1, e2, show 8388608 + (k - 8388608) = k by omega, Nat.add_sub_cancel]
    · obtain rfl : k = 16777216 := by omega
      have e1 : (e * 8388608 + 16777216) / 8388608 = e + 2 := by omega
      have e2 : (e * 8388608 + 16777216) % 8388608 = 0 := by omega
      rw [e1, e2]
      have : e + 2 - 1 = e + 1 := by omega
      rw [this, Nat.pow_succ]; ring

/-! ## Rounding -/

theorem roundQuot_cases (num den : Nat) :
    roundQuot num den = num / den ∨ (roundQuot num den = num / den + 1 ∧ num % den ≠ 0) := by
  unfold roundQuot
  split
  · rename_i h
    refine .inr ⟨rfl, fun h0 => ?_⟩
    rcases h with h | ⟨h, hodd⟩
    · omega
    · rw [h0] at h
      subst h
      simp at hodd
  · exact .inl rfl

/-- The significand `roundUnits` rounds to is below 2^24 and, past the subnormals, at least 2^23. -/
theorem significand_bounds (num den : Nat) :
    num / (den * 2 ^ ((num / den).log2 - 23)) < 16777216 ∧
    ((num / den).log2 - 23 = 0 ∨ 8388608 ≤ num / (den * 2 ^ ((num / den).log2 - 23))) := by
  rw [← Nat.div_div_eq_div_mul]
  generalize num / den = q
  have hp : 0 < 2 ^ (q.log2 - 23) := by positivity
  constructor
  · rw [Nat.div_lt_iff_lt_mul hp]
    have h1 : q < 2 ^ (q.log2 + 1) := Nat.lt_log2_self
    refine lt_of_lt_of_le h1 ?_
    calc 2 ^ (q.log2 + 1) ≤ 2 ^ (24 + (q.log2 - 23)) := Nat.pow_le_pow_right (by omega) (by omega)
      _ = 16777216 * 2 ^ (q.log2 - 23) := by rw [Nat.pow_add]
  · by_cases h : q.log2 - 23 = 0
    · exact .inl h
    · right
      rw [Nat.le_div_iff_mul_le hp]
      have hq : q ≠ 0 := by rintro rfl; simp at h
      calc 8388608 * 2 ^ (q.log2 - 23) = 2 ^ (23 + (q.log2 - 23)) := by rw [Nat.pow_add]
        _ ≤ 2 ^ q.log2 := Nat.pow_le_pow_right (by omega) (by omega)
        _ ≤ q := Nat.log2_self_le hq

/-- The pattern before the cut at infinity. -/
def rawPattern (num den : Nat) : Nat :=
  ((num / den).log2 - 23) * 8388608 + roundQuot num (den * 2 ^ ((num / den).log2 - 23))

theorem roundUnits_eq (num den : Nat) : roundUnits num den = min (rawPattern num den) 2139095040 := rfl

theorem roundUnits_le_inf (num den : Nat) : roundUnits num den ≤ 2139095040 := Nat.min_le_right _ _

/-- What rounding can do: cut off at the quotient's significand, or go up to the next pattern when something is cut off. -/
theorem rawPattern_cases (num den : Nat) (hd : 0 < den) :
    (units (rawPattern num den) * den ≤ num ∧ num < units (rawPattern num den + 1) * den) ∨
    (0 < rawPattern num den ∧ units (rawPattern num den - 1) * den < num ∧ num < units (rawPattern num den) * den) := by
  obtain ⟨hlt, hge⟩ := significand_bounds num den
  have hD : 0 < den * 2 ^ ((num / den).log2 - 23) := by positivity
  have key := roundQuot_cases num (den * 2 ^ ((num / den).log2 - 23))
  unfold rawPattern
  generalize (num / den).log2 - 23 = e at *
  have hdm := Nat.div_add_mod num (den * 2 ^ e)
  have hml := Nat.mod_lt num hD
  have u0 := units_block e (num / (den * 2 ^ e)) (by omega) hge
  have u1 := units_block e (num / (den * 2 ^ e) + 1) (by omega) (by omega)
  generalize hm : num / (den * 2 ^ e) = m at *
  generalize num % (den * 2 ^ e) = r at *
  have a0 : m * 2 ^ e * den = den * 2 ^ e * m := by ring
  have a1 : (m + 1) * 2 ^ e * den = den * 2 ^ e * m + den * 2 ^ e := by ring
  generalize den * 2 ^ e = D at *
  generalize D * m = x at *
  rcases key with hk | ⟨hk, hr⟩
  · left
    rw [hk, u0, Nat.add_assoc, u1, a0, a1]
    omega
  · right
    rw [hk, show e * 8388608 + (m + 1) - 1 = e * 8388608 + m by omega, u0, u1, a0, a1]
    omega

/-- Rounding does not go above a representable value that is not below the exact one. -/
theorem roundUnits_le {num den n : Nat} (hd : 0 < den) (h : num ≤ units n * den) : roundUnits num den ≤ n := by
  rw [roundUnits_eq]
  refine le_trans (Nat.min_le_left _ _) ?_
  by_contra hlt
  rcases rawPattern_cases num den hd with ⟨h1, -⟩ | ⟨h0, h1, -⟩
  · have : units n * den < units (rawPattern num den) * den :=
      Nat.mul_lt_mul_of_pos_right (units_lt_iff.2 (by omega)) hd
    omega
  · have : units n * den ≤ units (rawPattern num den - 1) * den :=
      Nat.mul_le_mul_right den (units_le_iff.2 (by omega))
    omega

/-- Rounding does not go below a representable value that is not above the exact one. -/
theorem le_roundUnits {num den n : Nat} (hd : 0 < den) (hn : n ≤ 2139095040) (h : units n * den ≤ num) :
    n ≤ roundUnits num den := by
  rw [roundUnits_eq]
  refine le_min ?_ hn
  by_contra hlt
  rcases rawPattern_cases num den hd with ⟨-, h1⟩ | ⟨-, -, h1⟩
  · have : units (rawPattern num den + 1) * den ≤ units n * den :=
      Nat.mul_le_mul_right den (units_le_iff.2 (by omega))
    omega
  · have : units (rawPattern num den) * den ≤ units n * den :=
      Nat.mul_le_mul_right den (units_le_iff.2 (by omega))
    omega

/-- A representable value rounds to itself (R19 P1). -/
theorem roundUnits_exact {num den n : Nat} (hd : 0 < den) (hn : n ≤ 2139095040) (h : num = units n * den) :
    roundUnits num den = n :=
  le_antisymm (roundUnits_le hd h.le) (le_roundUnits hd hn h.ge)

theorem roundUnits_zero {den : Nat} (hd : 0 < den) : roundUnits 0 den = 0 :=
  roundUnits_exact hd (by omega) (by simp [units])

theorem roundQuot_mono {a b d : Nat} (h : a ≤ b) : roundQuot a d ≤ roundQuot b d := by
  have hdiv : a / d ≤ b / d := Nat.div_le_div_right h
  rcases Nat.lt_or_ge (a / d) (b / d) with hlt | hge
  · have := roundQuot_cases a d
    have := roundQuot_cases b d
    omega
  · have heq : a / d = b / d := by omega
    have ha := Nat.div_add_mod a d
    have hb := Nat.div_add_mod b d
    have hm : a % d ≤ b % d := by rw [heq] at ha; omega
    unfold roundQuot
    rw [heq]
    split
    · split
      · exact Nat.le_refl _
      · rename_i h1 h2; omega
    · split <;> omega

/-- Rounding is monotone (R19 P1). -/
theorem roundUnits_mono {a b den : Nat} (h : a ≤ b) : roundUnits a den ≤ roundUnits b den := by
  rw [roundUnits_eq, roundUnits_eq]
  refine min_le_min_right _ ?_
  unfold rawPattern
  have hl : (a / den).log2 ≤ (b / den).log2 := by
    by_cases h0 : a / den = 0
    · rw [h0]; simp
    · have h1 : a / den ≤ b / den := Nat.div_le_div_right h
      have h2 : b / den ≠ 0 := by
        intro hz; rw [hz] at h1; exact h0 (Nat.le_zero.1 h1)
      exact (Nat.le_log2 h2).2 (le_trans (Nat.log2_self_le h0) h1)
  rcases Nat.lt_or_ge ((a / den).log2 - 23) ((b / den).log2 - 23) with hlt | hge
  · obtain ⟨ha, -⟩ := significand_bounds a den
    obtain ⟨-, hb⟩ := significand_bounds b den
    have ca := roundQuot_cases a (den * 2 ^ ((a / den).log2 - 23))
    have cb := roundQuot_cases b (den * 2 ^ ((b / den).log2 - 23))
    generalize (a / den).log2 - 23 = e at *
    generalize (b / den).log2 - 23 = f at *
    omega
  · rw [show (a / den).log2 - 23 = (b / den).log2 - 23 by omega]
    exact Nat.add_le_add_left (roundQuot_mono h) _

theorem roundQuot_scale (a d : Nat) {k : Nat} (hk : 0 < k) : roundQuot (a * k) (d * k) = roundQuot a d := by
  unfold roundQuot
  rw [Nat.mul_div_mul_right _ _ hk, Nat.mul_mod_mul_right]
  have e : 2 * (a % d * k) = 2 * (a % d) * k := by ring
  have e1 : d * k < 2 * (a % d) * k ↔ d < 2 * (a % d) := Nat.mul_lt_mul_right hk
  have e2 : d * k = 2 * (a % d) * k ↔ d = 2 * (a % d) := Nat.mul_left_inj (by omega)
  simp only [e, e1, e2]

/-- Rounding depends on the quotient only. -/
theorem roundUnits_scale (a d : Nat) {k : Nat} (hk : 0 < k) : roundUnits (a * k) (d * k) = roundUnits a d := by
  unfold roundUnits
  rw [Nat.mul_div_mul_right _ _ hk,
    show d * k * 2 ^ ((a / d).log2 - 23) = d * 2 ^ ((a / d).log2 - 23) * k by ring, roundQuot_scale _ _ hk]

/-- Rounding is monotone in the quotient. -/
theorem roundUnits_mono_quot {a b d e : Nat} (hd : 0 < d) (he : 0 < e) (h : a * e ≤ b * d) :
    roundUnits a d ≤ roundUnits b e := by
  rw [← roundUnits_scale a d he, ← roundUnits_scale b e hd, Nat.mul_comm e d]
  exact roundUnits_mono h

/-! ## Patterns read back -/

theorem pack_toNat (s : Bool) {n : Nat} (hn : n < 2147483648) :
    (pack s n).toNat = if s then 2147483648 + n else n := by
  unfold pack
  rw [BitVec.toNat_ofNat, Nat.mod_eq_of_lt]
  cases s
  · simp; omega
  · simp; omega

@[simp] theorem low31_pack (s : Bool) {n : Nat} (hn : n < 2147483648) : low31 (pack s n) = n := by
  rw [low31, pack_toNat s hn]
  cases s
  · simp; omega
  · simp; omega

@[simp] theorem sign_pack (s : Bool) {n : Nat} (hn : n < 2147483648) : sign (pack s n) = s := by
  rw [sign, pack_toNat s hn]
  cases s
  · simp; omega
  · simp

theorem mag_pack (s : Bool) {n : Nat} (hn : n < 2147483648) : mag (pack s n) = units n := by
  rw [mag, low31_pack s hn]

theorem value_pack (s : Bool) {n : Nat} (hn : n < 2147483648) :
    value (pack s n) = if s then -(units n : Int) else (units n : Int) := by
  rw [value, mag_pack s hn, sign_pack s hn]

/-- A value is its sign and its magnitude pattern. -/
theorem pack_sign_low31 (a : F) : pack (sign a) (low31 a) = a := by
  apply BitVec.eq_of_toNat_eq
  have := a.isLt
  rw [pack_toNat _ (by unfold low31; omega)]
  unfold sign low31
  by_cases h : 2147483648 ≤ a.toNat
  · simp [h]; omega
  · simp [h]; omega

theorem low31_lt (a : F) : low31 a < 2147483648 := by unfold low31; omega

theorem isNaN_eq_false {a : F} : isNaN a = false ↔ low31 a ≤ 2139095040 := by
  simp [isNaN]

theorem isFinite_iff {a : F} : isFinite a = true ↔ low31 a < 2139095040 := by
  simp [isFinite]

theorem isFinite_not_nan {a : F} (h : isFinite a = true) : isNaN a = false :=
  isNaN_eq_false.2 (isFinite_iff.1 h).le

theorem isFinite_not_inf {a : F} (h : isFinite a = true) : isInf a = false := by
  have := isFinite_iff.1 h
  simp [isInf]; omega

theorem isNaN_pack (s : Bool) {n : Nat} (hn : n ≤ 2139095040) : isNaN (pack s n) = false :=
  isNaN_eq_false.2 (by rw [low31_pack s (by omega)]; exact hn)

theorem units_mono {m n : Nat} (h : m ≤ n) : units m ≤ units n := units_le_iff.2 h

/-- A magnitude bound is a bound on patterns. -/
theorem mag_le_iff {a b : F} : mag a ≤ mag b ↔ low31 a ≤ low31 b := units_le_iff

theorem value_le_mag (a : F) : value a ≤ mag a := by unfold value; split <;> omega

theorem neg_mag_le_value (a : F) : -(mag a : Int) ≤ value a := by unfold value; split <;> omega

theorem natAbs_value (a : F) : (value a).natAbs = mag a := by unfold value; split <;> omega

/-! ## Sign reversal -/

@[simp] theorem low31_neg (a : F) : low31 (neg a) = low31 a := low31_pack _ (low31_lt a)

@[simp] theorem sign_neg (a : F) : sign (neg a) = !sign a := sign_pack _ (low31_lt a)

@[simp] theorem mag_neg (a : F) : mag (neg a) = mag a := by rw [mag, low31_neg, mag]

@[simp] theorem value_neg (a : F) : value (neg a) = -value a := by
  simp only [value, mag_neg, sign_neg]
  cases sign a <;> simp

@[simp] theorem isNaN_neg (a : F) : isNaN (neg a) = isNaN a := by rw [isNaN, low31_neg, isNaN]

@[simp] theorem isInf_neg (a : F) : isInf (neg a) = isInf a := by rw [isInf, low31_neg, isInf]

@[simp] theorem isFinite_neg (a : F) : isFinite (neg a) = isFinite a := by rw [isFinite, low31_neg, isFinite]

/-! ## Arithmetic on finite operands: one spec lemma per operation -/

/-- `fadd` of finite operands is the exact sum rounded once (R13, R19 P1). -/
theorem fadd_finite {a b : F} (ha : isFinite a = true) (hb : isFinite b = true) :
    fadd a b = if value a + value b = 0 then pack (sign a && sign b) 0
      else pack (decide (value a + value b < 0)) (roundUnits (value a + value b).natAbs 1) := by
  simp only [fadd, isFinite_not_nan ha, isFinite_not_nan hb, isFinite_not_inf ha, isFinite_not_inf hb]
  simp

/-- `fsub` of finite operands is the exact difference rounded once. -/
theorem fsub_finite {a b : F} (ha : isFinite a = true) (hb : isFinite b = true) :
    fsub a b = if value a - value b = 0 then pack (sign a && !sign b) 0
      else pack (decide (value a - value b < 0)) (roundUnits (value a - value b).natAbs 1) := by
  rw [fsub, fadd_finite ha (by simpa using hb)]
  simp [sub_eq_add_neg]

/-- `fmul` of finite operands is the exact product rounded once. -/
theorem fmul_finite {a b : F} (ha : isFinite a = true) (hb : isFinite b = true) :
    fmul a b = pack (sign a != sign b) (roundUnits (mag a * mag b) (2 ^ 149)) := by
  simp only [fmul, isFinite_not_nan ha, isFinite_not_nan hb, isFinite_not_inf ha, isFinite_not_inf hb]
  simp

/-- `fdiv` of finite operands, the divisor not zero, is the exact quotient rounded once. -/
theorem fdiv_finite {a b : F} (ha : isFinite a = true) (hb : isFinite b = true) (h0 : mag b ≠ 0) :
    fdiv a b = pack (sign a != sign b) (roundUnits (mag a * 2 ^ 149) (mag b)) := by
  simp only [fdiv, isFinite_not_nan ha, isFinite_not_nan hb, isFinite_not_inf ha, isFinite_not_inf hb]
  simp [h0]

/-! ## Bounds: a rounded result stays between representable bounds of the exact one -/

theorem mag_le_of_value {v : Int} {c : F} (h : v.natAbs ≤ mag c) : mag (pack (decide (v < 0)) (roundUnits v.natAbs 1)) ≤ mag c := by
  have hr := roundUnits_le_inf v.natAbs 1
  rw [mag_pack _ (by omega)]
  exact units_mono (roundUnits_le one_pos (by unfold mag at h; omega))

/-- Rounding an integer number of units does not cross a representable value from below. -/
theorem value_round_le {v : Int} {c : F} (hc : isNaN c = false) (h : v ≤ value c) :
    value (pack (decide (v < 0)) (roundUnits v.natAbs 1)) ≤ value c := by
  have hr := roundUnits_le_inf v.natAbs 1
  rw [value_pack _ (by omega)]
  have hm : mag c = units (low31 c) := rfl
  by_cases hneg : v < 0
  · simp only [hneg, decide_true, if_true]
    by_cases hs : sign c = true
    · have hv : value c = -(mag c : Int) := by simp [value, hs]
      have := units_mono (le_roundUnits (num := v.natAbs) one_pos (isNaN_eq_false.1 hc) (by omega))
      omega
    · have hv : value c = (mag c : Int) := by simp [value, hs]
      omega
  · simp only [hneg, decide_false, Bool.false_eq_true, if_false]
    have hv := value_le_mag c
    have := units_mono (roundUnits_le (num := v.natAbs) (n := low31 c) one_pos (by omega))
    by_cases hs : sign c = true
    · have hv : value c = -(mag c : Int) := by simp [value, hs]
      have h0 : v.natAbs = 0 := by omega
      have h1 : units (roundUnits 0 1) = 0 := by rw [roundUnits_zero one_pos]; rfl
      rw [h0, h1]; omega
    · have hv : value c = (mag c : Int) := by simp [value, hs]
      omega

/-- Rounding an integer number of units does not cross a representable value from above. -/
theorem le_value_round {v : Int} {c : F} (hc : isNaN c = false) (h : value c ≤ v) :
    value c ≤ value (pack (decide (v < 0)) (roundUnits v.natAbs 1)) := by
  have hr := roundUnits_le_inf v.natAbs 1
  rw [value_pack _ (by omega)]
  have hm : mag c = units (low31 c) := rfl
  by_cases hneg : v < 0
  · simp only [hneg, decide_true, if_true]
    have hv := neg_mag_le_value c
    have := units_mono (roundUnits_le (num := v.natAbs) (n := low31 c) one_pos (by omega))
    by_cases hs : sign c = true
    · have hv : value c = -(mag c : Int) := by simp [value, hs]
      omega
    · have hv : value c = (mag c : Int) := by simp [value, hs]
      omega
  · simp only [hneg, decide_false, Bool.false_eq_true, if_false]
    by_cases hs : sign c = true
    · have hv : value c = -(mag c : Int) := by simp [value, hs]
      omega
    · have hv : value c = (mag c : Int) := by simp [value, hs]
      have := units_mono (le_roundUnits (num := v.natAbs) one_pos (isNaN_eq_false.1 hc) (by omega))
      omega

@[simp] theorem value_pack_zero (s : Bool) : value (pack s 0) = 0 := by
  rw [value_pack s (by omega)]; cases s <;> rfl

@[simp] theorem mag_pack_zero (s : Bool) : mag (pack s 0) = 0 := by
  rw [mag_pack s (by omega)]; rfl

/-- `fadd` of finite operands is not NaN. -/
theorem fadd_not_nan {a b : F} (ha : isFinite a = true) (hb : isFinite b = true) : isNaN (fadd a b) = false := by
  rw [fadd_finite ha hb]
  split
  · exact isNaN_pack _ (by omega)
  · exact isNaN_pack _ (roundUnits_le_inf _ _)

/-- An upper bound that is representable bounds the rounded sum. -/
theorem value_fadd_le {a b c : F} (ha : isFinite a = true) (hb : isFinite b = true) (hc : isNaN c = false)
    (h : value a + value b ≤ value c) : value (fadd a b) ≤ value c := by
  rw [fadd_finite ha hb]
  split
  · rename_i h0; rw [value_pack_zero]; omega
  · exact value_round_le hc h

/-- A lower bound that is representable bounds the rounded sum. -/
theorem le_value_fadd {a b c : F} (ha : isFinite a = true) (hb : isFinite b = true) (hc : isNaN c = false)
    (h : value c ≤ value a + value b) : value c ≤ value (fadd a b) := by
  rw [fadd_finite ha hb]
  split
  · rename_i h0; rw [value_pack_zero]; omega
  · exact le_value_round hc h

/-- The rounded value of an integer number of units is monotone. -/
theorem value_round_mono {u v : Int} (h : u ≤ v) :
    value (pack (decide (u < 0)) (roundUnits u.natAbs 1)) ≤ value (pack (decide (v < 0)) (roundUnits v.natAbs 1)) := by
  have hu := roundUnits_le_inf u.natAbs 1
  have hv := roundUnits_le_inf v.natAbs 1
  rw [value_pack _ (by omega), value_pack _ (by omega)]
  by_cases h1 : u < 0
  · by_cases h2 : v < 0
    · have := units_mono (roundUnits_mono (den := 1) (by omega : v.natAbs ≤ u.natAbs))
      simp only [h1, h2, decide_true, if_true]; omega
    · simp only [h1, h2, decide_true, decide_false, Bool.false_eq_true, if_true, if_false]; omega
  · have h2 : ¬ v < 0 := by omega
    have := units_mono (roundUnits_mono (den := 1) (by omega : u.natAbs ≤ v.natAbs))
    simp only [h1, h2, decide_false, Bool.false_eq_true, if_false]; omega

theorem value_fadd_eq {a b : F} (ha : isFinite a = true) (hb : isFinite b = true) :
    value (fadd a b) = value (pack (decide (value a + value b < 0)) (roundUnits (value a + value b).natAbs 1)) := by
  rw [fadd_finite ha hb]
  split
  · rename_i h0
    rw [h0, value_pack_zero]
    simp [roundUnits_zero one_pos]
  · rfl

/-- The rounded sum is monotone in the exact one (R19 P1). -/
theorem value_fadd_mono {a b c d : F} (ha : isFinite a = true) (hb : isFinite b = true) (hc : isFinite c = true)
    (hd : isFinite d = true) (h : value a + value b ≤ value c + value d) : value (fadd a b) ≤ value (fadd c d) := by
  rw [value_fadd_eq ha hb, value_fadd_eq hc hd]
  exact value_round_mono h

/-- A magnitude bound that is representable bounds the rounded sum. -/
theorem mag_fadd_le {a b c : F} (ha : isFinite a = true) (hb : isFinite b = true)
    (h : (value a + value b).natAbs ≤ mag c) : mag (fadd a b) ≤ mag c := by
  rw [fadd_finite ha hb]
  split
  · rw [mag_pack_zero]; omega
  · exact mag_le_of_value h

theorem fmul_not_nan {a b : F} (ha : isFinite a = true) (hb : isFinite b = true) : isNaN (fmul a b) = false := by
  rw [fmul_finite ha hb]; exact isNaN_pack _ (roundUnits_le_inf _ _)

theorem sign_fmul {a b : F} (ha : isFinite a = true) (hb : isFinite b = true) :
    sign (fmul a b) = (sign a != sign b) := by
  have := roundUnits_le_inf (mag a * mag b) (2 ^ 149)
  rw [fmul_finite ha hb]; exact sign_pack _ (by omega)

/-- A representable magnitude bound bounds the rounded product. -/
theorem mag_fmul_le {a b c : F} (ha : isFinite a = true) (hb : isFinite b = true)
    (h : mag a * mag b ≤ mag c * 2 ^ 149) : mag (fmul a b) ≤ mag c := by
  have := roundUnits_le_inf (mag a * mag b) (2 ^ 149)
  rw [fmul_finite ha hb, mag_pack _ (by omega)]
  exact units_mono (roundUnits_le (by positivity) h)

theorem le_mag_fmul {a b c : F} (ha : isFinite a = true) (hb : isFinite b = true) (hc : isNaN c = false)
    (h : mag c * 2 ^ 149 ≤ mag a * mag b) : mag c ≤ mag (fmul a b) := by
  have := roundUnits_le_inf (mag a * mag b) (2 ^ 149)
  rw [fmul_finite ha hb, mag_pack _ (by omega)]
  exact units_mono (le_roundUnits (by positivity) (isNaN_eq_false.1 hc) h)

theorem fdiv_not_nan {a b : F} (ha : isFinite a = true) (hb : isFinite b = true) (h0 : mag b ≠ 0) :
    isNaN (fdiv a b) = false := by
  rw [fdiv_finite ha hb h0]; exact isNaN_pack _ (roundUnits_le_inf _ _)

/-- A representable magnitude bound bounds the rounded quotient. -/
theorem mag_fdiv_le {a b c : F} (ha : isFinite a = true) (hb : isFinite b = true) (h0 : mag b ≠ 0)
    (h : mag a * 2 ^ 149 ≤ mag c * mag b) : mag (fdiv a b) ≤ mag c := by
  have := roundUnits_le_inf (mag a * 2 ^ 149) (mag b)
  rw [fdiv_finite ha hb h0, mag_pack _ (by omega)]
  exact units_mono (roundUnits_le (by omega) h)

/-- Below a finite magnitude there are only finite values. -/
theorem finite_of_mag_le {a c : F} (hc : isFinite c = true) (h : mag a ≤ mag c) : isFinite a = true := by
  rw [isFinite_iff] at hc ⊢
  exact lt_of_le_of_lt (mag_le_iff.1 h) hc

/-! ## Comparisons -/

theorem fle_iff {a b : F} : fle a b = true ↔ isNaN a = false ∧ isNaN b = false ∧ value a ≤ value b := by
  simp [fle, ordered, and_assoc]

theorem flt_iff {a b : F} : flt a b = true ↔ isNaN a = false ∧ isNaN b = false ∧ value a < value b := by
  simp [flt, ordered, and_assoc]

theorem fge_iff {a b : F} : fge a b = true ↔ isNaN a = false ∧ isNaN b = false ∧ value b ≤ value a := by
  simp [fge, ordered, and_assoc]

theorem settle_of_not_nan {bits : Word} {a : F} (h : isNaN a = false) : settle bits a = a := by
  simp [settle, h]

/-- Whatever the free word, a settled NaN is a NaN (R15). -/
theorem isNaN_nanOf (bits : Word) : isNaN (nanOf bits) = true := by
  have h := bits.isLt
  unfold nanOf
  split
  · rw [isNaN, low31_pack _ (by omega)]; decide
  · rw [isNaN, low31_pack _ (by omega)]; simp only [decide_eq_true_eq]; omega

theorem isNaN_settle (bits : Word) (a : F) : isNaN (settle bits a) = isNaN a := by
  unfold settle
  split
  · rename_i h; rw [h, isNaN_nanOf]
  · rfl

end Sys2Proof.Num
end

