-- ==== Sys2Proof/Laws/PerInstr.lean ====
section
/-! SUPPORT. Facts made per command. Family `EncodeFields`: the word of a well-formed command holds its operation code in
`OPC`, its parameter id in `PID` and zero in `MBZ` (R71). -/

namespace Sys2Proof.Laws.EncodeFields

/-- The three fields of a command's word are the command's own (R71). -/
def Statement (i : Instr) : Prop :=
  i.WellFormed → opcField (encode i) = i.opc ∧ pidField (encode i) = i.pid ∧ mbzField (encode i) = 0

/-- The fields of a word built from a small operation code and a small parameter id. -/
theorem fields_of_small {a b : Nat} (ha : a < 256) (hb : b < 256) :
    opcField (BitVec.ofNat 32 (a + 256 * b)) = a ∧ pidField (BitVec.ofNat 32 (a + 256 * b)) = b ∧
      mbzField (BitVec.ofNat 32 (a + 256 * b)) = 0 := by
  have h : (BitVec.ofNat 32 (a + 256 * b)).toNat = a + 256 * b := by
    rw [BitVec.toNat_ofNat, Nat.mod_eq_of_lt (by omega)]
  simp only [opcField, pidField, mbzField, slice, h]
  norm_num
  omega

theorem init : Statement .init := fun _ => fields_of_small (a := 1) (b := 0) (by omega) (by omega)

theorem reset : Statement .reset := fun _ => fields_of_small (a := 2) (b := 0) (by omega) (by omega)

theorem process : Statement .process := fun _ => fields_of_small (a := 3) (b := 0) (by omega) (by omega)

theorem setp (pid : Nat) : Statement (.setp pid) := fun h => fields_of_small (a := 4) (by omega) h

theorem getp (pid : Nat) : Statement (.getp pid) := fun h => fields_of_small (a := 5) (by omega) h

theorem ramp (pid : Nat) : Statement (.ramp pid) := fun h => fields_of_small (a := 6) (by omega) h

end Sys2Proof.Laws.EncodeFields
end

