-- ==== Sys2Proof/Laws/Range.lean ====
section
/-! SUPPORT. Ranges of the data path: small integers are exact in F, and every value on the address path stays finite. -/

namespace Sys2Proof.Num

/-! ## Integers of F -/

/-- Every integer up to 2^24 has a magnitude pattern (R13). -/
theorem exists_pattern_of_le {n : Nat} (h : n ≤ 16777216) : ∃ p < 2139095040, units p = n * 2 ^ 149 := by
  rcases Nat.eq_zero_or_pos n with rfl | h0
  · exact ⟨0, by omega, by simp [units]⟩
  rcases Nat.lt_or_ge n 16777216 with hlt | hge
  · have hl : n.log2 ≤ 23 := by
      have := (Nat.log2_lt (by omega : n ≠ 0)).2 (by omega : n < 2 ^ 24)
      omega
    have h1 : 2 ^ n.log2 ≤ n := Nat.log2_self_le (by omega)
    have h2 : n < 2 ^ (n.log2 + 1) := Nat.lt_log2_self
    have k1 : 8388608 ≤ n * 2 ^ (23 - n.log2) := by
      calc 8388608 = 2 ^ n.log2 * 2 ^ (23 - n.log2) := by rw [← Nat.pow_add, show n.log2 + (23 - n.log2) = 23 by omega]
        _ ≤ _ := Nat.mul_le_mul_right _ h1
    have k2 : n * 2 ^ (23 - n.log2) ≤ 16777216 := by
      calc n * 2 ^ (23 - n.log2) ≤ 2 ^ (n.log2 + 1) * 2 ^ (23 - n.log2) := Nat.mul_le_mul_right _ h2.le
        _ = 16777216 := by rw [← Nat.pow_add, show n.log2 + 1 + (23 - n.log2) = 24 by omega]
    refine ⟨(126 + n.log2) * 8388608 + n * 2 ^ (23 - n.log2), by omega, ?_⟩
    rw [units_block _ _ k2 (.inr k1), Nat.mul_assoc, ← Nat.pow_add, show 23 - n.log2 + (126 + n.log2) = 149 by omega]
  · obtain rfl : n = 16777216 := by omega
    exact ⟨149 * 8388608 + 16777216, by omega, by rw [units_block _ _ (by omega) (.inr (by omega))]⟩

/-- An exact sum of at most 2^24 in magnitude is not rounded. -/
theorem value_round_int {v : Int} {k : Int} (h : v = k * 2 ^ 149) (hk : k.natAbs ≤ 16777216) :
    value (pack (decide (v < 0)) (roundUnits v.natAbs 1)) = v ∧
    isFinite (pack (decide (v < 0)) (roundUnits v.natAbs 1)) = true := by
  obtain ⟨p, hp, hu⟩ := exists_pattern_of_le hk
  have hv : v.natAbs = units p := by rw [hu, h, Int.natAbs_mul]; rfl
  have hr : roundUnits v.natAbs 1 = p := roundUnits_exact one_pos (by omega) (by omega)
  rw [hr]
  constructor
  · rw [value_pack _ (by omega), ← hv]
    by_cases hneg : v < 0
    · simp only [hneg, decide_true, if_true]; omega
    · simp only [hneg, decide_false, Bool.false_eq_true, if_false]; omega
  · rw [isFinite_iff, low31_pack _ (by omega)]; exact hp

/-- `ofNat` is exact up to 2^24 (R13, R19 P5). -/
theorem ofNat_exact {n : Nat} (h : n ≤ 16777216) : value (ofNat n) = n * 2 ^ 149 ∧ isFinite (ofNat n) = true := by
  have := value_round_int (v := (n : Int) * 2 ^ 149) (k := n) rfl (by simpa using h)
  have e1 : decide ((n : Int) * 2 ^ 149 < 0) = false := by
    simp only [decide_eq_false_iff_not, not_lt]; positivity
  have e2 : ((n : Int) * 2 ^ 149).natAbs = n * 2 ^ 149 := by
    rw [Int.natAbs_mul]; simp
  rw [e1, e2] at this
  exact this

/-- `ofInt` is exact up to 2^24 in magnitude. -/
theorem ofInt_exact {n : Int} (h : n.natAbs ≤ 16777216) : value (ofInt n) = n * 2 ^ 149 ∧ isFinite (ofInt n) = true := by
  have := value_round_int (v := n * 2 ^ 149) (k := n) rfl h
  have e1 : decide (n * 2 ^ 149 < 0) = decide (n < 0) := by
    by_cases hn : n < 0
    · simp [hn]; omega
    · simp [hn]; omega
  have e2 : (n * 2 ^ 149).natAbs = n.natAbs * 2 ^ 149 := by
    rw [Int.natAbs_mul]; simp
  rw [e1, e2] at this
  exact this

/-- An integer sum of at most 2^24 in magnitude is exact. -/
theorem fadd_int {a b : F} {m n : Int} (ha : isFinite a = true) (hb : isFinite b = true)
    (hva : value a = m * 2 ^ 149) (hvb : value b = n * 2 ^ 149) (h : (m + n).natAbs ≤ 16777216) :
    value (fadd a b) = (m + n) * 2 ^ 149 ∧ isFinite (fadd a b) = true := by
  have hs : value a + value b = (m + n) * 2 ^ 149 := by rw [hva, hvb]; ring
  rw [fadd_finite ha hb]
  split
  · rename_i h0
    rw [value_pack_zero, ← hs, h0]
    exact ⟨rfl, by rw [isFinite_iff, low31_pack _ (by omega)]; omega⟩
  · rw [← hs]; exact value_round_int hs h

/-! ## Bounds that need no exact value -/

/-- A representable bound on the sum of the magnitudes bounds the rounded sum. -/
theorem mag_fadd_le_add {a b c : F} (ha : isFinite a = true) (hb : isFinite b = true)
    (h : mag a + mag b ≤ mag c) : mag (fadd a b) ≤ mag c := by
  refine mag_fadd_le ha hb ?_
  have := natAbs_value a
  have := natAbs_value b
  omega

/-- The same for a difference. -/
theorem mag_fsub_le_add {a b c : F} (ha : isFinite a = true) (hb : isFinite b = true)
    (h : mag a + mag b ≤ mag c) : mag (fsub a b) ≤ mag c :=
  mag_fadd_le_add ha (by simpa using hb) (by simpa using h)

/-- A factor of magnitude at most 1 does not raise a magnitude. -/
theorem mag_fmul_le_of_le_one {a b : F} (ha : isFinite a = true) (hb : isFinite b = true) (h : mag b ≤ mag one) :
    mag (fmul a b) ≤ mag a := by
  refine mag_fmul_le ha hb ?_
  have h1 : mag one = 2 ^ 149 := by decide
  rw [h1] at h
  exact Nat.mul_le_mul_left _ h

/-- The value of a non-negative finite value is its magnitude. -/
theorem mag_eq_of_nonneg {a : F} (h : 0 ≤ value a) : (mag a : Int) = value a := by
  have := natAbs_value a
  omega

theorem finite_one : isFinite one = true := by decide

/-- The floor of a finite value lies within its magnitude. -/
theorem floor_natAbs_le {a : F} {fl : Int} (h : floor a = some fl) {n : Nat} (hm : mag a ≤ n * 2 ^ 149) : fl.natAbs ≤ n := by
  unfold floor at h
  split at h
  · obtain rfl := Option.some.inj h
    have hv := natAbs_value a
    generalize value a = v at *
    have : -((n : Int) * 2 ^ 149) ≤ v ∧ v ≤ (n : Int) * 2 ^ 149 := by
      have hm' : ((v.natAbs : Nat) : Int) ≤ (n : Int) * 2 ^ 149 := by rw [hv]; exact_mod_cast hm
      omega
    have h1 : v / 2 ^ 149 ≤ n := by
      have := Int.ediv_le_ediv (by positivity : (0 : Int) < 2 ^ 149) this.2
      rwa [Int.mul_ediv_cancel _ (by positivity)] at this
    have h2 : -(n : Int) ≤ v / 2 ^ 149 := by
      have := Int.ediv_le_ediv (by positivity : (0 : Int) < 2 ^ 149) this.1
      rwa [← neg_mul, Int.mul_ediv_cancel _ (by positivity)] at this
    omega
  · cases h

/-- A finite value has a floor. -/
theorem floor_of_finite {a : F} (h : isFinite a = true) : ∃ fl, floor a = some fl := ⟨_, by simp [floor, h]; rfl⟩

/-- A finite value has a ceiling. -/
theorem ceil_of_finite {a : F} (h : isFinite a = true) : ∃ ce, ceil a = some ce := ⟨_, by simp [ceil, h]; rfl⟩

end Sys2Proof.Num

namespace Sys2Proof.Machine

/-! ## The wavetable -/

theorem sinSeries_le (t : Nat) : ∀ fuel k, sinSeries t fuel k ≤ Num.scale
  | 0, _ => Nat.le_refl _
  | _ + 1, _ => Nat.sub_le _ _

/-- Every table entry is finite and of magnitude at most 2, for every length. -/
theorem mag_table_le {n : Nat} (hn : 0 < n) (i : Nat) : Num.mag (table n i) ≤ Num.mag 0x40000000#32 := by
  have hq : quarterPattern n (min (2 * firstHalf n i) (n - 2 * firstHalf n i)) ≤ 0x40000000 := by
    have hm : 2 * min (2 * firstHalf n i) (n - 2 * firstHalf n i) ≤ n := by omega
    generalize min (2 * firstHalf n i) (n - 2 * firstHalf n i) = m at hm
    have hs : 0 < Num.scale := by unfold Num.scale; positivity
    refine Num.roundUnits_le (by positivity) ?_
    have hpi : piScaled ≤ 4 * Num.scale := by decide
    have hu : Num.units 0x40000000 = 2 * 2 ^ 149 := by decide
    rw [hu]
    calc piScaled * m * sinSeries (tableAngle n m * tableAngle n m / Num.scale) 30 1 * 2 ^ 149
        ≤ (4 * Num.scale) * m * Num.scale * 2 ^ 149 :=
          Nat.mul_le_mul_right _ (Nat.mul_le_mul (Nat.mul_le_mul_right _ hpi) (sinSeries_le _ _ _))
      _ = 2 * (2 * m) * Num.scale * Num.scale * 2 ^ 149 := by ring
      _ ≤ 2 * n * Num.scale * Num.scale * 2 ^ 149 := by gcongr
      _ = 2 * 2 ^ 149 * (n * Num.scale * Num.scale) := by ring
  unfold table
  rw [Num.mag_pack _ (by omega)]
  exact le_trans (Num.units_mono hq) (by decide)

/-- A phase of `[0, 2π)` is finite and at most 2π in magnitude. -/
theorem PhaseOk.bounds {ph : F} (h : PhaseOk ph) :
    Num.isFinite ph = true ∧ 0 ≤ Num.value ph ∧ Num.value ph < Num.value Config.twoPi ∧ Num.mag ph ≤ Num.mag Config.twoPi := by
  have h1 := (Num.fle_iff.1 h.1).2.2
  have h2 := (Num.flt_iff.1 h.2).2.2
  have h3 : Num.value Num.zero = 0 := by decide
  have h4 : Num.value Config.twoPi = Num.mag Config.twoPi := by decide
  have h5 : Num.mag ph ≤ Num.mag Config.twoPi := by
    have := Num.mag_eq_of_nonneg (a := ph) (by omega)
    omega
  exact ⟨Num.finite_of_mag_le (by decide) h5, by omega, h2, h5⟩

/-- The fractional index of a phase of `[0, 2π)` is finite and at most `ofNat(WT_N - 1)`. -/
theorem mag_tableIndex_le {n : Nat} {ph : F} (hn : Num.isFinite (Num.ofNat (n - 1)) = true) (h : PhaseOk ph) :
    Num.mag (tableIndex n ph) ≤ Num.mag (Num.ofNat (n - 1)) := by
  obtain ⟨hf, -, -, hm⟩ := h.bounds
  have h1 : Num.mag Num.one = 2 ^ 149 := by decide
  have hq : Num.mag (Num.fdiv ph Config.twoPi) ≤ Num.mag Num.one := by
    refine Num.mag_fdiv_le hf (by decide) (by decide) ?_
    rw [h1, Nat.mul_comm]
    exact Nat.mul_le_mul_left _ hm
  refine Num.mag_fmul_le (Num.finite_of_mag_le Num.finite_one hq) hn ?_
  rw [h1] at hq
  rw [Nat.mul_comm]
  exact Nat.mul_le_mul_left _ hq

/-- Interpolation keeps within a bound built from bounds `A` of the ends, `T` of the factor (R18). -/
theorem mag_lerp_le {a b t A T D P C : F} (hA : Num.isFinite A = true) (hD : Num.isFinite D = true)
    (hT : Num.isFinite T = true) (hP : Num.isFinite P = true)
    (ha : Num.mag a ≤ Num.mag A) (hb : Num.mag b ≤ Num.mag A) (ht : Num.mag t ≤ Num.mag T)
    (h1 : Num.mag A + Num.mag A ≤ Num.mag D) (h2 : Num.mag D * Num.mag T ≤ Num.mag P * 2 ^ 149)
    (h3 : Num.mag A + Num.mag P ≤ Num.mag C) : Num.mag (Num.lerp a b t) ≤ Num.mag C := by
  have fa := Num.finite_of_mag_le hA ha
  have fb := Num.finite_of_mag_le hA hb
  have ft := Num.finite_of_mag_le hT ht
  have hd : Num.mag (Num.fsub b a) ≤ Num.mag D := Num.mag_fsub_le_add fb fa (by omega)
  have hp : Num.mag (Num.fmul (Num.fsub b a) t) ≤ Num.mag P :=
    Num.mag_fmul_le (Num.finite_of_mag_le hD hd) ft (le_trans (Nat.mul_le_mul hd ht) h2)
  exact Num.mag_fadd_le_add fa (Num.finite_of_mag_le hP hp) (by omega)

/-- A finite value above 2^24 in magnitude is an integer, and its floor as a value of F is the value itself. -/
theorem value_ofInt_floor {p : F} {fl : Int} (hp : 16777216 * 2 ^ 149 < Num.mag p) (hfl : Num.floor p = some fl) :
    Num.value (Num.ofInt fl) = Num.value p ∧ Num.isFinite (Num.ofInt fl) = true := by
  have hf : Num.isFinite p = true := by
    unfold Num.floor at hfl; split at hfl
    · assumption
    · cases hfl
  have hlow := Num.isFinite_iff.1 hf
  have hdvd : 2 ^ 149 ∣ Num.mag p := by
    have h24 : Num.mag 0x4B800000#32 = 16777216 * 2 ^ 149 := by decide
    have hl : 0x4B800000 ≤ Num.low31 p := by
      have h1 : Num.low31 0x4B800000#32 = 0x4B800000 := by decide
      have := Num.mag_le_iff.1 (by omega : Num.mag 0x4B800000#32 ≤ Num.mag p)
      omega
    unfold Num.mag Num.units
    rw [if_neg (by omega)]
    exact Dvd.dvd.mul_left (Nat.pow_dvd_pow 2 (by omega)) _
  have hv : (2 : Int) ^ 149 ∣ Num.value p := by
    have h1 := Num.natAbs_value p
    rw [← h1] at hdvd
    exact Int.natCast_dvd.2 (by simpa using hdvd)
  have hfl' : fl * 2 ^ 149 = Num.value p := by
    unfold Num.floor at hfl
    rw [if_pos hf] at hfl
    rw [← Option.some.inj hfl]
    exact Int.ediv_mul_cancel hv
  have hsign : decide (fl < 0) = decide (Num.value p < 0) := by
    rw [← hfl']
    by_cases h : fl < 0
    · simp [h]; omega
    · simp [h]; omega
  have habs : fl.natAbs * 2 ^ 149 = Num.units (Num.low31 p) := by
    have := Num.natAbs_value p
    rw [← hfl', Int.natAbs_mul] at this
    exact this
  have hr : Num.roundUnits (fl.natAbs * 2 ^ 149) 1 = Num.low31 p :=
    Num.roundUnits_exact one_pos (by omega) (by omega)
  unfold Num.ofInt
  rw [hr]
  constructor
  · rw [Num.value_pack _ (by omega), hsign]
    have hm : Num.mag p = Num.units (Num.low31 p) := rfl
    have := Num.natAbs_value p
    by_cases h : Num.value p < 0
    · simp only [h, decide_true, if_true]; omega
    · simp only [h, decide_false, Bool.false_eq_true, if_false]; omega
  · rw [Num.isFinite_iff, Num.low31_pack _ (by omega)]; exact hlow

/-- What is left of a finite value after its floor is subtracted is of magnitude at most twice a whole bound on the value. -/
theorem mag_fraction_le_of_le {p c C : F} {n : Nat} {fl : Int} (hc : Num.isFinite c = true) (hn : Num.mag c = n * 2 ^ 149)
    (hC : Num.mag c + Num.mag c ≤ Num.mag C) (hp : Num.mag p ≤ Num.mag c) (hfl : Num.floor p = some fl) :
    Num.mag (Num.fsub p (Num.ofInt fl)) ≤ Num.mag C := by
  have hle := Num.floor_natAbs_le hfl (n := n) (by omega)
  have hm : Num.mag (Num.ofInt fl) ≤ Num.mag c := by
    have hr := Num.roundUnits_le_inf (fl.natAbs * 2 ^ 149) 1
    unfold Num.ofInt
    rw [Num.mag_pack _ (by omega)]
    refine Num.units_mono (Num.roundUnits_le one_pos ?_)
    have : Num.units (Num.low31 c) = Num.mag c := rfl
    rw [this, hn, Nat.mul_one]
    exact Nat.mul_le_mul_right _ hle
  exact Num.mag_fsub_le_add (Num.finite_of_mag_le hc hp) (Num.finite_of_mag_le hc hm) (by omega)

/-- What is left of any finite value after its floor is subtracted is of moderate magnitude. -/
theorem mag_fraction_le {p : F} {fl : Int} (hp : Num.isFinite p = true) (hfl : Num.floor p = some fl) :
    Num.mag (Num.fsub p (Num.ofInt fl)) ≤ Num.mag 0x4C000000#32 := by
  have h24 : Num.mag 0x4B800000#32 = 16777216 * 2 ^ 149 := by decide
  rcases Nat.lt_or_ge (16777216 * 2 ^ 149) (Num.mag p) with h | h
  · obtain ⟨hv, hf⟩ := value_ofInt_floor h hfl
    rw [Num.fsub_finite hp hf, if_pos (by omega), Num.mag_pack_zero]
    exact Nat.zero_le _
  · exact mag_fraction_le_of_le (c := 0x4B800000#32) (by decide) h24 (by decide) (by omega) hfl

/-- At a finite index the table's interpolation is the one of R92. -/
theorem tableAt_finite {n : Nat} {idx : F} {fl ce : Int} (hfl : Num.floor idx = some fl) (hce : Num.ceil idx = some ce) :
    tableAt n idx = Num.lerp (table n (clampIndex n fl)) (table n (clampIndex n ce)) (Num.fsub idx (Num.ofInt fl)) := by
  simp [tableAt, hfl, hce]

/-- A phase of `[0, 2π)` has a sample, and it is of moderate magnitude, in every instance (R92, R16). -/
theorem sampleTable_total {p : HwParams} {ph : F} (hl : Legal p) (h : PhaseOk ph) :
    ∃ sv, sampleTable p.wtN ph = some sv ∧ Num.mag sv ≤ Num.mag 0x4E800000#32 := by
  obtain ⟨-, -, ⟨hn, hfin⟩, -, -⟩ := hl
  have hf : Num.isFinite (tableIndex p.wtN ph) = true := Num.finite_of_mag_le hfin (mag_tableIndex_le hfin h)
  obtain ⟨fl, hfl⟩ := Num.floor_of_finite hf
  obtain ⟨ce, hce⟩ := Num.ceil_of_finite hf
  refine ⟨_, by rw [sampleTable, if_pos h.bounds.1], ?_⟩
  rw [tableAt_finite hfl hce]
  exact mag_lerp_le (A := 0x40000000#32) (T := 0x4C000000#32) (D := 0x40800000#32) (P := 0x4D000000#32)
    (by decide) (by decide) (by decide) (by decide) (mag_table_le (by omega) _) (mag_table_le (by omega) _)
    (mag_fraction_le hf hfl) (by decide) (by decide) (by decide)

/-! ## The derived parameters and the read offset -/

/-- `FS_INT_F` is exact and at most 2^24 for every rate INIT accepts (R6). -/
theorem fsIntF_exact {fs : Nat} (h : LegalRate fs) :
    Num.value (fsIntF fs) = (4 * fs : Nat) * 2 ^ 149 ∧ Num.isFinite (fsIntF fs) = true := by
  simp only [LegalRate, Config.minRate, Config.maxRate] at h
  exact Num.ofNat_exact (n := 4 * fs) (by omega)

/-- A value of `[0,1]` is finite, at most 1, and not negative. -/
theorem In01.bounds {v : F} (h : In01 v) :
    Num.isFinite v = true ∧ 0 ≤ Num.value v ∧ Num.value v ≤ 2 ^ 149 ∧ Num.mag v ≤ Num.mag Num.one := by
  have h1 := (Num.fle_iff.1 h.1).2.2
  have h2 := (Num.fle_iff.1 h.2).2.2
  have h3 : Num.value Num.zero = 0 := by decide
  have h4 : Num.value Num.one = 2 ^ 149 := by decide
  have h5 : Num.mag Num.one = 2 ^ 149 := by decide
  have h6 := Num.mag_eq_of_nonneg (a := v) (by omega)
  have h7 : Num.mag v ≤ Num.mag Num.one := by omega
  exact ⟨Num.finite_of_mag_le Num.finite_one h7, by omega, by omega, h7⟩

/-- The modulation depth in slots is finite and below 2^17 (R114). -/
theorem mag_depthSamples_le {fs : Nat} {d : F} (hr : LegalRate fs) (hd : In01 d) :
    Num.mag (depthSamples fs d) ≤ Num.mag 0x48000000#32 := by
  obtain ⟨hf, -, -, hm⟩ := hd.bounds
  have h2 : Num.mag (Num.fmul d d) ≤ Num.mag Num.one := le_trans (Num.mag_fmul_le_of_le_one hf hf hm) hm
  have f2 := Num.finite_of_mag_le Num.finite_one h2
  have h3 : Num.mag (Num.fmul (Num.fmul d d) d) ≤ Num.mag Num.one := le_trans (Num.mag_fmul_le_of_le_one f2 hf hm) h2
  have f3 := Num.finite_of_mag_le Num.finite_one h3
  have h4 : Num.mag (Num.fmul (Num.fmul (Num.fmul d d) d) Config.maxDepthS) ≤ Num.mag Config.maxDepthS := by
    refine Num.mag_fmul_le f3 (by decide) ?_
    have h1 : Num.mag Num.one = 2 ^ 149 := by decide
    rw [h1] at h3
    rw [Nat.mul_comm]
    exact Nat.mul_le_mul_left _ h3
  obtain ⟨hv, hfs⟩ := fsIntF_exact hr
  have hmf : Num.mag (fsIntF fs) ≤ 16777216 * 2 ^ 149 := by
    simp only [LegalRate, Config.minRate, Config.maxRate] at hr
    have := Num.mag_eq_of_nonneg (a := fsIntF fs) (by rw [hv]; positivity)
    have hle : (4 * fs : Nat) * (2 : Int) ^ 149 ≤ 16777216 * 2 ^ 149 := by
      have : ((4 * fs : Nat) : Int) ≤ 16777216 := by omega
      exact Int.mul_le_mul_of_nonneg_right this (by positivity)
    omega
  unfold depthSamples
  refine Num.mag_fmul_le (Num.finite_of_mag_le (by decide) h4) hfs (le_trans (Nat.mul_le_mul h4 hmf) (by decide))

/-- The predelay is finite and at most 2^24 (R6). -/
theorem mag_predelay_le {fs : Nat} (h : LegalRate fs) : Num.mag (predelay fs) ≤ Num.mag 0x4B800000#32 := by
  simp only [LegalRate, Config.minRate, Config.maxRate] at h
  have hr := Num.roundUnits_le_inf (fsInt fs * 2 ^ 149) 100
  unfold predelay Num.rnRat
  rw [Num.mag_pack _ (by omega)]
  refine Num.units_mono (Num.roundUnits_le (by omega) ?_)
  have : Num.units (Num.low31 0x4B800000#32) = 16777216 * 2 ^ 149 := by decide
  rw [this]
  unfold fsInt Config.oversample
  omega

/-- The read offset is finite and below 2^50 (R115). -/
theorem mag_lfoOffset_le {fs : Nat} {sv d : F} {dl : Bool} (h : LegalRate fs) (hs : Num.mag sv ≤ Num.mag 0x4E800000#32)
    (hd : Num.mag d ≤ Num.mag 0x48000000#32) : Num.mag (lfoOffset fs sv d dl) ≤ Num.mag 0x58000000#32 := by
  have fs' := Num.finite_of_mag_le (c := 0x4E800000#32) (by decide) hs
  have fd := Num.finite_of_mag_le (c := 0x48000000#32) (by decide) hd
  have h1 : Num.mag (Num.fadd sv Num.one) ≤ Num.mag 0x4F000000#32 :=
    Num.mag_fadd_le_add fs' Num.finite_one (le_trans (Nat.add_le_add_right hs _) (by decide))
  have f1 := Num.finite_of_mag_le (c := 0x4F000000#32) (by decide) h1
  have h2 : Num.mag (Num.fmul (Num.fadd sv Num.one) Num.half) ≤ Num.mag 0x4F000000#32 :=
    le_trans (Num.mag_fmul_le_of_le_one f1 (by decide) (by decide)) h1
  have f2 := Num.finite_of_mag_le (c := 0x4F000000#32) (by decide) h2
  have h3 : Num.mag (Num.fmul (Num.fmul (Num.fadd sv Num.one) Num.half) d) ≤ Num.mag 0x57800000#32 :=
    Num.mag_fmul_le f2 fd (le_trans (Nat.mul_le_mul h2 hd) (by decide))
  have f3 := Num.finite_of_mag_le (c := 0x57800000#32) (by decide) h3
  unfold lfoOffset
  split
  · have hp := mag_predelay_le h
    exact Num.mag_fadd_le_add f3 (Num.finite_of_mag_le (by decide) hp) (le_trans (Nat.add_le_add h3 hp) (by decide))
  · exact le_trans h3 (by decide)

/-! ## The read position and the delayed signal -/

/-- An integer of F up to 2^24 has its magnitude. -/
theorem mag_ofNat {n : Nat} (h : n ≤ 16777216) : Num.mag (Num.ofNat n) = n * 2 ^ 149 := by
  have := Num.natAbs_value (Num.ofNat n)
  rw [(Num.ofNat_exact h).1, Int.natAbs_mul] at this
  simpa using this.symm

/-- The read position is finite (R131, R16). -/
theorem mag_readPosition_le {b w : Nat} {off : F} (hb : b ≤ 16777216) (hw : w < b)
    (ho : Num.mag off ≤ Num.mag 0x58000000#32) : Num.mag (readPosition b w off) ≤ Num.mag 0x59000000#32 := by
  have fo := Num.finite_of_mag_le (c := 0x58000000#32) (by decide) ho
  have h24 : Num.mag 0x4B800000#32 = 16777216 * 2 ^ 149 := by decide
  have hmw : Num.mag (Num.ofNat w) ≤ Num.mag 0x4B800000#32 := by
    rw [mag_ofNat (by omega), h24]; exact Nat.mul_le_mul_right _ (by omega)
  have hmb : Num.mag (Num.ofNat b) ≤ Num.mag 0x4B800000#32 := by
    rw [mag_ofNat (by omega), h24]; exact Nat.mul_le_mul_right _ (by omega)
  have h1 : Num.mag (Num.fsub (Num.ofNat w) off) ≤ Num.mag 0x58800000#32 :=
    Num.mag_fsub_le_add (Num.ofNat_exact (by omega)).2 fo (le_trans (Nat.add_le_add hmw ho) (by decide))
  unfold readPosition
  split
  · exact Num.mag_fadd_le_add (Num.finite_of_mag_le (by decide) h1) (Num.ofNat_exact (by omega)).2
      (le_trans (Nat.add_le_add h1 hmb) (by decide))
  · exact le_trans h1 (by decide)

/-- The delayed signal exists whatever the delay words are (R16). -/
theorem delayedSignal_total {dly : Memory} {b : Nat} {p : F} (hp : Num.isFinite p = true) :
    ∃ d, delayedSignal dly b p = some d := by
  obtain ⟨fl, hfl⟩ := Num.floor_of_finite hp
  obtain ⟨ce, hce⟩ := Num.ceil_of_finite hp
  exact ⟨_, by simp only [delayedSignal, hfl, hce]; rfl⟩

/-- Delay words of magnitude at most 1 give a finite delayed signal. -/
theorem mag_delayedSignal_le {dly : Memory} {b : Nat} {p d : F} (hp : Num.mag p ≤ Num.mag 0x59000000#32)
    (hw : ∀ k, AtMost1 (readWord dly k)) (h : delayedSignal dly b p = some d) : Num.mag d ≤ Num.mag 0x5B000000#32 := by
  unfold delayedSignal at h
  cases hfl : Num.floor p with
  | none => simp [hfl] at h
  | some fl =>
    cases hce : Num.ceil p with
    | none => simp [hfl, hce] at h
    | some ce =>
      simp only [hfl, hce, Option.some.injEq] at h
      subst h
      exact mag_lerp_le (A := Num.one) (T := 0x4C000000#32) (D := 0x40000000#32) (P := 0x5A000000#32)
        (by decide) (by decide) (by decide) (by decide) (hw _) (hw _)
        (mag_fraction_le (Num.finite_of_mag_le (c := 0x59000000#32) (by decide) hp) hfl) (by decide) (by decide) (by decide)

/-! ## Rampers -/

/-- CLAMP01 always gives a value of `[0,1]` (R17). -/
theorem in01_clamp (a : F) : In01 (Num.clamp01 a) := by
  have z : In01 Num.zero := ⟨by decide, by decide⟩
  have o : In01 Num.one := ⟨by decide, by decide⟩
  unfold Num.clamp01
  split
  · exact z
  · rename_i hn
    have hn : Num.isNaN a = false := by simpa using hn
    split
    · exact z
    · split
      · exact o
      · rename_i h0 h1
        have z' : Num.isNaN Num.zero = false := by decide
        have o' : Num.isNaN Num.one = false := by decide
        rw [Num.flt_iff] at h0 h1
        refine ⟨Num.fle_iff.2 ⟨z', hn, ?_⟩, Num.fle_iff.2 ⟨hn, o', ?_⟩⟩
        · by_contra hc; exact h0 ⟨hn, z', by omega⟩
        · by_contra hc; exact h1 ⟨o', hn, by omega⟩

/-- The current value of a ramper that meets R27 lies in `[0,1]` (R101). -/
theorem in01_cur {r : Ramper} (h : r.Ok) : In01 (cur r) := by
  unfold cur
  split
  · exact h.goal
  · exact in01_clamp _

/-- The difference of two values of `[0,1]` is of magnitude at most 1. -/
theorem mag_fsub_in01 {a b : F} (ha : In01 a) (hb : In01 b) : Num.mag (Num.fsub a b) ≤ Num.mag Num.one := by
  obtain ⟨fa, a0, a1, -⟩ := ha.bounds
  obtain ⟨fb, b0, b1, -⟩ := hb.bounds
  refine Num.mag_fadd_le fa (by simpa using fb) ?_
  have : Num.mag Num.one = 2 ^ 149 := by decide
  rw [Num.value_neg]
  omega

/-! ## A channel of a frame -/

/-- Every host rate INIT accepts gives a legal buffer size in every instance (R7). -/
theorem bufSize_legal {p : HwParams} {fs : Nat} (hl : Legal p) (h : LegalRate fs) : LegalBufSize (fsInt fs) (bufSize p fs) := by
  unfold bufSize
  cases hk : p.bufSizes.lookup (fsInt fs) with
  | none =>
    simp only [LegalRate, Config.minRate, Config.maxRate] at h
    simp only [Option.getD_none, LegalBufSize, fsInt, Config.oversample]
    omega
  | some b =>
    have hm : (fsInt fs, b) ∈ p.bufSizes := by
      obtain ⟨l1, l2, hs, -⟩ := List.lookup_eq_some_iff.1 hk
      rw [hs]; simp
    have hd : fsInt fs / Config.oversample = fs := by simp only [fsInt, Config.oversample]; omega
    exact hl.2.2.2.1 _ hm (by simp only [fsInt, Config.oversample]; omega) (by rw [hd]; exact h)

/-- The delay buffer of a legal rate fits F's integers (R7). -/
theorem bufSize_le {p : HwParams} {fs : Nat} (hl : Legal p) (h : LegalRate fs) : bufSize p fs ≤ 16777216 :=
  (bufSize_legal hl h).2.2

/-- The read position of a channel that meets its invariant is finite (R16, R30). -/
theorem mag_channelPosition_le {p : HwParams} {fs : Nat} {ch : Channel} {sv d : F} {dl : Bool} (hl : Legal p)
    (hr : LegalRate fs) (hc : Channel.Ok p fs ch)
    (hs : Num.mag sv ≤ Num.mag 0x4E800000#32) (hd : Num.mag d ≤ Num.mag 0x48000000#32) :
    Num.mag (readPosition (bufSize p fs) ch.wpos (lfoOffset fs sv d dl)) ≤ Num.mag 0x59000000#32 :=
  mag_readPosition_le (bufSize_le hl hr) hc.wpos (mag_lfoOffset_le hr hs hd)

/-- What a channel of a frame gives from a state that meets the invariants: the channel's own step, at a finite read
position, with a delayed signal that exists whatever the samples are (R112, R138). -/
theorem channelFrame_inv {s : State} (h : s.Inv) (hb : s.lifecycle = .busy) {ch : Channel} (hc : ch ∈ s.chans) (c : Nat)
    (x : F) : ∃ p d, Num.mag p ≤ Num.mag 0x59000000#32 ∧
      delayedSignal (delayWrite ch.dly ch.wpos x) (bufSize s.params s.fsHost) p = some d ∧
      channelFrame (frameParams s) c ch x = .next
        ({ dly := feedbackWrite (fbOn s) (frameNaN s.draws c 1) (delayWrite ch.dly ch.wpos x) ch.wpos d
           wpos := advance (bufSize s.params s.fsHost) ch.wpos
           phase := Num.settle (frameNaN s.draws c 2)
            (wrap2Pi (Num.fadd ch.phase (phaseInc s.fsHost (cur s.rampRate)))) },
         Num.settle (frameNaN s.draws c 0) (mixOutput x (wetSignal d x) (cur s.rampMix))) := by
  have hcfg := h.configured (by rw [hb]; decide)
  have hch := h.channel ch hc
  obtain ⟨sv, hsv, hm⟩ := sampleTable_total h.legal hch.phase
  have hp := mag_channelPosition_le (dl := dlOn s) h.legal hcfg.rate hch hm (mag_depthSamples_le hcfg.rate (in01_cur h.depth))
  obtain ⟨d, hd⟩ := delayedSignal_total (dly := delayWrite ch.dly ch.wpos x) (b := bufSize s.params s.fsHost)
    (Num.finite_of_mag_le (c := 0x59000000#32) (by decide) hp)
  exact ⟨_, d, hp, hd, channelFrame_eq_next.2 ⟨sv, hsv, chanStep_eq_next.2 ⟨hch.wpos, d, hd, rfl⟩⟩⟩

end Sys2Proof.Machine
end

