-- ==== Sys2Proof/Tests/Slice0.lean ====
section
/-! SUPPORT. Tests of the model against words, tables and vectors the spec writes out, and for every statement of
Certificates/Slice0/Obligations.lean that has hypotheses a concrete state and operands that meet them all. Each test names
its source in spec/. -/

namespace Sys2Proof.Tests

open Sys2Proof Sys2Proof.Machine

/-! ## Well-formedness: each check refuses an ill-formed term -/

theorem test_setp_pid_too_wide : ¬ (Instr.setp 256).WellFormed := by decide
theorem test_getp_pid_too_wide : ¬ (Instr.getp 256).WellFormed := by decide
theorem test_ramp_pid_too_wide : ¬ (Instr.ramp 256).WellFormed := by decide
theorem test_widest_pid_is_well_formed : (Instr.setp 255).WellFormed := by decide

/-- R7: a size of 1, a size below `ceil(0.015 * FS_INT) + 2`, and a size above 2^24 are no legal instance. -/
theorem test_illegal_buffer_sizes :
    ¬ LegalBufSize 24 1 ∧ ¬ LegalBufSize 4000 61 ∧ LegalBufSize 4000 62 ∧ ¬ LegalBufSize 4000 16777217 := by decide

/-- R6, R7 and 92_eei_decisions.md section 1: each constraint on the open parameters refuses an instance that breaks it, and a
machine that is not legal is not built (R184). -/
theorem test_illegal_instances :
    ¬ Legal ⟨0, 33554432, 4294967296, 65536, []⟩ ∧ ¬ Legal ⟨2, 33554432, 0, 65536, []⟩ ∧
    ¬ Legal ⟨2, 33554432, 4294967297, 65536, []⟩ ∧ ¬ Legal ⟨2, 33554432, 4294967296, 1, []⟩ ∧
    ¬ Legal ⟨2, 23, 4294967296, 65536, []⟩ ∧ ¬ Legal ⟨2, 33554432, 4294967296, 65536, [(4000, 61)]⟩ ∧
    powerOn ⟨2, 33554432, 4294967296, 65536, [(24, 1)]⟩ = none :=
  ⟨by decide, by decide, by decide, by decide, by decide, by decide, by decide⟩

/-- An instance at the lower ends of the ranges, with buffers as short as R7 allows at two rates. -/
def smallHw : HwParams := { maxCh := 1, dlyRamWords := 62, hostBufLen := 1, wtN := 2, bufSizes := [(24, 3), (4000, 62)] }

/-- R6, R7: the default instance and the small one are legal; the small one's buffer sizes are its own at two rates and the
default at any other. -/
theorem test_legal_instances :
    Legal .default ∧ Legal smallHw ∧ powerOn .default = some State.reset ∧
    (bufSize smallHw 6, bufSize smallHw 1000, bufSize smallHw 44100) = (3, 62, 176400) := by decide

/-- R6: 6 and 4194304 are the ends of the range INIT accepts. -/
theorem test_rate_range : ¬ LegalRate 5 ∧ LegalRate 6 ∧ LegalRate 4194304 ∧ ¬ LegalRate 4194305 := by decide

/-! ## Decoding: words written out bit by bit from R71 and R74, and 95_test_vectors.md section 6.1 -/

theorem test_decode_init : decode (0#16 ++ 0#8 ++ 0b00000001#8) = .ok .init := by decide
theorem test_decode_reset : decode (0#16 ++ 0#8 ++ 0b00000010#8) = .ok .reset := by decide
theorem test_decode_process : decode (0#16 ++ 0#8 ++ 0b00000011#8) = .ok .process := by decide
theorem test_decode_setp : decode (0#16 ++ 0b00001001#8 ++ 0b00000100#8) = .ok (.setp 9) := by decide
theorem test_decode_getp : decode (0#16 ++ 0b11111111#8 ++ 0b00000101#8) = .ok (.getp 255) := by decide
theorem test_decode_ramp : decode (0#16 ++ 0b00000010#8 ++ 0b00000110#8) = .ok (.ramp 2) := by decide

theorem test_decode_reserved_opcode :
    decode 0x00000000#32 = .error .reservedOpcode ∧ decode 0x00000007#32 = .error .reservedOpcode ∧
    decode 0x000000FF#32 = .error .reservedOpcode := by decide

theorem test_decode_pid_must_be_zero :
    decode 0x00000101#32 = .error .pidNotZero ∧ decode 0x00000102#32 = .error .pidNotZero ∧
    decode 0x0000FF03#32 = .error .pidNotZero := by decide

theorem test_decode_mbz :
    decode 0x00010004#32 = .error .mbzNotZero ∧ decode 0x80000005#32 = .error .mbzNotZero ∧
    decode 0xFFFFFFFF#32 = .error .mbzNotZero := by decide

theorem test_encode_words :
    encode .init = 0x00000001#32 ∧ encode .reset = 0x00000002#32 ∧ encode .process = 0x00000003#32 ∧
    encode (.setp 4) = 0x00000404#32 ∧ encode (.getp 4) = 0x00000405#32 ∧ encode (.ramp 200) = 0x0000C806#32 := by decide

theorem test_decodeTableWord : decodeTableWord 32 0x00000204 = some (.setp 2) ∧ decodeTableWord 32 0x00010004 = none := by
  decide

/-! ## Numerics: 95_test_vectors.md sections 3, 4 and 5.1 -/

/-- Section 4.1. -/
theorem test_clamp01 :
    Num.clamp01 0x3FC00000#32 = 0x3F800000#32 ∧ Num.clamp01 0xBE800000#32 = 0x00000000#32 ∧
    Num.clamp01 0x7FC00000#32 = 0x00000000#32 ∧ Num.clamp01 0x80000000#32 = 0x80000000#32 ∧
    Num.clamp01 0x7F800000#32 = 0x3F800000#32 ∧ Num.clamp01 0xFF800000#32 = 0x00000000#32 ∧
    Num.clamp01 0x3F800001#32 = 0x3F800000#32 ∧ Num.clamp01 0x00000001#32 = 0x00000001#32 := by decide

/-- Section 4.2: the corners and three values the series computes. -/
theorem test_tanh :
    Num.tanh 0x80000000#32 = 0x80000000#32 ∧ Num.tanh 0x00000001#32 = 0x00000001#32 ∧
    Num.tanh 0x3A83126F#32 = 0x3A83126C#32 ∧ Num.tanh 0x3F000000#32 = 0x3EEC9A9F#32 ∧
    Num.tanh 0xBF800000#32 = 0xBF42F7D6#32 ∧ Num.tanh 0x41100000#32 = 0x3F7FFFFF#32 ∧
    Num.tanh 0x41180000#32 = 0x3F800000#32 ∧ Num.tanh 0xFF800000#32 = 0xBF800000#32 := by decide +kernel

/-- Section 4.3. -/
theorem test_lerp :
    Num.lerp 0x3F800000#32 0xBF800000#32 0x3E800000#32 = 0x3F000000#32 ∧
    Num.lerp 0x00000000#32 0x38C90FDB#32 0x3F51B646#32 = 0x38A4B51A#32 ∧
    Num.lerp 0x3DCCCCCD#32 0x3E4CCCCD#32 0x3F7FFFFF#32 = 0x3E4CCCCC#32 ∧
    Num.lerp 0x80000000#32 0x80000000#32 0x3F000000#32 = 0x00000000#32 := by decide

/-- Section 4.4. -/
theorem test_comparisons :
    Num.flt 0x80000000#32 0x00000000#32 = false ∧ Num.fge 0x80000000#32 0x00000000#32 = true ∧
    Num.fne 0x7FC00000#32 0x7FC00000#32 = true ∧ Num.fge 0x7FC00000#32 0x3F000000#32 = false ∧
    Num.fge 0x3F000000#32 0x3F000000#32 = true ∧ Num.fge 0x3EFFFFFF#32 0x3F000000#32 = false := by decide

/-- Section 4.5: each constant is its decimal literal rounded once. -/
theorem test_constants :
    Num.rnRat 5 1000 = Config.maxDepthS ∧ Num.rnRat 5 100 = Config.minRateHz ∧ Num.rnRat 20 1 = Config.maxRateHz ∧
    Num.rnRat 8 10 = Config.fbGain ∧ Num.rnRat 103 100 = Config.clipGain ∧
    Num.rnRat (2 * piScaled) Num.scale = Config.twoPi ∧ rateSpan = 0x419F999A#32 ∧
    Num.ofNat 65535 = 0x477FFF00#32 := by decide

/-- Overflow goes to infinity, an infinite difference and `0/0` to NaN, and a sum rounds ties to even (IEEE 754, R13). -/
theorem test_special_values :
    Num.fadd 0x7F7FFFFF#32 0x7F7FFFFF#32 = 0x7F800000#32 ∧
    Num.isNaN (Num.fsub 0x7F800000#32 0x7F800000#32) = true ∧ Num.isNaN (Num.fdiv 0#32 0#32) = true ∧
    Num.fadd 0x4B800000#32 0x3F800000#32 = 0x4B800000#32 ∧ Num.fadd 0x4B800001#32 0x3F800000#32 = 0x4B800002#32 := by
  decide

/-- Section 3. -/
theorem test_table :
    table 65536 1 = 0x38C90FDB#32 ∧ table 65536 1000 = 0x3DC40C83#32 ∧ table 65536 16382 = 0x3F800000#32 ∧ table 65536 30000 = 0x3E8648DF#32 ∧
    table 65536 32768 = 0x00000000#32 ∧ table 65536 40000 = 0xBF239DA9#32 ∧ table 65536 65533 = 0xB996CBE4#32 := by decide

/-- R90: the quarter points of a table of another length, and sin(π/6) at index 1 of 12. -/
theorem test_table_other_length :
    (List.range 4).map (table 4) = [0x00000000#32, 0x3F800000#32, 0x00000000#32, 0xBF800000#32] ∧
    table 12 1 = 0x3F000000#32 ∧ table 12 7 = 0xBF000000#32 := by decide

/-- R93: a finite phase so large that the index overflows saturates, on either side. -/
theorem test_sampleTable_saturates :
    sampleTable 65536 0x7F7FFFFF#32 = some 0xB8C90FDB#32 ∧ sampleTable 65536 0xFF7FFFFF#32 = some 0x00000000#32 := by
  decide +kernel

/-- Section 5.1: inside the range, its top, and the two clamps. -/
theorem test_sampleTable :
    sampleTable 65536 0x3F000000#32 = some 0x3EF57663#32 ∧ sampleTable 65536 0x40C90FDA#32 = some 0xB8C9D8EB#32 ∧
    sampleTable 65536 0x40E00000#32 = some 0xB8C90FDB#32 ∧ sampleTable 65536 0xBF800000#32 = some 0x00000000#32 ∧
    sampleTable 65536 0x7F800000#32 = none := by decide

/-! ## Unit operations: 95_test_vectors.md sections 5.2 to 5.4 -/

/-- Section 5.2 items 1, 2, 7 and 8. -/
theorem test_startRamp :
    startRamp 0#32 ⟨0#32, 0#32, 0#32, 0#32⟩ 0x3F800000#32 4#32 = ⟨0x3F800000#32, 0x3F800000#32, 0xBE800000#32, 4#32⟩ ∧
    startRamp 0#32 ⟨0x3F800000#32, 0x3F800000#32, 0xBE800000#32, 2#32⟩ 0x3E800000#32 3#32 =
      ⟨0x3E800000#32, 0x3E800000#32, 0x3DAAAAAB#32, 3#32⟩ ∧
    startRamp 0#32 ⟨0x3F800000#32, 0x3F800000#32, 0xBE800000#32, 2#32⟩ 0x3E800000#32 0#32 =
      ⟨0x3E800000#32, 0x3E800000#32, 0#32, 0#32⟩ ∧
    (startRamp 0#32 ⟨0#32, 0#32, 0#32, 0#32⟩ 0x3F800000#32 0xFFFFFFFF#32).slope = 0xAF800000#32 := by decide +kernel

/-- Section 5.2 item 4: the values of a ramp of three samples. -/
theorem test_getAndStep :
    (getAndStep ⟨0x3F800000#32, 0x3F800000#32, 0xBEAAAAAB#32, 3#32⟩) =
      (0x00000000#32, ⟨0x3F800000#32, 0x3F800000#32, 0xBEAAAAAB#32, 2#32⟩) ∧
    cur ⟨0x3F800000#32, 0x3F800000#32, 0xBEAAAAAB#32, 1#32⟩ = 0x3F2AAAAA#32 ∧
    cur ⟨0x3F800000#32, 0x3F800000#32, 0xBEAAAAAB#32, 0#32⟩ = 0x3F800000#32 := by decide

/-- Section 5.2 items 3 and 11. -/
theorem test_dezipperCheck :
    dezipperCheck 0#32 ⟨0x3F400000#32, 0x3E800000#32, 0#32, 0#32⟩ 3528#32 =
      ⟨0x3F400000#32, 0x3F400000#32, 0xB9149B93#32, 3528#32⟩ ∧
    dezipperCheck 0#32 (setUIValue ⟨0x3F800000#32, 0x3F800000#32, 0xBC4CCCCD#32, 76#32⟩ 0x3E800000#32) 80#32 =
      ⟨0x3E800000#32, 0x3F800000#32, 0xBC4CCCCD#32, 76#32⟩ := by decide

/-- Section 5.3: the constants of a host rate, the depth, the frequency and the increment. -/
theorem test_lfo_quantities :
    phaseK 44100 = 0x38156593#32 ∧ predelay 10 = 0x3ECCCCCD#32 ∧ dezipMix 1000 = 80#32 ∧ dezipRate 6 = 2#32 ∧
    depthSamples 48000 0x3F000000#32 = 0x42F00000#32 ∧ lfoFreq 0x3F400000#32 = 0x40CB9801#32 ∧
    phaseInc 6 0x3F800000#32 = 0x40A78D36#32 ∧ phaseInc 4194304 0#32 = 0x32A0D97C#32 := by decide

/-- Section 5.3: LFOOFFSET with and without the predelay, and WRAP2PI with and without a wrap. -/
theorem test_offset_and_wrap :
    lfoOffset 1000 0x38A4B51A#32 0x41A00000#32 true = 0x424800CE#32 ∧
    lfoOffset 10 0x3D00A811#32 0x40200000#32 false = 0x3FA50691#32 ∧
    wrap2Pi (Num.fadd 0x408BECB1#32 0x40490FDB#32) = 0x3F9D930C#32 ∧
    wrap2Pi (Num.fadd 0x3F9D930F#32 0x40490FDB#32) = 0x408BECB1#32 := by decide

/-- Buffer C of section 5.4. -/
def bufferC : Memory :=
  [0x3E000000#32, 0x3E800000#32, 0x3EC00000#32, 0x3F000000#32, 0x3F200000#32, 0x3F400000#32, 0x3F600000#32,
    0xBF000000#32].zipIdx.foldl (fun m e => writeWord m e.2 e.1) []

/-- The output, the slot and the position a channel step of section 5.4 leaves. -/
def chanRow (dly : Memory) (w : Nat) (x off mix : F) (fb : Bool) : Option (F × F × Nat) :=
  match chanStep 8 ⟨dly, w, 0#32⟩ x off mix fb 0#32 0#32 with
  | .next (ch, y) => some (y, readWord ch.dly w, ch.wpos)
  | .fault _ => none
  | .refused _ => none

/-- Section 5.4 rows 1, 2, 3 and 5: the position that rounds to `B`, the wrap of `WPOS`, the read across the seam, the
feedback. -/
theorem test_chanStep :
    chanRow [] 0 0x3F000000#32 0x322BCC77#32 0x3F800000#32 false = some (0x3F48D131#32, 0x3F000000#32, 1) ∧
    chanRow [] 7 0x3F000000#32 0#32 0x3F800000#32 true = some (0x3F48D131#32, 0x3F375F4C#32, 0) ∧
    chanRow bufferC 0 0x3F800000#32 0x3F000000#32 0x3F000000#32 true = some (0x3F6FD674#32, 0x3F556A64#32, 1) ∧
    chanRow bufferC 7 0x3E800000#32 0x40300000#32 0x3E800000#32 true = some (0x3EBED60D#32, 0x3F265B18#32, 0) := by
  decide +kernel

/-- Section 5.4 rows 4, 7 and 8: a negative sample, a negative zero, and an infinite sample, whose output is NaN while the
engine goes on. -/
theorem test_chanStep_corners :
    chanRow bufferC 3 0xBF800000#32 0x40000000#32 0x3F800000#32 false = some (0xBF2779E0#32, 0xBF800000#32, 4) ∧
    chanRow [] 2 0x80000000#32 0#32 0#32 false = some (0x00000000#32, 0x80000000#32, 3) ∧
    (chanRow bufferC 5 0x7F800000#32 0x3F800000#32 0x3F000000#32 false).map
      (fun r => (Num.isNaN r.1, r.2.1, r.2.2)) = some (true, 0x7F800000#32, 6) := by decide +kernel

/-! ## Concrete states -/

/-- A ramper idle at a value. -/
def idle (v : F) : Ramper := ⟨v, v, 0#32, 0#32⟩

/-- A ready engine of one channel at 1000 Hz, Mix 1, everything else 0. -/
def exReady : State :=
  { State.reset with
    lifecycle := .ready
    nch := 1
    fsHost := 1000
    rampMix := idle 0x3F800000#32
    rampRate := idle 0#32
    rampDepth := idle 0#32
    chans := [⟨[], 0, 0#32⟩] }

/-- `exReady` in a block of two frames with the input of 95_test_vectors.md section 8.1, 0.5 and 0.25. -/
def exBusy : State :=
  { exReady with
    lifecycle := .busy
    blkCount := 2#32
    inMem := writeWord (writeWord [] 0 0x3F000000#32) 1 0x3E800000#32 }

/-- `exBusy` with its one channel twice, the second with its own input words (0.0, as nothing is written there). -/
def exBusyTwo : State := { exBusy with nch := 2, chans := [⟨[], 0, 0#32⟩, ⟨[], 0, 0#32⟩] }

/-- What a step answers with, read by a function; none when it stops. -/
def after {α : Type} (o : Host.Outcome State Fault Refusal) (f : State → α) : Option α :=
  match o with
  | .next t => some (f t)
  | .fault _ => none
  | .refused _ => none

/-- A state whose next step writes a command word. -/
def commanded (s : State) (w : Word) (a0 a1 : Word) : State := ({ s with arg0 := a0, arg1 := a1 }).withFetchWord 32 w.toNat

/-! ## One step per command: 95_test_vectors.md sections 6.2 to 6.5 and program P6 -/

/-- Section 6.2: `INIT 2, 44100` is accepted. -/
theorem test_step_init :
    after (step (commanded State.reset 0x00000001#32 2#32 44100#32)) (fun t => (statusWord t, regRead t 5, regRead t 6)) =
      some (0x00000001#32, 2#32, 44100#32) := by decide

/-- Section 6.2: the refusals of INIT in their order. -/
theorem test_step_init_refused :
    (after (step (commanded State.reset 1#32 0#32 0#32)) statusWord,
     after (step (commanded State.reset 1#32 1#32 0#32)) statusWord,
     after (step (commanded State.reset 1#32 3#32 5#32)) statusWord,
     after (step (commanded State.reset 1#32 3#32 44100#32)) statusWord) =
    (some 0x00010100#32, some 0x00020200#32, some 0x00040400#32, some 0x00030300#32) := by decide

/-- Section 6.3: RESET clears the position and the phase, keeps a ramp in progress and `ERR`. -/
theorem test_step_reset :
    after (step (commanded { exReady with
        err := .illegal, last := .illegal, rampMix := ⟨0x3F800000#32, 0x3F800000#32, 0xBC4CCCCD#32, 30#32⟩
        chans := [⟨writeWord [] 5 0x3F000000#32, 137, 0x3F000000#32⟩] } 2#32 0#32 0#32))
      (fun t => (statusWord t, t.chans.map fun ch => (ch.wpos, ch.phase, readWord ch.dly 5), t.rampMix.rem)) =
    some (0x00000501#32, [(0, 0#32, 0#32)], 30#32) := by decide

/-- Section 6.4: `PROCESS 4, 0` starts the Mix dezipper over 80 samples. -/
theorem test_step_process :
    after (step (commanded { exReady with rampMix := ⟨0x3F800000#32, 0#32, 0#32, 0#32⟩ } 3#32 4#32 0#32))
      (fun t => (statusWord t, t.blkCount, t.blkF, t.rampMix)) =
    some (0x00000002#32, 4#32, 0#32, ⟨0x3F800000#32, 0x3F800000#32, 0xBC4CCCCD#32, 80#32⟩) := by decide

/-- Section 6.4: the range check at its boundary, and a block of no frames. -/
theorem test_step_process_range :
    (after (step (commanded exReady 3#32 2#32 0xFFFFFFFF#32)) statusWord,
     after (step (commanded exReady 3#32 1#32 0xFFFFFFFF#32)) statusWord,
     after (step (commanded exReady 3#32 0#32 0xFFFFFFFF#32)) statusWord) =
    (some 0x00070701#32, some 0x00000002#32, some 0x00000001#32) := by decide

/-- Section 6.5: SETP clamps 1.5 to 1.0 and NaN to `+0.0`. -/
theorem test_step_setp :
    (after (step (commanded exReady 0x00000204#32 0x3FC00000#32 0#32)) (fun t => t.rampDepth),
     after (step (commanded { exReady with togFeedback := 0x3F800000#32 } 0x00000304#32 0x7FC00000#32 0#32))
       (fun t => t.togFeedback)) =
    (some ⟨0x3F800000#32, 0#32, 0#32, 0#32⟩, some 0#32) := by decide

/-- Section 6.5: GETP gives the target, and `+0.0` for an unknown id. -/
theorem test_step_getp :
    (after (step (commanded { exReady with rampMix := ⟨0x3F400000#32, 0#32, 0#32, 0#32⟩ } 0x00000005#32 0#32 0#32))
       (fun t => t.result),
     after (step (commanded { exReady with result := 7#32 } 0x00000905#32 0#32 0#32)) (fun t => t.result)) =
    (some 0x3F400000#32, some 0#32) := by decide

/-- Section 6.5: `RAMP MIX, 1.0, 4` from 0.5, and a RAMP of a toggle, which is ignored. -/
theorem test_step_ramp :
    (after (step (commanded { exReady with rampMix := idle 0x3F000000#32 } 0x00000006#32 0x3F800000#32 4#32))
       (fun t => t.rampMix),
     after (step (commanded exReady 0x00000406#32 0x3F800000#32 10#32)) (fun t => (t.togDelay, statusWord t))) =
    (some ⟨0x3F800000#32, 0x3F800000#32, 0xBE000000#32, 4#32⟩, some (0#32, 1#32)) := by decide

/-- Program P6 rows 1, 2 and 24: `E_STATE` before INIT, an illegal word that leaves `ERR`, INIT while `BUSY`. -/
theorem test_step_refused :
    (after (step (commanded State.reset 0x00000005#32 0#32 0#32)) statusWord,
     after (step (commanded { State.reset with err := .state, last := .state } 0x00000007#32 0#32 0#32)) statusWord,
     after (step (commanded exBusy 0x00000001#32 1#32 1000#32)) statusWord) =
    (some 0x00060600#32, some 0x00050600#32, some 0x00060602#32) := by decide

/-- R161 and R110 in the small instance: a second channel does not fit, one channel does, and a block ends at its `HOSTBUF_LEN`
of 1. -/
theorem test_step_small_instance :
    (after (step (commanded { State.reset with params := smallHw } 1#32 2#32 6#32)) statusWord,
     after (step (commanded { State.reset with params := smallHw } 1#32 1#32 6#32)) statusWord,
     after (step (commanded { exReady with params := smallHw } 3#32 1#32 0#32)) statusWord,
     after (step (commanded { exReady with params := smallHw } 3#32 1#32 1#32)) statusWord) =
    (some 0x00030300#32, some 0x00000001#32, some 0x00000002#32, some 0x00070701#32) := by decide

/-! ## Frames, races and the host's accesses -/

/-- Section 8.1, third row of the table: the first frame reads no delay, and the block goes on. -/
theorem test_frame :
    after (step exBusy) (fun t => (readWord t.outMem 0, t.blkF, statusWord t, t.chans.map fun ch => (ch.wpos, ch.phase))) =
      some (0x3F48D131#32, 1#32, 2#32, [(1, 0x38A4B5BF#32)]) := by decide +kernel

/-- Section 8.1, first row: with the predelay on before frame 0 the read is 40 slots back, and the last frame ends the
block. -/
theorem test_frame_predelay :
    after (step { exBusy with togDelay := 0x3F800000#32, blkCount := 1#32 }) (fun t => (readWord t.outMem 0, statusWord t)) =
      some (0x3EF3B3BD#32, 1#32) := by decide +kernel

/-- R61: an `OUT` word the running block has written reads as the old contents or the new sample. -/
theorem test_out_race :
    raced 0x3F48D131#32 (olderAt [(0, 7#32), (1, 8#32)] 0) 0 = 0x3F48D131#32 ∧
    raced 0x3F48D131#32 (olderAt [(0, 7#32), (1, 8#32)] 0) 1 = 7#32 := by decide

/-- R61: an `OUT` word the running block has still to write, here the only frame of its block (section 8.1, third row), reads as
the old contents or as the new sample, once that frame has given it. -/
theorem test_out_race_before_the_frame :
    let s := { exBusy with blkCount := 1#32, outMem := writeWord [] 0 7#32 }
    after (frameStep (hostReadOut s 0 0 0)) (fun t => (t.hostLog, t.outPending)) = some ([7#32], []) ∧
    after (frameStep (hostReadOut s 0 0 1)) (fun t => (t.hostLog, t.outPending)) = some ([0x3F48D131#32], []) := by
  decide +kernel

/-- R57: a poll of `STATUS` is logged and changes nothing else; R21: a write to a read-only register is ignored. -/
theorem test_host_registers :
    hostAccess (.readReg 3) exReady = .next { exReady with hostLog := [1#32] } ∧
    hostAccess (.writeReg 5 9#32) exReady = .next exReady := ⟨rfl, rfl⟩

/-- R56: a byte-mapped access that is not one aligned word is refused. -/
theorem test_unaligned : hostAccess (.readBus 6 4) exReady = .refused (.unalignedAccess 6 4) ∧
    hostAccess (.writeBus 4 2 0#32) exReady = .refused (.unalignedAccess 4 2) := ⟨rfl, rfl⟩

/-- R53: a word of a channel that does not exist faults. -/
theorem test_outside_in : hostAccess (.writeIn 1 0 0#32) exReady = .fault (.outsideIn 1 0) := rfl

/-- R78: the register writes a line stands for, `CMD` last. -/
theorem test_command_line :
    (HostLine.init 2#32 44100#32).ops = [.writeReg 1 2#32, .writeReg 2 44100#32, .writeReg 0 0x00000001#32] ∧
    (HostLine.getp 9).ops = [.writeReg 0 0x00000905#32, .readReg 4] := by decide

/-- R55: a word lies little-endian at byte address 4 times its index. -/
theorem test_little_endian : writeWord [] 2 0x11223344#32 = [(8, 0x44#8), (9, 0x33#8), (10, 0x22#8), (11, 0x11#8)] := by
  decide

/-! ## The concrete states meet the invariants -/

theorem in01_zero : In01 0x00000000#32 := ⟨by decide, by decide⟩
theorem in01_one : In01 0x3F800000#32 := ⟨by decide, by decide⟩
theorem in01_half : In01 0x3F000000#32 := ⟨by decide, by decide⟩

theorem idle_zero_ok : (idle 0x00000000#32).Ok := ⟨in01_zero, in01_zero, by unfold AtMost1; decide⟩
theorem idle_one_ok : (idle 0x3F800000#32).Ok := ⟨in01_one, in01_one, by unfold AtMost1; decide⟩

theorem no_races : exReady.RacesOk where
  dropped := fun _ => ⟨rfl, rfl, rfl⟩
  logged := by decide
  distinct := List.Pairwise.nil

theorem fresh_ok : Channel.Ok .default 1000 ⟨[], 0, 0x00000000#32⟩ :=
  ⟨by decide, ⟨by decide, by decide⟩, ⟨List.Pairwise.nil, by simp⟩, by simp⟩

theorem exReady_inv : exReady.Inv where
  mix := idle_one_ok
  rate := idle_zero_ok
  depth := idle_zero_ok
  feedback := in01_zero
  delay := in01_zero
  configured := fun _ => ⟨by decide, by decide, rfl⟩
  channel := by
    intro ch h
    obtain rfl : ch = ⟨[], 0, 0x00000000#32⟩ := by simpa [exReady] using h
    exact fresh_ok
  running := fun h => by cases h
  inWf := ⟨List.Pairwise.nil, by simp [exReady, State.reset, State.resetOf]⟩
  outWf := ⟨List.Pairwise.nil, by simp [exReady, State.reset, State.resetOf]⟩
  races := no_races
  legal := test_legal_instances.1

theorem exBusy_inv : exBusy.Inv where
  mix := idle_one_ok
  rate := idle_zero_ok
  depth := idle_zero_ok
  feedback := in01_zero
  delay := in01_zero
  configured := fun _ => ⟨by decide, by decide, rfl⟩
  channel := exReady_inv.channel
  running := fun _ => ⟨by decide, by decide⟩
  inWf := by decide
  outWf := exReady_inv.outWf
  races := ⟨fun _ => ⟨rfl, rfl, rfl⟩, by decide, List.Pairwise.nil⟩
  legal := exReady_inv.legal

theorem exBusyTwo_inv : exBusyTwo.Inv where
  mix := idle_one_ok
  rate := idle_zero_ok
  depth := idle_zero_ok
  feedback := in01_zero
  delay := in01_zero
  configured := fun _ => ⟨by decide, by decide, rfl⟩
  channel := by
    intro ch h
    obtain rfl : ch = ⟨[], 0, 0x00000000#32⟩ := by simpa [exBusyTwo] using h
    exact fresh_ok
  running := fun _ => ⟨by decide, by decide⟩
  inWf := exBusy_inv.inWf
  outWf := exReady_inv.outWf
  races := ⟨fun _ => ⟨rfl, rfl, rfl⟩, by decide, List.Pairwise.nil⟩
  legal := exReady_inv.legal

/-- `exBusyTwo` after a host read of its first `OUT` word that is to return the new sample, with a record of each kind. -/
def exRacing : State :=
  { exBusyTwo with hostLog := [5#32, 0#32], outPending := [(1, 4294967296)], inRace := [(0, 9#32)], outRace := [(7, 8#32)] }

theorem exRacing_inv : exRacing.Inv where
  mix := idle_one_ok
  rate := idle_zero_ok
  depth := idle_zero_ok
  feedback := in01_zero
  delay := in01_zero
  configured := fun _ => ⟨by decide, by decide, rfl⟩
  channel := exBusyTwo_inv.channel
  running := fun _ => ⟨by decide, by decide⟩
  inWf := exBusy_inv.inWf
  outWf := exReady_inv.outWf
  races := ⟨fun h => absurd rfl h, by decide, List.pairwise_singleton _ _⟩
  legal := exReady_inv.legal

/-- `exRacing` at its last frame. -/
def exLast : State := { exRacing with blkF := 1#32 }

theorem exLast_inv : exLast.Inv where
  mix := idle_one_ok
  rate := idle_zero_ok
  depth := idle_zero_ok
  feedback := in01_zero
  delay := in01_zero
  configured := fun _ => ⟨by decide, by decide, rfl⟩
  channel := exBusyTwo_inv.channel
  running := fun _ => ⟨by decide, by decide⟩
  inWf := exBusy_inv.inWf
  outWf := exReady_inv.outWf
  races := ⟨fun h => absurd rfl h, by decide, List.pairwise_singleton _ _⟩
  legal := exReady_inv.legal

theorem next_of_after {α : Type} {o : Host.Outcome State Fault Refusal} {f : State → α} {x : α} (h : after o f = some x) :
    ∃ t, o = .next t := by
  cases o with
  | next t => exact ⟨t, rfl⟩
  | fault r => cases h
  | refused r => cases h

theorem exBusy_frame : ∃ t, frameStep exBusy = .next t :=
  next_of_after (f := fun t => t.blkF) (x := 1#32) (by decide +kernel)

theorem exBusy_step : ∃ t, step exBusy = .next t := next_of_after test_frame

/-- `exBusyTwo` with another second channel and another input for it. -/
def exBusyOther : State :=
  { exBusyTwo with
    chans := [⟨[], 0, 0#32⟩, ⟨writeWord [] 5 0x3F800000#32, 3, 0x3F800000#32⟩]
    inMem := writeWord exBusyTwo.inMem 4294967296 0x3F800000#32 }

/-! ## Witnesses: for every statement with hypotheses, input that meets them -/

/-! ### Encoding and steps -/

theorem witness_DecodeOfEncode : (Instr.getp 255).WellFormed ∧ (Instr.setp 0).WellFormed ∧ Instr.init.WellFormed := by decide
theorem witness_EncodeOfDecode : decode 0x0000FF06#32 = .ok (.ramp 255) := by decide

theorem witness_IllegalWordsAreRefused :
    mbzField 0x00010004#32 ≠ 0 ∧ ¬(1 ≤ opcField 0#32 ∧ opcField 0#32 ≤ 6) ∧ ¬(1 ≤ opcField 7#32 ∧ opcField 7#32 ≤ 6) ∧
    (opcField 0x103#32 = 3 ∧ pidField 0x103#32 ≠ 0) ∧
    ¬(mbzField 0xFF04#32 ≠ 0 ∨ ¬(1 ≤ opcField 0xFF04#32 ∧ opcField 0xFF04#32 ≤ 6) ∨
      ((opcField 0xFF04#32 = 1 ∨ opcField 0xFF04#32 = 2 ∨ opcField 0xFF04#32 = 3) ∧ pidField 0xFF04#32 ≠ 0)) := by decide

theorem witness_StepRunsTheCommandWritten :
    mover { exReady with hostQ := [.writeReg 0 0x00000206#32] } = some .host ∧
    decode 0x00000206#32 = .ok (.ramp 2) := by decide
theorem witness_PlacedWordRunsNext : (65285 : Nat) < 4294967296 ∧ decode (BitVec.ofNat 32 65285) = .ok (.getp 255) := by decide
theorem witness_BoundaryAdmitsCommandAndFrame :
    { exBusy with hostQ := [.writeReg 0 4#32] }.lifecycle = .busy ∧
    { exBusy with hostQ := [.writeReg 0 4#32] }.hostQ = .writeReg 0 4#32 :: [] := ⟨rfl, rfl⟩
theorem witness_EngineMovesOnlyWhileBusy :
    exBusy.hostQ = [] ∧ exBusy.lifecycle = .busy ∧ exReady.hostQ = [] ∧ exReady.lifecycle ≠ .busy := by decide

/-! ### Refusal and lifecycle -/

theorem witness_RefusalWritesOnlyLastAndErr :
    (∃ t, exec .reset State.reset = .next t ∧ t.last ≠ .none) ∧ decode 0x00000000#32 = .error .reservedOpcode :=
  ⟨⟨_, rfl, by decide⟩, by decide⟩
theorem witness_LifecycleGatesCommands :
    State.reset.lifecycle = .uninit ∧ exBusy.lifecycle = .busy ∧ exReady.lifecycle = .ready ∧
    (let s := { State.reset with arg0 := 2#32, arg1 := 4194304#32 }
     s.lifecycle ≠ .busy ∧ 1 ≤ s.arg0.toNat ∧ s.arg0.toNat ≤ s.params.maxCh ∧ LegalRate s.arg1.toNat ∧
     bufSize s.params s.arg1.toNat ≠ 0 ∧ s.arg0.toNat * bufSize s.params s.arg1.toNat ≤ s.params.dlyRamWords) ∧
    (let s := { exReady with arg0 := 1#32, arg1 := 0xFFFFFFFF#32 }
     s.lifecycle = .ready ∧ s.arg1.toNat + s.arg0.toNat ≤ s.params.hostBufLen) ∧
    decode 0xFFFFFFFF#32 = .error .mbzNotZero := by decide
theorem witness_LifecycleChangesOnlyByItsEvents :
    (∃ t, step exBusy = .next t) ∧ mover exBusy = some .engine ∧ ∃ t, step exLast = .next t :=
  ⟨exBusy_step, by decide, next_of_after (f := fun t => t.blkF) (x := 2#32) (by decide +kernel)⟩
theorem witness_ErrIsSticky : ∃ t, step { exBusy with err := .illegal } = .next t ∧ { exBusy with err := .illegal }.err ≠ .none := by
  obtain ⟨t, h⟩ := next_of_after (o := step { exBusy with err := .illegal }) (f := fun t => t.blkF) (x := 1#32) (by decide +kernel)
  exact ⟨t, h, by decide⟩

/-! ### INIT, RESET, PROCESS -/

theorem witness_InitConfiguresTheEngine :
    (let s := { State.reset with arg0 := 1#32, arg1 := 6#32 }
     s.lifecycle ≠ .busy ∧ 1 ≤ s.arg0.toNat ∧ s.arg0.toNat ≤ s.params.maxCh ∧ LegalRate s.arg1.toNat ∧
     bufSize s.params s.arg1.toNat ≠ 0 ∧ s.arg0.toNat * bufSize s.params s.arg1.toNat ≤ s.params.dlyRamWords) ∧
    (let s := { exReady with arg0 := 2#32, arg1 := 4194304#32 }
     s.lifecycle ≠ .busy ∧ 1 ≤ s.arg0.toNat ∧ s.arg0.toNat ≤ s.params.maxCh ∧ LegalRate s.arg1.toNat ∧
     bufSize s.params s.arg1.toNat ≠ 0 ∧ s.arg0.toNat * bufSize s.params s.arg1.toNat ≤ s.params.dlyRamWords) ∧
    ¬ (1 ≤ State.reset.arg0.toNat) := by decide
theorem witness_InitChecksInOrder :
    exBusy.lifecycle = .busy ∧ (State.reset.lifecycle ≠ .busy ∧ State.reset.arg0.toNat = 0) ∧
    (let s := { State.reset with arg0 := 3#32, arg1 := 0#32 }
     s.lifecycle ≠ .busy ∧ s.arg0.toNat ≠ 0 ∧ bufSize s.params s.arg1.toNat = 0) ∧
    (let s := { State.reset with arg0 := 3#32, arg1 := 5#32 }
     s.lifecycle ≠ .busy ∧ s.arg0.toNat ≠ 0 ∧ bufSize s.params s.arg1.toNat ≠ 0 ∧ s.arg1.toNat < 6) ∧
    (let s := { State.reset with arg0 := 3#32, arg1 := 4194305#32 }
     s.lifecycle ≠ .busy ∧ s.arg0.toNat ≠ 0 ∧ bufSize s.params s.arg1.toNat ≠ 0 ∧ 4194304 < s.arg1.toNat) ∧
    (let s := { State.reset with arg0 := 3#32, arg1 := 6#32 }
     s.lifecycle ≠ .busy ∧ s.arg0.toNat ≠ 0 ∧ bufSize s.params s.arg1.toNat ≠ 0 ∧ 6 ≤ s.arg1.toNat ∧ s.arg1.toNat ≤ 4194304 ∧
     s.params.maxCh < s.arg0.toNat) := by decide
theorem witness_ResetFlushesTheAudioHistory : exReady.lifecycle = .ready ∧ exBusy.lifecycle ≠ .ready := by decide
theorem witness_ProcessStartsTheBlock :
    exBusy.lifecycle ≠ .ready ∧
    (let s := { exReady with arg0 := 2#32, arg1 := 0xFFFFFFFF#32 }
     s.lifecycle = .ready ∧ s.params.hostBufLen < s.arg1.toNat + s.arg0.toNat) ∧
    (let s := { exReady with arg0 := 1#32, arg1 := 0xFFFFFFFF#32 }
     s.lifecycle = .ready ∧ s.arg1.toNat + s.arg0.toNat ≤ s.params.hostBufLen) ∧
    (let s := { exReady with arg0 := 0#32, arg1 := 0xFFFFFFFF#32 }
     s.lifecycle = .ready ∧ s.arg1.toNat + s.arg0.toNat ≤ s.params.hostBufLen) := by decide

/-! ### SETP, GETP, RAMP, rampers -/

theorem witness_SetpStoresTheClampedValue : State.reset.lifecycle = .uninit ∧ exBusy.lifecycle ≠ .uninit := by decide
theorem witness_GetpReturnsTheUiValue : State.reset.lifecycle = .uninit ∧ exReady.lifecycle ≠ .uninit := by decide
theorem witness_RampStartsTheNamedRamp :
    State.reset.lifecycle = .uninit ∧ exReady.lifecycle ≠ .uninit ∧ exReady.rampMix.Ok ∧ exReady.rampRate.Ok ∧
    exReady.rampDepth.Ok := ⟨rfl, by decide, idle_one_ok, idle_zero_ok, idle_zero_ok⟩
theorem witness_UnknownIdsDoNothing : exReady.lifecycle ≠ .uninit ∧ 5 ≤ 5 ∧ 5 < 256 ∧ 5 ≤ 255 ∧ 255 < 256 := by decide
theorem witness_ClampGivesUnitInterval :
    In01 0x3F800000#32 ∧ Num.isNaN 0x7F800001#32 = true ∧ Num.flt 0x80000001#32 Sys2Proof.Num.zero = true ∧
    Num.flt Num.one 0x3F800001#32 = true := ⟨in01_one, by decide, by decide, by decide⟩
theorem witness_DezipperWaitsForTheRunningRamp :
    (⟨0#32, 0#32, 0#32, 1#32⟩ : Ramper).rem ≠ 0#32 ∧ Num.feq 0x80000000#32 0x00000000#32 = true ∧
    Num.feq 0x3F800000#32 0x00000000#32 = false := by decide
theorem witness_StartRampSetsAllFields : (idle 0x3F800000#32).Ok ∧ In01 0x00000000#32 := ⟨idle_one_ok, in01_zero⟩
theorem witness_RamperOperationsKeepItsInvariant : (idle 0x00000000#32).Ok ∧ In01 0x3F800000#32 := ⟨idle_zero_ok, in01_one⟩
theorem witness_RampReachesItsGoalExactly : (1#32 : Word) ≠ 0#32 ∧ 0 < (1#32 : Word).toNat ∧ (1#32 : Word).toNat ≤ 1 := by
  decide

/-! ### Frames and channels -/

theorem witness_FrameStepAdvancesTheBlock : ∃ t, frameStep exBusy = .next t := exBusy_frame
theorem witness_FrameStepLeavesTheRestAlone :
    (∃ t, frameStep exRacing = .next t) ∧ exRacing.outPending = [(1, hostIndex 1 0)] ∧ exRacing.chans.length = 2 :=
  ⟨next_of_after (f := fun t => t.blkF) (x := 1#32) (by decide +kernel), rfl, rfl⟩
theorem witness_FrameStepWritesItsOutputWords :
    Memory.wf exBusy.outMem ∧ exBusy.chans[0]? = some ⟨[], 0, 0#32⟩ ∧
    sampleTable exBusy.params.wtN 0#32 = some 0#32 ∧ Num.fge exBusy.togDelay 0x3F000000#32 = false ∧
    Num.fge 0x3F800000#32 0x3F000000#32 = true ∧ ∃ t, frameStep exBusy = .next t :=
  ⟨exBusy_inv.outWf, rfl, by decide, by decide, by decide, exBusy_frame⟩
theorem witness_ChannelStepFollowsItsRule :
    7 < 8 ∧ Num.flt (Num.fsub (Num.ofNat 7) 0x40300000#32) Sys2Proof.Num.zero = false ∧
    Num.floor (Num.fsub (Num.ofNat 7) 0x40300000#32) = some 4 ∧ Num.ceil (Num.fsub (Num.ofNat 7) 0x40300000#32) = some 5 ∧
    Num.flt (Num.fsub (Num.ofNat 0) 0x3F000000#32) Sys2Proof.Num.zero = true ∧ Memory.wf bufferC := by decide
theorem witness_DelayIndicesStayInTheBuffer : 0 < 1 := by decide
theorem witness_IntegerOffsetReadsTheSlotBack :
    Memory.wf ([] : Memory) ∧ 0 < 16777216 ∧ (16777216 : Nat) ≤ 16777216 ∧ 16777215 < 16777216 ∧
    Num.isFinite 0x3F000000#32 = true ∧ Num.isFinite (readWord [] ((0 + 16777216 - 16777215) % 16777216)) = true := by
  decide
theorem witness_WetSignalIsBounded : Num.isNaN (Num.fadd 0x7F800000#32 0x3F800000#32) = false := by decide
theorem witness_MixZeroIsTransparent :
    Num.isFinite 0x00000001#32 = true ∧ Num.mag 0x00000001#32 ≠ 0 ∧ Num.isFinite (Num.fsub 0x3F800000#32 0x00000001#32) = true := by
  decide
theorem witness_OutputStaysBounded :
    exBusy.Inv ∧ exBusy.lifecycle = .busy ∧ (∀ ch ∈ exBusy.chans, ∀ k, AtMost1 (readWord ch.dly k)) ∧
    (∀ c, c < exBusy.chans.length → AtMost1 (engineRead exBusy c (exBusy.blkOff.toNat + exBusy.blkF.toNat))) ∧
    ∃ t, frameStep exBusy = .next t := by
  refine ⟨exBusy_inv, rfl, ?_, ?_, exBusy_frame⟩
  · intro ch h k
    obtain rfl : ch = ⟨[], 0, 0x00000000#32⟩ := by simpa [exBusy, exReady] using h
    unfold AtMost1
    rw [readWord_nil]
    decide
  · intro c hc
    obtain rfl : c = 0 := by simpa [exBusy, exReady] using hc
    unfold AtMost1; decide
theorem witness_ChannelsAreIndependent :
    Memory.wf exBusyTwo.outMem ∧ Memory.wf exBusyOther.outMem ∧ 0 < exBusyTwo.chans.length ∧
    frameParams exBusyTwo = frameParams exBusyOther ∧ exBusyTwo.chans[0]? = exBusyOther.chans[0]? ∧
    exBusyTwo.chans[1]? ≠ exBusyOther.chans[1]? ∧
    engineRead exBusyTwo 0 (frameParams exBusyTwo).sample = engineRead exBusyOther 0 (frameParams exBusyTwo).sample ∧
    (∃ t, frameStep exBusyTwo = .next t) ∧ ∃ t, frameStep exBusyOther = .next t :=
  ⟨by decide, by decide, by decide, rfl, rfl, by decide, by decide +kernel,
    next_of_after (f := fun t => t.blkF) (x := 1#32) (by decide +kernel),
    next_of_after (f := fun t => t.blkF) (x := 1#32) (by decide +kernel)⟩
theorem witness_UiValueDoesNotReachTheRunningBlock : ∃ t, frameStep exBusy = .next t := exBusy_frame
theorem witness_TogglesActAtOneHalf :
    In01 0x3F000000#32 ∧ In01 0x3EFFFFFF#32 ∧
    Num.fge 0x3F000000#32 0x3F000000#32 = Num.fge 0x3F800000#32 0x3F000000#32 ∧
    Num.fge 0x3EFFFFFF#32 0x3F000000#32 = Num.fge 0x00000000#32 0x3F000000#32 ∧
    sampleTable exBusy.params.wtN 0x00000000#32 = some 0x00000000#32 :=
  ⟨in01_half, ⟨by decide, by decide⟩, by decide, by decide, by decide⟩

/-! ### LFO and numerics -/

theorem witness_PhaseAdvanceStaysInRange :
    LegalRate 6 ∧ LegalRate 4194304 ∧ In01 0x3F800000#32 ∧ In01 0x00000000#32 ∧ PhaseOk 0x40C90FDA#32 ∧ PhaseOk 0x00000000#32 :=
  ⟨by decide, by decide, in01_one, in01_zero, ⟨by decide, by decide⟩, ⟨by decide, by decide⟩⟩
theorem witness_LfoFrequencyRange : In01 0x00000000#32 ∧ In01 0x3F800000#32 := ⟨in01_zero, in01_one⟩
theorem witness_DepthSamplesRange : LegalRate 6 ∧ LegalRate 4194304 ∧ In01 0x3F000000#32 := ⟨by decide, by decide, in01_half⟩
theorem witness_WavetableSymmetry :
    2 ≤ 2 ∧ 2 ≤ 65536 ∧ 0 < 1 ∧ 1 < 65536 ∧ 0 < 65535 ∧ 65535 < 65536 ∧ 65536 % 4 = 0 := by decide
theorem witness_SampleTableInterpolatesTheTable :
    Legal smallHw ∧ Legal .default ∧ smallHw.wtN ≤ 16777217 ∧ Legal ⟨1, 62, 1, 16777217, []⟩ ∧
    PhaseOk 0x00000000#32 ∧ PhaseOk 0x40C90FDA#32 ∧ Num.isFinite 0xFF7FFFFF#32 = true ∧ Num.value 0xFF7FFFFF#32 ≤ 0 ∧
    Num.isFinite 0x7F7FFFFF#32 = true ∧ Num.value Config.twoPi ≤ Num.value 0x7F7FFFFF#32 ∧
    Num.value Config.twoPi ≤ Num.value 0x40C90FDB#32 ∧ Num.isFinite 0x7F800000#32 = false :=
  ⟨test_legal_instances.2.1, test_legal_instances.1, by decide, by decide, ⟨by decide, by decide⟩,
    ⟨by decide, by decide⟩, by decide, by decide, by decide, by decide, by decide, by decide⟩
/-- Two ties: 2^24 + 1, as a sum and as a difference, lies halfway between 2^24 and 2^24 + 2. -/
theorem witness_SumIsCorrectlyRounded :
    Num.isFinite (Num.fadd 0x4B800000#32 0x3F800000#32) = true ∧ Num.isFinite 0x4B800001#32 = true ∧
    |Num.value (Num.fadd 0x4B800000#32 0x3F800000#32) - (Num.value 0x4B800000#32 + Num.value 0x3F800000#32)| =
      |Num.value 0x4B800001#32 - (Num.value 0x4B800000#32 + Num.value 0x3F800000#32)| ∧
    Num.value 0x4B800001#32 ≠ Num.value (Num.fadd 0x4B800000#32 0x3F800000#32) ∧
    Num.isFinite (Num.fsub 0x4B800001#32 0x3F800000#32) = true ∧
    |Num.value (Num.fsub 0x4B800001#32 0x3F800000#32) - (Num.value 0x4B800001#32 - Num.value 0x3F800000#32)| =
      |Num.value 0x4B800001#32 - (Num.value 0x4B800001#32 - Num.value 0x3F800000#32)| ∧
    Num.value 0x4B800001#32 ≠ Num.value (Num.fsub 0x4B800001#32 0x3F800000#32) := by decide
/-- A tie: half of the smallest magnitude lies between it and zero. -/
theorem witness_ProductIsCorrectlyRounded :
    Num.isFinite (Num.fmul 0x00000001#32 0x3F000000#32) = true ∧
    |Num.value (Num.fmul 0x00000001#32 0x3F000000#32) * 2 ^ 149 - Num.value 0x00000001#32 * Num.value 0x3F000000#32| =
      |Num.value 0x00000001#32 * 2 ^ 149 - Num.value 0x00000001#32 * Num.value 0x3F000000#32| ∧
    Num.value 0x00000001#32 ≠ Num.value (Num.fmul 0x00000001#32 0x3F000000#32) := by decide
theorem witness_QuotientIsCorrectlyRounded :
    Num.isFinite 0x3F800000#32 = true ∧ Num.isFinite 0x40400000#32 = true ∧ Num.value 0x40400000#32 ≠ 0 ∧
    Num.isFinite (Num.fdiv 0x3F800000#32 0x40400000#32) = true := by decide
theorem witness_TanhIsOddBoundedMonotone :
    Num.isNaN 0x7F800000#32 = false ∧ Num.isNaN 0x3F800000#32 = false ∧
    Num.value 0x3F800000#32 ≤ Num.value 0x7F800000#32 := by decide
theorem witness_LerpMeetsItsEnds :
    Num.isFinite 0xBE800000#32 = true ∧ Num.isFinite 0x3F400000#32 = true ∧
    Num.isFinite (Num.fsub 0x3F400000#32 0xBE800000#32) = true := by decide

/-! ### The host's side -/

theorem witness_ControlRegisterFile :
    State.reset.lifecycle = .uninit ∧ exReady.lifecycle ≠ .uninit ∧ 9 < 10 ∧ 3 ≤ 3 ∧
    (∃ t, exec (.getp 0) exReady = .next t) ∧ ∃ t, frameStep exBusy = .next t :=
  ⟨rfl, by decide, by decide, by decide, ⟨_, rfl⟩, exBusy_frame⟩
theorem witness_ByteMappingIsAlignedWords : (2 : Nat) ≠ 4 ∧ 6 % 4 ≠ 0 := by decide
theorem witness_HardwareResetLeavesUninit :
    mover { exBusy with hostQ := [.hardReset] } = some .host ∧
    { exBusy with hostQ := [.hardReset] }.hostQ = .hardReset :: [] := ⟨by decide, rfl⟩
/-- Inside and outside the running block, at the last channel and sample; outside a running block; a frame that is not the last,
with a pending read of a word it writes; a last frame. -/
theorem witness_RacesAdmitOldAndNew :
    Memory.wf exBusy.inMem ∧ (∃ t, hostAccess (.writeIn 0 1 7#32) exBusy = .next t) ∧
    (∃ t, hostAccess (.writeIn 0 4294967295 7#32) exBusy = .next t) ∧
    hostWord exBusy 0 0 = true ∧ hostWord exBusy 0 4294967295 = true ∧
    exReady.Inv ∧ exReady.lifecycle ≠ .busy ∧
    exRacing.Inv ∧ exRacing.blkF + 1#32 ≠ exRacing.blkCount ∧ (∃ t, frameStep exRacing = .next t) ∧
    (1, 4294967296) ∈ exRacing.outPending ∧ 4294967296 = hostIndex 1 (exRacing.blkOff.toNat + exRacing.blkF.toNat) ∧
    exLast.Inv ∧ exLast.blkF + 1#32 = exLast.blkCount ∧ ∃ t, frameStep exLast = .next t :=
  ⟨exBusy_inv.inWf, ⟨_, rfl⟩, ⟨_, rfl⟩, by decide, by decide, exReady_inv, by decide, exRacing_inv, by decide,
    next_of_after (f := fun t => t.blkF) (x := 1#32) (by decide +kernel), by decide, by decide, exLast_inv, by decide,
    next_of_after (f := fun t => t.blkF) (x := 2#32) (by decide +kernel)⟩
theorem witness_EachMemoryHasOneWriter : ∃ t, step exBusy = .next t := exBusy_step

/-! ### Headline results -/

theorem witness_InvariantsHoldAtReset : Legal smallHw ∧ ¬ Legal ⟨2, 33554432, 4294967296, 1, []⟩ :=
  ⟨test_legal_instances.2.1, test_illegal_instances.2.2.2.1⟩
theorem witness_StepKeepsTheInvariants : exBusy.Inv ∧ ∃ t, step exBusy = .next t := ⟨exBusy_inv, exBusy_step⟩
theorem witness_ChannelsStayInStep : exBusyTwo.Inv ∧ exBusyTwo.Uniform ∧ ∃ t, step exBusyTwo = .next t := by
  refine ⟨exBusyTwo_inv, ?_, next_of_after (f := fun t => t.blkF) (x := 1#32) (by decide +kernel)⟩
  intro a ha b hb
  obtain rfl : a = ⟨[], 0, 0x00000000#32⟩ := by simpa [exBusyTwo] using ha
  obtain rfl : b = ⟨[], 0, 0x00000000#32⟩ := by simpa [exBusyTwo] using hb
  exact ⟨rfl, rfl⟩
theorem witness_FrameStepAlwaysCompletes : exBusy.Inv ∧ exBusy.lifecycle = .busy := ⟨exBusy_inv, rfl⟩
theorem witness_StepAlwaysCompletes :
    { exReady with hostQ := [.readOut 0 4294967295] }.Inv ∧ { exReady with hostQ := [.readOut 0 4294967295] }.NextLegal := by
  refine ⟨?_, ?_⟩
  · obtain ⟨h1, h2, h3, h4, h5, h6, h7, h8, h9, h10, h11, h12⟩ := exReady_inv
    exact ⟨h1, h2, h3, h4, h5, fun h => ⟨(h6 h).1, (h6 h).2, (h6 h).3⟩, h7, fun h => ⟨(h8 h).1, (h8 h).2⟩, h9, h10,
      ⟨h11.1, h11.2, h11.3⟩, h12⟩
  · intro op rest h
    obtain rfl : HostOp.readOut 0 4294967295 = op := by
      injection h
    exact ⟨by decide, by decide⟩
theorem witness_BlockRunsToItsEnd :
    exBusy.Inv ∧ exBusy.lifecycle = .busy ∧ exBusy.hostQ = [] ∧ 1 < exBusy.blkCount.toNat - exBusy.blkF.toNat :=
  ⟨exBusy_inv, rfl, rfl, by decide⟩

end Sys2Proof.Tests
end

section
/-! PROOFS. What a frame keeps of R27, R29 and R30: ramper values in `[0,1]`, the phase in `[0, 2π)`, the delay bank. -/

namespace Sys2Proof.Machine

/-! ## Rampers keep R27 -/

theorem in01_zero : In01 Num.zero := ⟨by decide, by decide⟩

theorem in01_one : In01 Num.one := ⟨by decide, by decide⟩

/-- Every initial parameter value lies in `[0,1]` (D22). -/
theorem in01_paramInit (pid : Nat) : In01 (paramInit pid) := by
  unfold paramInit
  split
  · exact in01_clamp _
  · split
    · exact in01_one
    · exact in01_zero

theorem atMost1_zero : AtMost1 Num.zero := by unfold AtMost1; decide

theorem idleRamper_ok {v : F} (h : In01 v) : (idleRamper v).Ok := ⟨h, h, atMost1_zero⟩

theorem setUIValue_ok {r : Ramper} (h : r.Ok) {v : F} (hv : In01 v) : (setUIValue r v).Ok := ⟨hv, h.goal, h.slope⟩

theorem stepRamper_ok {r : Ramper} (h : r.Ok) : (stepRamper r).Ok := by
  unfold stepRamper
  split
  · exact h
  · exact ⟨h.ui, h.goal, h.slope⟩

/-- The duration of a ramp as a value of F: finite and at least 1, whatever the word. -/
theorem ofNat_duration {d : Word} (h : d ≠ 0#32) :
    Num.isFinite (Num.ofNat d.toNat) = true ∧ Num.mag Num.one ≤ Num.mag (Num.ofNat d.toNat) := by
  have hpos : 0 < d.toNat := by
    rcases Nat.eq_zero_or_pos d.toNat with h0 | h0
    · exact absurd (BitVec.eq_of_toNat_eq h0) h
    · exact h0
  have hlt := d.isLt
  have hinf := Num.roundUnits_le_inf (d.toNat * 2 ^ 149) 1
  have hhi : Num.roundUnits (d.toNat * 2 ^ 149) 1 ≤ 0x4F800000 :=
    Num.roundUnits_le one_pos (by
      rw [show Num.units 0x4F800000 = 4294967296 * 2 ^ 149 by decide, Nat.mul_one]
      exact Nat.mul_le_mul_right _ hlt.le)
  have hlo : Num.low31 Num.one ≤ Num.roundUnits (d.toNat * 2 ^ 149) 1 :=
    Num.le_roundUnits one_pos (by decide) (by
      rw [show Num.units (Num.low31 Num.one) = 1 * 2 ^ 149 by decide, Nat.mul_one]
      exact Nat.mul_le_mul_right _ hpos)
  unfold Num.ofNat Num.rnRat
  constructor
  · rw [Num.isFinite_iff, Num.low31_pack _ (by omega)]; omega
  · rw [Num.mag_le_iff, Num.low31_pack _ (by omega)]; exact hlo

/-- The slope of a ramp between values of `[0,1]` is of magnitude at most 1 (R104). -/
theorem atMost1_slope {a b : F} (ha : In01 a) (hb : In01 b) (bits : Word) {d : Word} (hd : d ≠ 0#32) :
    AtMost1 (Num.settle bits (Num.fdiv (Num.fsub a b) (Num.ofNat d.toNat))) := by
  obtain ⟨hfin, hge⟩ := ofNat_duration hd
  have hdiff := mag_fsub_in01 ha hb
  have hfd := Num.finite_of_mag_le Num.finite_one hdiff
  have hone : Num.mag Num.one = 2 ^ 149 := by decide
  have h0 : Num.mag (Num.ofNat d.toNat) ≠ 0 := by
    rw [hone] at hge
    have : 0 < 2 ^ 149 := by positivity
    omega
  rw [Num.settle_of_not_nan (Num.fdiv_not_nan hfd hfin h0)]
  refine Num.mag_fdiv_le hfd hfin h0 ?_
  rw [hone] at hdiff hge ⊢
  exact Nat.mul_le_mul hdiff hge

theorem startRamp_ok {r : Ramper} (h : r.Ok) {v : F} (hv : In01 v) (bits : Word) (d : Word) :
    (startRamp bits r v d).Ok := by
  unfold startRamp
  split
  · exact idleRamper_ok hv
  · rename_i hd
    exact ⟨hv, hv, atMost1_slope (in01_cur h) hv bits hd⟩

theorem dezipperCheck_ok {r : Ramper} (h : r.Ok) (bits : Word) (d : Word) : (dezipperCheck bits r d).Ok := by
  unfold dezipperCheck
  split
  · exact startRamp_ok h h.ui bits d
  · exact h

end Sys2Proof.Machine

namespace Sys2Proof.Num

/-! ## Signs and bounds of rounded results -/

/-- The product of values that are not negative is not negative (a zero of either sign counts as zero). -/
theorem value_fmul_nonneg {a b : F} (ha : isFinite a = true) (hb : isFinite b = true) (h0 : 0 ≤ value a)
    (h1 : 0 ≤ value b) : 0 ≤ value (fmul a b) := by
  have hr := roundUnits_le_inf (mag a * mag b) (2 ^ 149)
  rw [fmul_finite ha hb, value_pack _ (by omega)]
  have hz : ∀ c : F, 0 ≤ value c → sign c = true → mag c = 0 := by
    intro c hc hs
    rw [value, if_pos hs] at hc
    omega
  cases hsa : sign a <;> cases hsb : sign b
  · simp
  · simp [hz b h1 hsb, roundUnits_zero, units]
  · simp [hz a h0 hsa, roundUnits_zero, units]
  · simp

/-- The sum of values that are not negative is not negative. -/
theorem value_fadd_nonneg {a b : F} (ha : isFinite a = true) (hb : isFinite b = true) (h0 : 0 ≤ value a)
    (h1 : 0 ≤ value b) : 0 ≤ value (fadd a b) := by
  have hz : value zero = 0 := by decide
  rw [← hz]
  exact le_value_fadd ha hb (by decide) (by omega)

end Sys2Proof.Num

namespace Sys2Proof.Machine

/-! ## The phase stays in `[0, 2π)` (R116, R30) -/

/-- The LFO frequency of a rate value of `[0,1]`: not negative and, roundings included, at most 21 Hz (R116). -/
theorem lfoFreq_bounds {rate : F} (h : In01 rate) :
    0 ≤ Num.value (lfoFreq rate) ∧ Num.mag (lfoFreq rate) ≤ Num.mag 0x41A80000#32 := by
  obtain ⟨hf, h0, -, hm⟩ := h.bounds
  have hone := Num.finite_one
  have m2 : Num.mag (Num.fmul rate rate) ≤ Num.mag Num.one := le_trans (Num.mag_fmul_le_of_le_one hf hf hm) hm
  have f2 := Num.finite_of_mag_le hone m2
  have v2 := Num.value_fmul_nonneg hf hf h0 h0
  have m4 : Num.mag (Num.fmul (Num.fmul rate rate) (Num.fmul rate rate)) ≤ Num.mag Num.one :=
    le_trans (Num.mag_fmul_le_of_le_one f2 f2 m2) m2
  have f4 := Num.finite_of_mag_le hone m4
  have v4 := Num.value_fmul_nonneg f2 f2 v2 v2
  have fs : Num.isFinite rateSpan = true := by decide
  have ms : Num.mag (Num.fmul rateSpan (Num.fmul (Num.fmul rate rate) (Num.fmul rate rate))) ≤ Num.mag rateSpan :=
    Num.mag_fmul_le_of_le_one fs f4 m4
  have fp := Num.finite_of_mag_le fs ms
  have vp := Num.value_fmul_nonneg fs f4 (by decide) v4
  unfold lfoFreq
  exact ⟨Num.value_fadd_nonneg (by decide) fp (by decide) vp,
    Num.mag_fadd_le_add (by decide) fp (le_trans (Nat.add_le_add_left ms _) (by decide))⟩

/-- `PHASE_K` of a legal rate: not negative and at most 0.28125 (R6). -/
theorem phaseK_bounds {fs : Nat} (h : LegalRate fs) :
    Num.isFinite (phaseK fs) = true ∧ 0 ≤ Num.value (phaseK fs) ∧ Num.mag (phaseK fs) ≤ Num.mag 0x3E900000#32 := by
  have hf := (fsIntF_exact h).2
  have hrate : 24 ≤ fsInt fs ∧ fsInt fs ≤ 16777216 := by
    simp only [LegalRate, Config.minRate, Config.maxRate] at h
    simp only [fsInt, Config.oversample]
    omega
  have hmag : Num.mag (fsIntF fs) = fsInt fs * 2 ^ 149 := mag_ofNat hrate.2
  have h24 : 24 * 2 ^ 149 ≤ Num.mag (fsIntF fs) := by
    rw [hmag]
    exact Nat.mul_le_mul_right _ hrate.1
  have h0 : Num.mag (fsIntF fs) ≠ 0 := by
    have : 0 < 24 * 2 ^ 149 := Nat.mul_pos (by decide) (Nat.two_pow_pos 149)
    omega
  have hk : Num.mag (phaseK fs) ≤ Num.mag 0x3E900000#32 :=
    Num.mag_fdiv_le (by decide) hf h0 (le_trans (by decide) (Nat.mul_le_mul_left (Num.mag 0x3E900000#32) h24))
  refine ⟨Num.finite_of_mag_le (by decide) hk, ?_, hk⟩
  have hs : Num.sign (fsIntF fs) = false := by
    have hr := Num.roundUnits_le_inf (fsInt fs * 2 ^ 149) 1
    rw [fsIntF, Num.ofNat, Num.rnRat, Num.sign_pack _ (by omega)]
  have hr := Num.roundUnits_le_inf (Num.mag Config.twoPi * 2 ^ 149) (Num.mag (fsIntF fs))
  rw [phaseK, Num.fdiv_finite (by decide) hf h0, hs, Num.value_pack _ (by omega)]
  exact Int.natCast_nonneg _

/-- The phase increment of a legal rate: not negative and at most 6, which is below 2π (R116). -/
theorem phaseInc_bounds {fs : Nat} {rate : F} (hr : LegalRate fs) (h : In01 rate) :
    Num.isFinite (phaseInc fs rate) = true ∧ 0 ≤ Num.value (phaseInc fs rate) ∧
      Num.mag (phaseInc fs rate) ≤ Num.mag 0x40C00000#32 := by
  obtain ⟨v1, m1⟩ := lfoFreq_bounds h
  obtain ⟨f2, v2, m2⟩ := phaseK_bounds hr
  have f1 := Num.finite_of_mag_le (c := 0x41A80000#32) (by decide) m1
  have hm : Num.mag (phaseInc fs rate) ≤ Num.mag 0x40C00000#32 :=
    Num.mag_fmul_le f1 f2 (le_trans (Nat.mul_le_mul m1 m2) (by decide))
  exact ⟨Num.finite_of_mag_le (by decide) hm, Num.value_fmul_nonneg f1 f2 v1 v2, hm⟩

/-- `WRAP2PI` of a value of `[0, 12.5]` is a phase: one subtraction of 2π is enough (R116). -/
theorem phaseOk_wrap2Pi {p : F} (hf : Num.isFinite p = true) (h0 : 0 ≤ Num.value p)
    (h : Num.value p ≤ Num.value 0x41480000#32) : PhaseOk (wrap2Pi p) := by
  have hn := Num.isFinite_not_nan hf
  have hz : Num.value Num.zero = 0 := by decide
  unfold wrap2Pi
  split
  · rename_i hge
    have hge := (Num.fge_iff.1 hge).2.2
    have ft : Num.isFinite (Num.neg Config.twoPi) = true := by decide
    have hnan : Num.isNaN (Num.fsub p Config.twoPi) = false := Num.fadd_not_nan hf ft
    have hlo : Num.value Num.zero ≤ Num.value (Num.fsub p Config.twoPi) :=
      Num.le_value_fadd hf ft (by decide) (by rw [hz, Num.value_neg]; omega)
    have hhi : Num.value (Num.fsub p Config.twoPi) ≤ Num.value 0x40C80000#32 := by
      refine Num.value_fadd_le hf ft (by decide) ?_
      have hsum : Num.value 0x41480000#32 + Num.value (Num.neg Config.twoPi) ≤ Num.value 0x40C80000#32 := by decide
      omega
    have hlt : Num.value 0x40C80000#32 < Num.value Config.twoPi := by decide
    exact ⟨Num.fle_iff.2 ⟨by decide, hnan, hlo⟩, Num.flt_iff.2 ⟨hnan, by decide, by omega⟩⟩
  · rename_i hlt
    refine ⟨Num.fle_iff.2 ⟨by decide, hn, by omega⟩, Num.flt_iff.2 ⟨hn, by decide, ?_⟩⟩
    by_contra hc
    exact hlt (Num.fge_iff.2 ⟨hn, by decide, by omega⟩)

/-- The phase of the next frame is a phase (R116, R30). -/
theorem phaseOk_advance {fs : Nat} {ph rate : F} (hp : PhaseOk ph) (hr : LegalRate fs) (h : In01 rate) :
    PhaseOk (wrap2Pi (Num.fadd ph (phaseInc fs rate))) := by
  obtain ⟨fp, p0, -, pm⟩ := hp.bounds
  obtain ⟨fi, i0, im⟩ := phaseInc_bounds hr h
  have hm : Num.mag (Num.fadd ph (phaseInc fs rate)) ≤ Num.mag 0x41480000#32 :=
    Num.mag_fadd_le_add fp fi (le_trans (Nat.add_le_add pm im) (by decide))
  refine phaseOk_wrap2Pi (Num.finite_of_mag_le (by decide) hm) (Num.value_fadd_nonneg fp fi p0 i0) ?_
  have hv := Num.value_le_mag (Num.fadd ph (phaseInc fs rate))
  have hc : Num.value 0x41480000#32 = (Num.mag 0x41480000#32 : Int) := by decide
  omega

/-! ## A channel of a frame keeps R29 and R30 -/

theorem PhaseOk.settle {p : F} (h : PhaseOk p) (bits : Word) : PhaseOk (Num.settle bits p) := by
  rw [Num.settle_of_not_nan (Num.isFinite_not_nan h.bounds.1)]
  exact h

/-- `BUF_SIZE` bounds the byte addresses of a delay bank, and a word write at a position inside it keeps them there (R52). -/
theorem writeWord_bank {m : Memory} {b w : Nat} {v : Word} (hw : w < b) (h : ∀ cell ∈ m, cell.1 < 4 * b) :
    ∀ cell ∈ writeWord m w v, cell.1 < 4 * b := by
  intro cell hc
  rcases writeWord_mem cell hc with hm | hm
  · exact h cell hm
  · omega

/-- The delay write and the feedback write keep a bank canonical and inside `BUF_SIZE` (R130, R136, R52). -/
theorem feedbackWrite_ok {dly : Memory} {b w : Nat} (hw : w < b) (hwf : Memory.wf dly)
    (hbank : ∀ cell ∈ dly, cell.1 < 4 * b) (fb : Bool) (bits : Word) (x d : F) :
    Memory.wf (feedbackWrite fb bits (delayWrite dly w x) w d) ∧
      ∀ cell ∈ feedbackWrite fb bits (delayWrite dly w x) w d, cell.1 < 4 * b := by
  have hwf' : Memory.wf (delayWrite dly w x) := writeWord_wf hwf w x
  have hbank' : ∀ cell ∈ delayWrite dly w x, cell.1 < 4 * b := writeWord_bank hw hbank
  unfold feedbackWrite
  split
  · exact ⟨writeWord_wf hwf' w _, writeWord_bank hw hbank'⟩
  · exact ⟨hwf', hbank'⟩

theorem advance_lt {b w : Nat} (h : w < b) : advance b w < b := Nat.mod_lt _ (by omega)

/-- A channel comes out of a frame of a running block as it went in: within its invariant. -/
theorem channelFrame_ok {s : State} (h : s.Inv) (hb : s.lifecycle = .busy) {ch : Channel} (hc : ch ∈ s.chans) {c : Nat}
    {x : F} {r : Channel × F} (hr : channelFrame (frameParams s) c ch x = .next r) :
    Channel.Ok s.params s.fsHost r.1 := by
  obtain ⟨p, d, -, -, heq⟩ := channelFrame_inv h hb hc c x
  obtain rfl := Host.Outcome.next.inj (hr.symm.trans heq)
  have hch := h.channel ch hc
  have hrate := (h.configured (by rw [hb]; decide)).rate
  obtain ⟨hwf, hbank⟩ := feedbackWrite_ok hch.wpos hch.wf hch.bank (fbOn s) (frameNaN s.draws c 1) x d
  exact ⟨advance_lt hch.wpos, (phaseOk_advance hch.phase hrate (in01_cur h.rate)).settle _, hwf, hbank⟩

/-- All channels come out of a frame within their invariant. -/
theorem frameChannels_ok {s : State} (h : s.Inv) (hb : s.lifecycle = .busy) {rs : List (Channel × F)}
    (hr : frameChannels (frameParams s) s 0 s.chans = .next rs) :
    ∀ ch ∈ rs.map Prod.fst, Channel.Ok s.params s.fsHost ch := by
  obtain ⟨hlen, hget⟩ := frameChannels_get hr
  intro ch hch
  obtain ⟨r, hmem, rfl⟩ := List.mem_map.1 hch
  obtain ⟨k, hk, rfl⟩ := List.mem_iff_getElem.1 hmem
  obtain ⟨r', hr', hcf⟩ := hget k (s.chans[k]'(by omega)) (List.getElem?_eq_getElem (by omega))
  obtain rfl : rs[k] = r' := by simpa [hk] using hr'
  exact channelFrame_ok h hb (List.getElem_mem _) hcf

end Sys2Proof.Machine
end

section
/-! PROOFS. The invariants of the state: they hold at reset, and every step keeps them. -/

namespace Sys2Proof.Machine

/-! ## What the invariants speak of -/

/-- The invariants do not speak of the operand, result and error registers, the host's list and the free choices. -/
theorem State.Inv.with_registers {s : State} (h : s.Inv) {err last : Code} {arg0 arg1 result : Word} {turn : Agent}
    {draws : Nat} {hostQ : List HostOp} :
    State.Inv { s with
      err := err, last := last, arg0 := arg0, arg1 := arg1, result := result, turn := turn, draws := draws, hostQ := hostQ } where
  mix := h.mix
  rate := h.rate
  depth := h.depth
  feedback := h.feedback
  delay := h.delay
  configured := fun hl => ⟨(h.configured hl).channels, (h.configured hl).rate, (h.configured hl).records⟩
  channel := h.channel
  running := fun hl => ⟨(h.running hl).left, (h.running hl).inside⟩
  inWf := h.inWf
  outWf := h.outWf
  races := ⟨h.races.dropped, h.races.logged, h.races.distinct⟩
  legal := h.legal

theorem refuse_inv {s : State} (h : s.Inv) (e : Code) : (refuse e s).Inv := h.with_registers

theorem accept_inv {s : State} (h : s.Inv) : (accept s).Inv := h.with_registers

theorem tick_inv {s : State} (h : s.Inv) : (tick s).Inv := h.with_registers

theorem popHost_inv {s : State} (h : s.Inv) (rest : List HostOp) : (popHost s rest).Inv := h.with_registers

theorem drawTurn_inv {s : State} (h : s.Inv) : (drawTurn s).Inv := by
  unfold drawTurn
  split
  · exact h.with_registers
  · exact h

theorem regWrite_inv {s : State} (h : s.Inv) (index : Nat) (v : Word) : (regWrite s index v).Inv := by
  unfold regWrite
  split
  · exact h.with_registers
  · exact h.with_registers
  · exact h

/-! ## Outside a running block no race is recorded -/

theorem State.RacesOk.of_empty {s : State} (h : s.inRace = [] ∧ s.outRace = [] ∧ s.outPending = []) : s.RacesOk where
  dropped := fun _ => h
  logged := by simp [h.2.2]
  distinct := by simp [h.2.2]

/-! ## The commands -/

/-- Parameter values within their ranges can be put in the place of the old ones. -/
theorem State.Inv.with_params {s : State} (h : s.Inv) {mix rate depth : Ramper} {fb dl : F} (hm : mix.Ok) (hr : rate.Ok)
    (hd : depth.Ok) (hfb : In01 fb) (hdl : In01 dl) :
    State.Inv { s with
      rampMix := mix, rampRate := rate, rampDepth := depth, togFeedback := fb, togDelay := dl } where
  mix := hm
  rate := hr
  depth := hd
  feedback := hfb
  delay := hdl
  configured := fun hl => ⟨(h.configured hl).channels, (h.configured hl).rate, (h.configured hl).records⟩
  channel := h.channel
  running := fun hl => ⟨(h.running hl).left, (h.running hl).inside⟩
  inWf := h.inWf
  outWf := h.outWf
  races := ⟨h.races.dropped, h.races.logged, h.races.distinct⟩
  legal := h.legal

theorem getRamp_ok {s : State} (h : s.Inv) (r : RampId) : (s.getRamp r).Ok := by
  cases r
  · exact h.mix
  · exact h.rate
  · exact h.depth

theorem setRamp_inv {s : State} (h : s.Inv) (r : RampId) {v : Ramper} (hv : v.Ok) : (s.setRamp r v).Inv := by
  cases r
  · exact h.with_params hv h.rate h.depth h.feedback h.delay
  · exact h.with_params h.mix hv h.depth h.feedback h.delay
  · exact h.with_params h.mix h.rate hv h.feedback h.delay

theorem setTog_inv {s : State} (h : s.Inv) (t : TogId) {v : F} (hv : In01 v) : (s.setTog t v).Inv := by
  cases t
  · exact h.with_params h.mix h.rate h.depth hv h.delay
  · exact h.with_params h.mix h.rate h.depth h.feedback hv

theorem setParam_inv {s : State} (h : s.Inv) (p : Param) {v : F} (hv : In01 v) : (setParam s p v).Inv := by
  cases p with
  | ramped r => exact setRamp_inv h r (setUIValue_ok (getRamp_ok h r) hv)
  | toggle t => exact setTog_inv h t hv
  | unknown => exact h

theorem rampParam_inv {s : State} (h : s.Inv) (p : Param) {v : F} (hv : In01 v) (d : Word) :
    (rampParam s p v d).Inv := by
  cases p with
  | ramped r => exact setRamp_inv h r (startRamp_ok (getRamp_ok h r) hv _ d)
  | toggle t => exact h
  | unknown => exact h

theorem dezipperAll_inv {s : State} (h : s.Inv) : (dezipperAll s).Inv :=
  h.with_params (dezipperCheck_ok h.mix _ _) (dezipperCheck_ok h.rate _ _) (dezipperCheck_ok h.depth _ _) h.feedback h.delay

/-- A block started in READY inside the host buffers runs inside them, with a frame left unless it has none (R110, R119). -/
theorem startBlock_inv {s : State} (h : s.Inv) (hl : s.lifecycle = .ready) {n off : Word}
    (hin : off.toNat + n.toNat ≤ s.params.hostBufLen) : (startBlock s n off).Inv where
  mix := h.mix
  rate := h.rate
  depth := h.depth
  feedback := h.feedback
  delay := h.delay
  configured := fun _ =>
    have hc := h.configured (by simp [hl])
    ⟨hc.channels, hc.rate, hc.records⟩
  channel := h.channel
  running := fun hb => by
    have hn : n ≠ 0#32 := by rintro rfl; simp at hb
    refine ⟨?_, hin⟩
    have : n.toNat ≠ 0 := fun h0 => hn (BitVec.eq_of_toNat_eq h0)
    simp only [startBlock_blkF, startBlock_blkCount, BitVec.toNat_ofNat]
    omega
  inWf := h.inWf
  outWf := h.outWf
  races := .of_empty (h.races.dropped (by simp [hl]))
  legal := h.legal

/-- A channel as INIT and RESET leave it is within its invariant wherever the buffer has a word (R33). -/
theorem freshChannel_ok {p : HwParams} {fs : Nat} (h : 0 < bufSize p fs) : Channel.Ok p fs freshChannel :=
  ⟨h, ⟨by decide, by decide⟩, Memory.wf_nil, by simp [freshChannel]⟩

/-- What the checks of R161 let through. -/
theorem initCheck_eq_none {s : State} {nch fs : Nat} (h : initCheck s nch fs = .none) :
    s.lifecycle ≠ .busy ∧ (1 ≤ nch ∧ nch ≤ s.params.maxCh) ∧ 0 < bufSize s.params fs ∧ LegalRate fs := by
  unfold initCheck at h
  split at h
  · cases h
  split at h
  · cases h
  split at h
  · cases h
  split at h
  · cases h
  split at h
  · cases h
  · unfold LegalRate
    exact ⟨‹_›, by omega, by omega, by omega⟩

theorem initialise_inv {s : State} (h : s.Inv) {nch fs : Nat} (hc : initCheck s nch fs = .none) :
    (initialise s nch fs).Inv := by
  obtain ⟨hl, hn, hb, hr⟩ := initCheck_eq_none hc
  exact {
    mix := idleRamper_ok (in01_paramInit 0)
    rate := idleRamper_ok (in01_paramInit 1)
    depth := idleRamper_ok (in01_paramInit 2)
    feedback := in01_paramInit 3
    delay := in01_paramInit 4
    configured := fun _ => ⟨hn, hr, by simp⟩
    channel := fun ch hch => by
      obtain rfl := List.eq_of_mem_replicate hch
      exact freshChannel_ok hb
    running := by simp
    inWf := h.inWf
    outWf := h.outWf
    races := .of_empty (h.races.dropped hl)
    legal := h.legal }

/-- Flushing the channels keeps their number and leaves each within its invariant (R162). -/
theorem flush_inv {s : State} (h : s.Inv) : State.Inv { s with chans := s.chans.map flushChannel } where
  mix := h.mix
  rate := h.rate
  depth := h.depth
  feedback := h.feedback
  delay := h.delay
  configured := fun hl =>
    ⟨(h.configured hl).channels, (h.configured hl).rate, (List.length_map _).trans (h.configured hl).records⟩
  channel := fun ch hch => by
    obtain ⟨old, hold, rfl⟩ := List.mem_map.1 hch
    exact freshChannel_ok (Nat.zero_lt_of_lt (h.channel old hold).wpos)
  running := fun hl => ⟨(h.running hl).left, (h.running hl).inside⟩
  inWf := h.inWf
  outWf := h.outWf
  races := ⟨h.races.dropped, h.races.logged, h.races.distinct⟩
  legal := h.legal

/-- Every command keeps the invariants. -/
theorem exec_inv {s t : State} (h : s.Inv) (i : Instr) (ht : exec i s = .next t) : t.Inv := by
  cases i with
  | init =>
    simp only [exec, execInit] at ht
    split at ht <;> obtain rfl := Host.Outcome.next.inj ht
    · exact initialise_inv h ‹_›
    · exact refuse_inv h _
  | reset =>
    simp only [exec, execReset] at ht
    split at ht <;> obtain rfl := Host.Outcome.next.inj ht
    · exact accept_inv (flush_inv h)
    · exact refuse_inv h _
  | process =>
    simp only [exec, execProcess] at ht
    split at ht
    · obtain rfl := Host.Outcome.next.inj ht
      exact refuse_inv h _
    · rename_i hl
      split at ht <;> obtain rfl := Host.Outcome.next.inj ht
      · exact refuse_inv h _
      · rename_i hin
        exact accept_inv (startBlock_inv (dezipperAll_inv h) (by simpa using hl) (Nat.le_of_not_lt hin))
  | setp pid =>
    simp only [exec, execSetp] at ht
    split at ht <;> obtain rfl := Host.Outcome.next.inj ht
    · exact refuse_inv h _
    · exact accept_inv (setParam_inv h _ (in01_clamp _))
  | getp pid =>
    simp only [exec, execGetp] at ht
    split at ht <;> obtain rfl := Host.Outcome.next.inj ht
    · exact refuse_inv h _
    · exact accept_inv h.with_registers
  | ramp pid =>
    simp only [exec, execRamp] at ht
    split at ht <;> obtain rfl := Host.Outcome.next.inj ht
    · exact refuse_inv h _
    · exact accept_inv (rampParam_inv h _ (in01_clamp _) _)

/-! ## The host's accesses -/

/-- What a host access can change beside the registers: `IN`, the log and the records of races. -/
theorem State.Inv.with_host {s : State} (h : s.Inv) {inMem : Memory} {inRace : List (Nat × Word)}
    {outPending : List (Nat × Nat)} {hostLog : List Word} (hi : Memory.wf inMem)
    (hr : State.RacesOk { s with inMem := inMem, inRace := inRace, outPending := outPending, hostLog := hostLog }) :
    State.Inv { s with inMem := inMem, inRace := inRace, outPending := outPending, hostLog := hostLog } where
  mix := h.mix
  rate := h.rate
  depth := h.depth
  feedback := h.feedback
  delay := h.delay
  configured := fun hl => ⟨(h.configured hl).channels, (h.configured hl).rate, (h.configured hl).records⟩
  channel := h.channel
  running := fun hl => ⟨(h.running hl).left, (h.running hl).inside⟩
  inWf := hi
  outWf := h.outWf
  races := hr
  legal := h.legal

/-- A longer log has a place for every pending read that had one. -/
theorem logRead_races {s : State} (h : s.RacesOk) (v : Word) : (logRead s v).RacesOk where
  dropped := h.dropped
  logged := fun e he => by
    have := h.logged e he
    simp only [logRead, List.length_append]
    omega
  distinct := h.distinct

theorem logRead_inv {s : State} (h : s.Inv) (v : Word) : (logRead s v).Inv :=
  h.with_host h.inWf (logRead_races h.races v)

theorem inRunningBlock_busy {s : State} {i : Nat} (h : inRunningBlock s i = true) : s.lifecycle = .busy := by
  simp only [inRunningBlock, Bool.and_eq_true, beq_iff_eq] at h
  exact h.1.1

theorem awaitsFrame_busy {s : State} {i : Nat} (h : awaitsFrame s i = true) : s.lifecycle = .busy := by
  simp only [awaitsFrame, Bool.and_eq_true] at h
  exact inRunningBlock_busy h.1

/-- Outside a running block a host write of `IN` is no race (R61). -/
theorem hostWriteIn_races {s : State} (h : s.RacesOk) (c i : Nat) (v : F) : (hostWriteIn s c i v).RacesOk where
  dropped := fun hl => by
    obtain ⟨hi, ho⟩ := h.dropped hl
    have hnot : inRunningBlock s i ≠ true := fun hr => hl (inRunningBlock_busy hr)
    exact ⟨by simp [hostWriteIn, hnot, hi], ho⟩
  logged := h.logged
  distinct := h.distinct

theorem hostWriteIn_inv {s : State} (h : s.Inv) (c i : Nat) (v : F) : (hostWriteIn s c i v).Inv :=
  h.with_host (writeWord_wf h.inWf _ _) (hostWriteIn_races h.races c i v)

/-- A read that waits for its frame gets the place in the log after every earlier one (log 13). -/
theorem hostReadOut_races {s : State} (h : s.RacesOk) (c i draw : Nat) : (hostReadOut s c i draw).RacesOk := by
  obtain ⟨dropped, logged, distinct⟩ := logRead_races h
    (raced (readWord s.outMem (hostIndex c i)) (olderAt s.outRace (hostIndex c i)) draw)
  unfold hostReadOut
  split
  · rename_i hp
    have hbusy : s.lifecycle = .busy := awaitsFrame_busy (Bool.and_eq_true _ _ ▸ hp).1
    refine ⟨fun hl => absurd hbusy hl, fun e he => ?_, ?_⟩
    · rcases List.mem_append.1 he with he | he
      · exact logged e he
      · obtain rfl := List.mem_singleton.1 he
        simp [logRead]
    · refine List.pairwise_append.2 ⟨distinct, List.pairwise_singleton _ _, fun e he f hf => ?_⟩
      obtain rfl := List.mem_singleton.1 hf
      exact h.logged e he
  · exact ⟨dropped, logged, distinct⟩

theorem hostReadOut_inv {s : State} (h : s.Inv) (c i draw : Nat) : (hostReadOut s c i draw).Inv :=
  h.with_host h.inWf (hostReadOut_races h.races c i draw)

theorem blank_ok : Ramper.blank.Ok := idleRamper_ok in01_zero

/-- The engine right after hardware reset meets its invariants beside any canonical memories with legal parameters (R33). -/
theorem inv_of_engine_reset {s : State} (he : s.toEngine = .reset) (hl : Legal s.params) (hi : Memory.wf s.inMem)
    (ho : Memory.wf s.outMem) (hr : s.RacesOk) : s.Inv := by
  obtain ⟨e, p, outMem, outRace, outPending, hostQ, hostLog⟩ := s
  obtain rfl : e = .reset := he
  exact {
    mix := blank_ok
    rate := blank_ok
    depth := blank_ok
    feedback := in01_zero
    delay := in01_zero
    configured := fun h => absurd rfl h
    channel := by simp [Engine.reset]
    running := fun h => absurd h (by simp [Engine.reset])
    inWf := hi
    outWf := ho
    races := hr
    legal := hl }

theorem hardReset_inv {s : State} (h : s.Inv) : (hardReset s).Inv :=
  inv_of_engine_reset rfl h.legal h.inWf h.outWf (.of_empty ⟨rfl, rfl, rfl⟩)

/-- Every host access that is no command keeps the invariants. -/
theorem hostAccess_inv {s t : State} (h : s.Inv) (op : HostOp) (ht : hostAccess op s = .next t) : t.Inv := by
  cases op with
  | writeReg index v =>
    obtain rfl := Host.Outcome.next.inj ht
    exact regWrite_inv h _ _
  | readReg index =>
    obtain rfl := Host.Outcome.next.inj ht
    exact logRead_inv h _
  | writeBus addr width v =>
    simp only [hostAccess] at ht
    split at ht
    · obtain rfl := Host.Outcome.next.inj ht
      exact regWrite_inv h _ _
    · cases ht
  | readBus addr width =>
    simp only [hostAccess] at ht
    split at ht
    · obtain rfl := Host.Outcome.next.inj ht
      exact logRead_inv h _
    · cases ht
  | writeIn c i v =>
    simp only [hostAccess] at ht
    split at ht
    · obtain rfl := Host.Outcome.next.inj ht
      exact hostWriteIn_inv h _ _ _
    · cases ht
  | readOut c i =>
    simp only [hostAccess] at ht
    split at ht
    · obtain rfl := Host.Outcome.next.inj ht
      exact hostReadOut_inv h _ _ _
    · cases ht
  | wait =>
    obtain rfl := Host.Outcome.next.inj ht
    exact h
  | hardReset =>
    obtain rfl := Host.Outcome.next.inj ht
    exact hardReset_inv h

theorem hostStep_inv {s t : State} (h : s.Inv) (op : HostOp) (ht : hostStep op s = .next t) : t.Inv := by
  unfold hostStep at ht
  split at ht
  · unfold issue at ht
    split at ht
    · exact exec_inv h _ ht
    · obtain rfl := Host.Outcome.next.inj ht
      exact refuse_inv h _
  · exact hostAccess_inv h op ht

/-! ## The frame -/

/-- A frame that is not the last one leaves a frame to compute (R111). -/
theorem frame_left {s : State} (h : s.blkF.toNat < s.blkCount.toNat) (hl : lastFrame s = false) :
    (s.blkF + 1#32).toNat < s.blkCount.toNat := by
  have hne : s.blkF + 1#32 ≠ s.blkCount := by simpa [lastFrame] using hl
  have hne : (s.blkF + 1#32).toNat ≠ s.blkCount.toNat := fun he => hne (BitVec.eq_of_toNat_eq he)
  have := s.blkCount.isLt
  rw [BitVec.toNat_add] at hne ⊢
  simp only [BitVec.toNat_ofNat] at hne ⊢
  omega

/-- After the last frame no race is recorded; before it, the pending reads are some of the old ones, in their order (R61). -/
theorem finishFrame_races {s : State} (h : s.RacesOk) (rs : List (Channel × F)) : (finishFrame s rs).RacesOk := by
  by_cases hl : lastFrame s = true
  · exact .of_empty (by simp [hl])
  · refine ⟨by simp [hl], fun e he => ?_, ?_⟩
    · simp only [finishFrame_outPending, hl, Bool.false_eq_true, if_false] at he
      rw [finishFrame_hostLog, resolveReads_length]
      exact h.logged e (List.mem_filter.1 he).1
    · simp only [finishFrame_outPending, hl, Bool.false_eq_true, if_false]
      exact h.distinct.filter _

theorem finishFrame_inv {s : State} (h : s.Inv) (hb : s.lifecycle = .busy) {rs : List (Channel × F)}
    (hr : frameChannels (frameParams s) s 0 s.chans = .next rs) : (finishFrame s rs).Inv where
  mix := stepRamper_ok h.mix
  rate := stepRamper_ok h.rate
  depth := stepRamper_ok h.depth
  feedback := h.feedback
  delay := h.delay
  configured := fun _ => by
    have hc := h.configured (by simp [hb])
    refine ⟨hc.channels, hc.rate, ?_⟩
    rw [finishFrame_chans, List.length_map, (frameChannels_get hr).1]
    exact hc.records
  channel := frameChannels_ok h hb hr
  running := fun hl => by
    have hlast : lastFrame s = false := by
      by_contra hc
      simp [hc] at hl
    exact ⟨frame_left (h.running hb).left hlast, (h.running hb).inside⟩
  inWf := h.inWf
  outWf := writeOut_wf h.outWf
  races := finishFrame_races h.races rs
  legal := h.legal

theorem frameStep_inv {s t : State} (h : s.Inv) (hb : s.lifecycle = .busy) (ht : frameStep s = .next t) : t.Inv := by
  obtain ⟨-, rs, hr, rfl⟩ := frameStep_eq_next.1 ht
  exact finishFrame_inv h hb hr

/-! ## A step -/

/-- Every step keeps the invariants. -/
theorem step_inv {s t : State} (h : s.Inv) (ht : step s = .next t) : t.Inv := by
  rcases step_cases ht with ⟨-, rfl⟩ | ⟨-, hb, u, hu, rfl⟩ | ⟨-, op, rest, u, -, hu, rfl⟩
  · exact h
  · exact drawTurn_inv (frameStep_inv (tick_inv h) hb hu)
  · exact drawTurn_inv (hostStep_inv (popHost_inv h rest) op hu)

/-! ## No step changes the open parameters (R9) -/

theorem exec_params {s t : State} (i : Instr) (ht : exec i s = .next t) : t.params = s.params := by
  cases i with
  | init =>
    simp only [exec, execInit] at ht
    split at ht <;> obtain rfl := Host.Outcome.next.inj ht <;> rfl
  | reset =>
    simp only [exec, execReset] at ht
    split at ht <;> obtain rfl := Host.Outcome.next.inj ht <;> rfl
  | process =>
    simp only [exec, execProcess] at ht
    split at ht
    · obtain rfl := Host.Outcome.next.inj ht
      rfl
    · split at ht <;> obtain rfl := Host.Outcome.next.inj ht <;> rfl
  | setp pid =>
    simp only [exec, execSetp] at ht
    split at ht <;> obtain rfl := Host.Outcome.next.inj ht
    · rfl
    · rcases paramOf pid with r | t | _ <;> simp [setParam]
  | getp pid =>
    simp only [exec, execGetp] at ht
    split at ht <;> obtain rfl := Host.Outcome.next.inj ht <;> rfl
  | ramp pid =>
    simp only [exec, execRamp] at ht
    split at ht <;> obtain rfl := Host.Outcome.next.inj ht
    · rfl
    · rcases paramOf pid with r | t | _ <;> simp [rampParam]

theorem regWrite_params (s : State) (index : Nat) (v : Word) : (regWrite s index v).params = s.params := by
  unfold regWrite
  split <;> rfl

theorem hostAccess_params {s t : State} (op : HostOp) (ht : hostAccess op s = .next t) : t.params = s.params := by
  cases op <;> simp only [hostAccess] at ht
  case writeReg index v =>
    obtain rfl := Host.Outcome.next.inj ht
    exact regWrite_params _ _ _
  case writeBus addr width v =>
    split at ht
    · obtain rfl := Host.Outcome.next.inj ht
      exact regWrite_params _ _ _
    · cases ht
  case readReg | wait | hardReset => obtain rfl := Host.Outcome.next.inj ht; rfl
  case readBus | writeIn | readOut =>
    split at ht
    · obtain rfl := Host.Outcome.next.inj ht
      rfl
    · cases ht

theorem hostStep_params {s t : State} (op : HostOp) (ht : hostStep op s = .next t) : t.params = s.params := by
  unfold hostStep at ht
  split at ht
  · unfold issue at ht
    split at ht
    · exact exec_params _ ht
    · obtain rfl := Host.Outcome.next.inj ht
      rfl
  · exact hostAccess_params op ht

theorem step_params {s t : State} (ht : step s = .next t) : t.params = s.params := by
  rcases step_cases ht with ⟨-, rfl⟩ | ⟨-, -, u, hu, rfl⟩ | ⟨-, op, rest, u, -, hu, rfl⟩
  · rfl
  · obtain ⟨-, rs, -, rfl⟩ := frameStep_eq_next.1 hu
    simp
  · simpa using hostStep_params op hu

/-! ## The two statements -/

/-- Settles O56: the invariants are kept access by access and frame by frame, and no part of a step writes the open parameters. -/
theorem stepKeepsTheInvariants : Obligations.StepKeepsTheInvariants :=
  fun _ _ h ht => ⟨step_inv h ht, step_params ht⟩

/-- Settles O55: only the guard of `powerOn` asks for legality, and the engine after reset meets its invariants by itself. -/
theorem invariantsHoldAtReset : Obligations.InvariantsHoldAtReset := by
  have hdef : Legal .default := by decide
  refine ⟨if_pos hdef, fun p => ⟨fun h => if_neg h, fun h => ⟨State.resetOf p, if_pos h, rfl, rfl, ?_, ?_⟩⟩⟩
  · exact inv_of_engine_reset rfl h Memory.wf_nil Memory.wf_nil (.of_empty ⟨rfl, rfl, rfl⟩)
  · simp [State.Uniform, State.resetOf, Engine.reset]

end Sys2Proof.Machine
end

section
/-! PROOFS. The primitives of R13 and R17: CLAMP01, and rounding to the nearest value, ties to even. -/

namespace Sys2Proof.Num

/-! ## CLAMP01 by cases of its operand (R17) -/

theorem clamp01_of_nan {a : F} (h : isNaN a = true) : clamp01 a = zero := by
  rw [clamp01, if_pos h]

theorem clamp01_of_lt_zero {a : F} (h : flt a zero = true) : clamp01 a = zero := by
  rw [clamp01, if_pos h, ite_self]

theorem clamp01_of_one_lt {a : F} (h : flt one a = true) : clamp01 a = one := by
  obtain ⟨-, hn, hv⟩ := flt_iff.1 h
  have h0 : ¬ flt a zero = true := fun hlt => by
    have hz := (flt_iff.1 hlt).2.2
    have : value zero < value one := by decide
    omega
  rw [clamp01, if_neg (by simp [hn]), if_neg h0, if_pos h]

theorem clamp01_of_in01 {a : F} (h : Machine.In01 a) : clamp01 a = a := by
  obtain ⟨-, hn, hv0⟩ := fle_iff.1 h.1
  obtain ⟨-, -, hv1⟩ := fle_iff.1 h.2
  have h0 : ¬ flt a zero = true := fun hlt => absurd (flt_iff.1 hlt).2.2 (not_lt.2 hv0)
  have h1 : ¬ flt one a = true := fun hlt => absurd (flt_iff.1 hlt).2.2 (not_lt.2 hv1)
  rw [clamp01, if_neg (by simp [hn]), if_neg h0, if_neg h1]

/-- Settles O22, a case of CLAMP01 at a time. -/
theorem clampGivesUnitInterval : Obligations.ClampGivesUnitInterval := fun a =>
  ⟨Machine.in01_clamp a, clamp01_of_in01, clamp01_of_nan, clamp01_of_lt_zero, clamp01_of_one_lt⟩

/-! ## Rounding to nearest, ties to even -/

/-- The significand rounded to is the nearer one, and the even one of two equally near ones. -/
theorem roundQuot_nearest (num den : Nat) :
    (roundQuot num den = num / den ∧ 2 * (num % den) ≤ den ∧ (2 * (num % den) = den → num / den % 2 = 0)) ∨
    (roundQuot num den = num / den + 1 ∧ den ≤ 2 * (num % den) ∧ (2 * (num % den) = den → (num / den + 1) % 2 = 0)) := by
  unfold roundQuot
  split
  · exact .inr ⟨rfl, by omega, by omega⟩
  · exact .inl ⟨rfl, by omega, by omega⟩

/-- The pattern rounded to and the one across the exact quotient: the quotient lies between their magnitudes, on the side
of the first one of the middle, and in the middle only when the first pattern is even. -/
theorem rawPattern_nearest (num den : Nat) (hd : 0 < den) :
    (units (rawPattern num den) * den ≤ num ∧
      2 * num ≤ units (rawPattern num den) * den + units (rawPattern num den + 1) * den ∧
      (2 * num = units (rawPattern num den) * den + units (rawPattern num den + 1) * den → rawPattern num den % 2 = 0)) ∨
    (∃ r, rawPattern num den = r + 1 ∧ num ≤ units (r + 1) * den ∧
      units r * den + units (r + 1) * den ≤ 2 * num ∧
      (units r * den + units (r + 1) * den = 2 * num → (r + 1) % 2 = 0)) := by
  obtain ⟨hlt, hge⟩ := significand_bounds num den
  have hD : 0 < den * 2 ^ ((num / den).log2 - 23) := by positivity
  have key := roundQuot_nearest num (den * 2 ^ ((num / den).log2 - 23))
  unfold rawPattern
  generalize (num / den).log2 - 23 = e at *
  have hdm := Nat.div_add_mod num (den * 2 ^ e)
  have hml := Nat.mod_lt num hD
  have u0 := units_block e (num / (den * 2 ^ e)) (by omega) hge
  have u1 := units_block e (num / (den * 2 ^ e) + 1) (by omega) (by omega)
  generalize num / (den * 2 ^ e) = m at *
  generalize num % (den * 2 ^ e) = r at *
  have a0 : m * 2 ^ e * den = den * 2 ^ e * m := by ring
  have a1 : (m + 1) * 2 ^ e * den = den * 2 ^ e * m + den * 2 ^ e := by ring
  generalize den * 2 ^ e = D at *
  generalize D * m = x at *
  rcases key with ⟨hk, hle, heven⟩ | ⟨hk, hle, heven⟩
  · left
    rw [hk, Nat.add_assoc, u0, u1, a0, a1]
    omega
  · right
    refine ⟨e * 8388608 + m, by rw [hk]; omega, ?_⟩
    rw [Nat.add_assoc, u0, u1, a0, a1]
    omega

/-- A point that is at least as near to `u` as to `w` beyond it is nearer to `u` than to any point that does not lie
between the two, other than a `w` equally near. -/
theorem abs_sub_le_of_middle {x u w v : Int} (hu : u ≤ x) (hm : 2 * x ≤ u + w) (hv : v ≤ u ∨ w ≤ v) :
    |u - x| ≤ |v - x| ∧ (|u - x| = |v - x| → v ≠ u → 2 * x = u + w) := by
  rw [abs_of_nonpos (by omega : u - x ≤ 0)]
  rcases hv with hv | hv
  · rw [abs_of_nonpos (by omega : v - x ≤ 0)]
    omega
  · rw [abs_of_nonneg (by omega : 0 ≤ v - x)]
    omega

/-- The same with `w` below and `u` above. -/
theorem abs_sub_le_of_middle_above {x u w v : Int} (hu : x ≤ u) (hm : w + u ≤ 2 * x) (hv : v ≤ w ∨ u ≤ v) :
    |u - x| ≤ |v - x| ∧ (|u - x| = |v - x| → v ≠ u → w + u = 2 * x) := by
  obtain ⟨hle, hmid⟩ := abs_sub_le_of_middle (x := -x) (u := -u) (w := -w) (v := -v) (by omega) (by omega) (by omega)
  simp only [neg_sub_neg, abs_sub_comm x] at hle hmid
  exact ⟨hle, fun he hne => by have := hmid he (by omega); omega⟩

/-- No magnitude is nearer to the exact quotient than the rounded one, and of two equally near ones the even pattern is
taken. -/
theorem roundUnits_nearest {num den : Nat} (hd : 0 < den) (hfin : roundUnits num den < 2139095040) (n : Nat) :
    |((units (roundUnits num den) * den : Nat) : Int) - num| ≤ |((units n * den : Nat) : Int) - num| ∧
    (|((units (roundUnits num den) * den : Nat) : Int) - num| = |((units n * den : Nat) : Int) - num| →
      units n * den ≠ units (roundUnits num den) * den → roundUnits num den % 2 = 0) := by
  have hraw : roundUnits num den = rawPattern num den := by
    rw [roundUnits_eq] at hfin ⊢
    omega
  have hmono : ∀ {a b : Nat}, a ≤ b → units a * den ≤ units b * den := fun h => Nat.mul_le_mul_right den (units_mono h)
  rw [hraw]
  rcases rawPattern_nearest num den hd with ⟨hlo, hmid, heven⟩ | ⟨r, hr, hhi, hmid, heven⟩
  · have hside : units n * den ≤ units (rawPattern num den) * den ∨ units (rawPattern num den + 1) * den ≤ units n * den :=
      (Nat.lt_or_ge (rawPattern num den) n).symm.imp hmono hmono
    have hnear := abs_sub_le_of_middle (x := num) (v := (units n * den : Nat))
      (w := (units (rawPattern num den + 1) * den : Nat)) (Int.ofNat_le.2 hlo) (by omega) (by omega)
    exact ⟨hnear.1, fun he hne => heven (by have := hnear.2 he (by omega); omega)⟩
  · rw [hr]
    have hside : units n * den ≤ units r * den ∨ units (r + 1) * den ≤ units n * den :=
      (Nat.lt_or_ge r n).symm.imp hmono hmono
    have hnear := abs_sub_le_of_middle_above (x := num) (v := (units n * den : Nat)) (w := (units r * den : Nat))
      (Int.ofNat_le.2 hhi) (by omega) (by omega)
    exact ⟨hnear.1, fun he hne => heven (by have := hnear.2 he (by omega); omega)⟩

/-- `v` is, in units of 2^-149 times `den`, as near to the exact `x` as any value `c` of F, and of two equally near values
the one with the even pattern. -/
def Nearest (v : F) (den x : Int) : Prop :=
  ∀ c : F, |value v * den - x| ≤ |value c * den - x| ∧
    (|value v * den - x| = |value c * den - x| → value c ≠ value v → low31 v % 2 = 0)

/-- An exact value is its own nearest. -/
theorem Nearest.of_exact {v : F} {den x : Int} (hd : den ≠ 0) (h : value v * den = x) : Nearest v den x := by
  intro c
  rw [h, sub_self, abs_zero]
  refine ⟨abs_nonneg _, fun he hne => absurd ?_ hne⟩
  have hx : value c * den = x := by
    have := abs_eq_zero.1 he.symm
    omega
  exact mul_right_cancel₀ hd (hx.trans h.symm)

/-- Neither is any value below zero nearer to the exact quotient than the rounded one. -/
theorem roundUnits_nearest_int {num den : Nat} (hd : 0 < den) (hfin : roundUnits num den < 2139095040) {y : Int} {n : Nat}
    (hy : y.natAbs = units n) :
    |(units (roundUnits num den) : Int) * den - num| ≤ |y * den - num| ∧
    (|(units (roundUnits num den) : Int) * den - num| = |y * den - num| → y ≠ units (roundUnits num den) →
      roundUnits num den % 2 = 0) := by
  rw [← Nat.cast_mul]
  rcases lt_or_ge y 0 with hneg | hpos
  · have hzero := (roundUnits_nearest hd hfin 0).1
    rw [show units 0 = 0 from rfl, Nat.zero_mul, Nat.cast_zero, zero_sub, abs_neg, Nat.abs_cast] at hzero
    have hmul : y * den < 0 := Int.mul_neg_of_neg_of_pos hneg (Int.natCast_pos.2 hd)
    have hfar : (num : Int) < |y * den - num| := by
      rw [abs_of_neg (by omega)]
      omega
    exact ⟨by omega, fun he => by omega⟩
  · obtain ⟨hle, heven⟩ := roundUnits_nearest hd hfin n
    rw [show y = (units n : Int) by omega, ← Nat.cast_mul]
    exact ⟨hle, fun he hne => heven he fun hmul => hne (congrArg _ (Nat.eq_of_mul_eq_mul_right hd hmul))⟩

/-- Rounding a quotient of either sign gives the nearest value. -/
theorem nearest_pack (s : Bool) {num den : Nat} (hd : 0 < den) (hfin : roundUnits num den < 2139095040) :
    Nearest (pack s (roundUnits num den)) den (if s then -num else num) := by
  intro c
  rw [value_pack s (by omega), low31_pack s (by omega)]
  cases s with
  | false => exact roundUnits_nearest_int hd hfin (natAbs_value c)
  | true =>
    obtain ⟨hle, heven⟩ := roundUnits_nearest_int hd hfin (y := -value c) ((Int.natAbs_neg _).trans (natAbs_value c))
    have hflip : ∀ z : Int, |z * den - -num| = |-z * den - num| := fun z => by rw [← abs_neg]; congr 1; ring
    simp only [if_true, hflip, neg_neg]
    exact ⟨hle, fun he hne => heven he fun hc => hne (by omega)⟩

/-! ## The four operations -/

/-- A finite sum of finite values is the value nearest to the exact one. -/
theorem fadd_nearest {a b : F} (ha : isFinite a = true) (hb : isFinite b = true) (hf : isFinite (fadd a b) = true) :
    Nearest (fadd a b) 1 (value a + value b) := by
  rw [fadd_finite ha hb] at hf ⊢
  by_cases h0 : value a + value b = 0
  · rw [if_pos h0]
    exact .of_exact one_ne_zero (by rw [value_pack_zero, h0, zero_mul])
  · have hr := roundUnits_le_inf (value a + value b).natAbs 1
    rw [if_neg h0] at hf ⊢
    rw [isFinite_iff, low31_pack _ (by omega)] at hf
    have hnear := nearest_pack (decide (value a + value b < 0)) one_pos hf
    rwa [Nat.cast_one, show (if decide (value a + value b < 0) = true then -((value a + value b).natAbs : Int)
      else ((value a + value b).natAbs : Int)) = value a + value b by simp only [decide_eq_true_eq]; split <;> omega] at hnear

/-- A finite difference of finite values is the value nearest to the exact one. -/
theorem fsub_nearest {a b : F} (ha : isFinite a = true) (hb : isFinite b = true) (hf : isFinite (fsub a b) = true) :
    Nearest (fsub a b) 1 (value a - value b) := by
  have hnear := fadd_nearest ha (b := neg b) (by simpa using hb) hf
  rwa [value_neg, ← sub_eq_add_neg] at hnear

/-- A value is its magnitude with its sign. -/
theorem value_eq (a : F) : value a = if sign a then -(mag a : Int) else mag a := rfl

/-- A finite product of finite values is the value nearest to the exact one. -/
theorem fmul_nearest {a b : F} (ha : isFinite a = true) (hb : isFinite b = true) (hf : isFinite (fmul a b) = true) :
    Nearest (fmul a b) (2 ^ 149) (value a * value b) := by
  have hr := roundUnits_le_inf (mag a * mag b) (2 ^ 149)
  rw [fmul_finite ha hb] at hf ⊢
  rw [isFinite_iff, low31_pack _ (by omega)] at hf
  have hnear := nearest_pack (sign a != sign b) (Nat.two_pow_pos 149) hf
  have hexact : (if (sign a != sign b) = true then -((mag a * mag b : Nat) : Int) else (mag a * mag b : Nat)) =
      value a * value b := by
    rw [value_eq a, value_eq b]
    cases sign a <;> cases sign b <;> simp
  rwa [hexact, Nat.cast_pow, Nat.cast_ofNat] at hnear

/-- A finite quotient of finite values, the divisor not zero, is the value nearest to the exact one; both are multiplied by
the magnitude of the divisor. -/
theorem fdiv_nearest {a b : F} (ha : isFinite a = true) (hb : isFinite b = true) (h0 : mag b ≠ 0)
    (hf : isFinite (fdiv a b) = true) :
    Nearest (fdiv a b) (mag b) (if sign b then -(value a * 2 ^ 149) else value a * 2 ^ 149) := by
  have hr := roundUnits_le_inf (mag a * 2 ^ 149) (mag b)
  rw [fdiv_finite ha hb h0] at hf ⊢
  rw [isFinite_iff, low31_pack _ (by omega)] at hf
  have hnear := nearest_pack (sign a != sign b) (Nat.pos_of_ne_zero h0) hf
  have hexact : (if (sign a != sign b) = true then -((mag a * 2 ^ 149 : Nat) : Int) else (mag a * 2 ^ 149 : Nat)) =
      if sign b then -(value a * 2 ^ 149) else value a * 2 ^ 149 := by
    rw [value_eq a]
    cases sign a <;> cases sign b <;> simp
  rwa [hexact] at hnear

/-- Settles O44: the exact sum is rounded once, to the nearest value. -/
theorem sumIsCorrectlyRounded : Obligations.SumIsCorrectlyRounded := by
  intro a b c ha hb _
  exact ⟨fun hf => by simpa only [mul_one] using fadd_nearest ha hb hf c,
    fun hf => by simpa only [mul_one] using fsub_nearest ha hb hf c⟩

/-- Settles O45: the exact product is rounded once, to the nearest value. -/
theorem productIsCorrectlyRounded : Obligations.ProductIsCorrectlyRounded :=
  fun _ _ c ha hb _ hf => fmul_nearest ha hb hf c

/-- Settles O46: the exact quotient is rounded once, to the nearest value; the sign of the divisor changes no distance. -/
theorem quotientIsCorrectlyRounded : Obligations.QuotientIsCorrectlyRounded := by
  intro a b c ha hb hb0 _ hf
  have h0 : mag b ≠ 0 := by
    have := natAbs_value b
    omega
  have hnear := (fdiv_nearest ha hb h0 hf c).1
  have hdist : ∀ v : Int, |v * mag b - (if sign b then -(value a * 2 ^ 149) else value a * 2 ^ 149)| =
      |v * value b - value a * 2 ^ 149| := by
    intro v
    rw [value_eq b]
    cases sign b with
    | false => rfl
    | true =>
      simp only [if_true]
      rw [← abs_neg]
      congr 1
      ring
  rwa [hdist, hdist] at hnear

/-! ## LERP at its ends (R18) -/

/-- A product with a zero of either sign is a zero. -/
theorem fmul_zero_mag {a b : F} (ha : isFinite a = true) (hb : isFinite b = true) (h : mag a * mag b = 0) :
    fmul a b = pack (sign a != sign b) 0 := by
  rw [fmul_finite ha hb, h, roundUnits_zero (Nat.two_pow_pos 149)]

theorem isFinite_pack_zero (s : Bool) : isFinite (pack s 0) = true := by
  rw [isFinite_iff, low31_pack _ (by omega)]
  omega

/-- Adding a zero of either sign changes no value. -/
theorem value_fadd_zero {a : F} (ha : isFinite a = true) (s : Bool) : value (fadd a (pack s 0)) = value a := by
  have hn := isFinite_not_nan ha
  have hz := isFinite_pack_zero s
  exact le_antisymm (value_fadd_le ha hz hn (by rw [value_pack_zero, add_zero]))
    (le_value_fadd ha hz hn (by rw [value_pack_zero, add_zero]))

/-- Interpolation of a zero distance, or at a zero factor, stays at the left end. -/
theorem value_lerp_left {a b t : F} (ha : isFinite a = true) (ht : isFinite t = true) (hd : isFinite (fsub b a) = true)
    (h : mag (fsub b a) * mag t = 0) : value (lerp a b t) = value a := by
  rw [lerp, fmul_zero_mag hd ht h]
  exact value_fadd_zero ha _

/-- Settles O48: in both cases the product added to the left end is a zero. -/
theorem lerpMeetsItsEnds : Obligations.LerpMeetsItsEnds := by
  intro a b t ha ht
  have hself : fsub a a = pack (sign a && !sign a) 0 := by rw [fsub_finite ha ha, if_pos (sub_self _)]
  have hzero : mag 0x00000000#32 = 0 := by decide
  exact ⟨value_lerp_left ha ht (hself ▸ isFinite_pack_zero _) (by rw [hself, mag_pack_zero, Nat.zero_mul]),
    fun hd => value_lerp_left ha (by decide) hd (by rw [hzero, Nat.mul_zero])⟩

/-! ## TANH (R14, R19 P3) -/

/-- The magnitude pattern `TANH` gives for the magnitude pattern `n` of an operand that is not NaN. -/
def tanhMagnitude (n : Nat) : Nat :=
  if n < 0x39000000 then n else if 0x41180000 ≤ n then 0x3F800000 else tanhPattern n

/-- `TANH` keeps the sign and takes the magnitude through `tanhMagnitude`. -/
theorem tanh_eq {a : F} (h : isNaN a = false) : tanh a = pack (sign a) (tanhMagnitude (low31 a)) := by
  unfold tanh tanhMagnitude
  rw [h, if_neg Bool.false_ne_true]
  split
  · exact (pack_sign_low31 a).symm
  · split <;> rfl

/-- The exponential series does not fall when its argument rises. -/
theorem expSeries_mono {y z : Nat} (h : y ≤ z) : ∀ fuel k, expSeries y fuel k ≤ expSeries z fuel k
  | 0, _ => Nat.le_refl _
  | fuel + 1, k => Nat.add_le_add_left (Nat.div_le_div_right (Nat.mul_le_mul h (expSeries_mono h fuel (k + 1)))) _

/-- The series is at least 1. -/
theorem scale_le_expTwice (n : Nat) : scale ≤ expTwice n := Nat.le_add_right _ _

theorem expTwice_mono {m n : Nat} (h : m ≤ n) : expTwice m ≤ expTwice n :=
  expSeries_mono (Nat.mul_le_mul_right _ (units_mono h)) _ _

theorem scale_pos : 0 < scale := Nat.two_pow_pos 192

/-- `(e - 1) / (e + 1)` rises with `e`, so the rounded hyperbolic tangent of the series does not fall. -/
theorem tanhPattern_mono {m n : Nat} (h : m ≤ n) : tanhPattern m ≤ tanhPattern n := by
  have hs := scale_pos
  obtain ⟨d, hd⟩ := Nat.exists_eq_add_of_le (scale_le_expTwice m)
  obtain ⟨e, he⟩ := Nat.exists_eq_add_of_le (expTwice_mono h)
  have hcross : d * (scale + d + e + scale) ≤ (d + e) * (scale + d + scale) := by nlinarith
  unfold tanhPattern
  refine roundUnits_mono_quot (by omega) (by omega) ?_
  rw [he, hd, show scale + d + e - scale = d + e by omega, Nat.add_sub_cancel_left]
  calc d * 2 ^ 149 * (scale + d + e + scale) = d * (scale + d + e + scale) * 2 ^ 149 := by ring
    _ ≤ (d + e) * (scale + d + scale) * 2 ^ 149 := Nat.mul_le_mul_right _ hcross
    _ = (d + e) * 2 ^ 149 * (scale + d + scale) := by ring

/-- `(e - 1) / (e + 1)` is at most 1. -/
theorem tanhPattern_le_one (n : Nat) : tanhPattern n ≤ 0x3F800000 := by
  refine roundUnits_le (Nat.add_pos_right _ scale_pos) ?_
  rw [show units 0x3F800000 = 2 ^ 149 by decide, Nat.mul_comm]
  exact Nat.mul_le_mul_left _ (by omega)

/-- At 2^-13 the series does not fall below the identity it takes over from. -/
theorem identity_le_tanhPattern : 0x38FFFFFF ≤ tanhPattern 0x39000000 := by decide +kernel

theorem tanhMagnitude_le_one (n : Nat) : tanhMagnitude n ≤ 0x3F800000 := by
  unfold tanhMagnitude
  split
  · omega
  · split
    · exact Nat.le_refl _
    · exact tanhPattern_le_one n

/-- `TANH` of magnitudes is monotone: within the series, and where the identity and the constant 1.0 join it. -/
theorem tanhMagnitude_mono {m n : Nat} (h : m ≤ n) : tanhMagnitude m ≤ tanhMagnitude n := by
  by_cases hn : 0x41180000 ≤ n
  · rw [tanhMagnitude.eq_def n, if_neg (by omega), if_pos hn]
    exact tanhMagnitude_le_one m
  · by_cases hm : m < 0x39000000
    · by_cases hn' : n < 0x39000000
      · rw [tanhMagnitude, if_pos hm, tanhMagnitude, if_pos hn']
        exact h
      · rw [tanhMagnitude, if_pos hm, tanhMagnitude, if_neg hn', if_neg hn]
        have := identity_le_tanhPattern
        have := tanhPattern_mono (Nat.le_of_not_lt hn')
        omega
    · rw [tanhMagnitude, if_neg hm, if_neg (by omega), tanhMagnitude, if_neg (by omega), if_neg hn]
      exact tanhPattern_mono h

theorem tanhMagnitude_lt (n : Nat) : tanhMagnitude n < 2147483648 := by
  have := tanhMagnitude_le_one n
  omega

theorem tanh_neg {a : F} (h : isNaN a = false) : tanh (neg a) = neg (tanh a) := by
  have hlt := tanhMagnitude_lt (low31 a)
  rw [tanh_eq h, tanh_eq (by simpa using h), sign_neg, low31_neg, neg, sign_pack _ hlt, low31_pack _ hlt]

theorem mag_tanh_le_one {a : F} (h : isNaN a = false) : mag (tanh a) ≤ mag one := by
  rw [tanh_eq h, mag_pack _ (tanhMagnitude_lt _)]
  exact units_mono (tanhMagnitude_le_one _)

theorem mag_tanh_mono {a b : F} (ha : isNaN a = false) (hb : isNaN b = false) (h : mag a ≤ mag b) :
    mag (tanh a) ≤ mag (tanh b) := by
  rw [tanh_eq ha, tanh_eq hb, mag_pack _ (tanhMagnitude_lt _), mag_pack _ (tanhMagnitude_lt _)]
  exact units_mono (tanhMagnitude_mono (mag_le_iff.1 h))

theorem sign_tanh {a : F} (h : isNaN a = false) : sign (tanh a) = sign a := by
  rw [tanh_eq h, sign_pack _ (tanhMagnitude_lt _)]

theorem mag_tanh_eq_zero {a : F} (ha : isNaN a = false) (h : mag a = 0) : mag (tanh a) = 0 := by
  have hz : isNaN zero = false := by decide
  have hle := mag_tanh_mono ha hz (h.trans_le (Nat.zero_le _))
  have h0 : mag (tanh zero) = 0 := by decide
  omega

theorem value_tanh_mono {a b : F} (ha : isNaN a = false) (hb : isNaN b = false) (h : value a ≤ value b) :
    value (tanh a) ≤ value (tanh b) := by
  rw [value_eq (tanh a), value_eq (tanh b), sign_tanh ha, sign_tanh hb]
  rw [value_eq a, value_eq b] at h
  cases hsa : sign a <;> cases hsb : sign b <;>
    simp only [hsa, hsb, if_true, Bool.false_eq_true, if_false] at h ⊢
  · exact_mod_cast mag_tanh_mono ha hb (by omega)
  · have := mag_tanh_eq_zero ha (by omega)
    have := mag_tanh_eq_zero hb (by omega)
    omega
  · omega
  · have := mag_tanh_mono hb ha (by omega)
    omega

/-- Settles O47: the sign passes through, and the magnitude by a monotone function bounded by 1. -/
theorem tanhIsOddBoundedMonotone : Obligations.TanhIsOddBoundedMonotone :=
  fun _ _ ha hb => ⟨tanh_neg ha, mag_tanh_le_one ha, value_tanh_mono ha hb⟩

end Sys2Proof.Num
end

section
/-! PROOFS. A command by its two outcomes: the code it is refused with, or the state it is accepted into (R171). -/

namespace Sys2Proof.Machine

/-- The code a command is refused with in a state; `Code.none` when it is accepted. -/
def refusalCode (i : Instr) (s : State) : Code :=
  match i with
  | .init => initCheck s (u32Arg0 s) (u32Arg1 s)
  | .reset => if s.lifecycle = .ready then .none else .state
  | .process =>
    if s.lifecycle ≠ .ready then .state
    else if s.params.hostBufLen < u32Arg1 s + u32Arg0 s then .range
    else .none
  | .setp _ | .getp _ | .ramp _ => if s.lifecycle = .uninit then .state else .none

/-- The state an accepted command gives. -/
def acceptedState (i : Instr) (s : State) : State :=
  match i with
  | .init => initialise s (u32Arg0 s) (u32Arg1 s)
  | .reset => accept { s with chans := s.chans.map flushChannel }
  | .process => accept (startBlock (dezipperAll s) s.arg0 s.arg1)
  | .setp pid => accept (setParam s (paramOf pid) (Num.clamp01 (fArg0 s)))
  | .getp pid => accept { s with result := paramValue s (paramOf pid) }
  | .ramp pid => accept (rampParam s (paramOf pid) (Num.clamp01 (fArg0 s)) s.arg1)

/-- Every command either is refused with its code or does its work. -/
theorem exec_eq (i : Instr) (s : State) :
    exec i s = .next (if refusalCode i s = .none then acceptedState i s else refuse (refusalCode i s) s) := by
  cases i with
  | init => exact (apply_ite Host.Outcome.next _ _ _).symm
  | reset | setp | getp | ramp =>
    simp only [exec, execReset, execSetp, execGetp, execRamp, refusalCode, acceptedState]
    split <;> rfl
  | process =>
    simp only [exec, execProcess, refusalCode, acceptedState]
    split
    · rfl
    · split <;> rfl

/-- What a command can have done, guards included. -/
theorem exec_cases {i : Instr} {s t : State} (h : exec i s = .next t) :
    (refusalCode i s = .none ∧ t = acceptedState i s) ∨ (refusalCode i s ≠ .none ∧ t = refuse (refusalCode i s) s) := by
  rw [exec_eq] at h
  obtain rfl := Host.Outcome.next.inj h
  split
  · exact .inl ⟨‹_›, rfl⟩
  · exact .inr ⟨‹_›, rfl⟩

/-! ## What SETP and RAMP leave alone -/

@[simp] theorem setParam_arg0 (s : State) (p : Param) (v : F) : (setParam s p v).arg0 = s.arg0 := by
  cases p <;> simp [setParam]

@[simp] theorem setParam_arg1 (s : State) (p : Param) (v : F) : (setParam s p v).arg1 = s.arg1 := by
  cases p <;> simp [setParam]

@[simp] theorem setParam_chans (s : State) (p : Param) (v : F) : (setParam s p v).chans = s.chans := by
  cases p <;> simp [setParam]

@[simp] theorem rampParam_arg0 (s : State) (p : Param) (v : F) (d : Word) : (rampParam s p v d).arg0 = s.arg0 := by
  cases p <;> simp [rampParam]

@[simp] theorem rampParam_arg1 (s : State) (p : Param) (v : F) (d : Word) : (rampParam s p v d).arg1 = s.arg1 := by
  cases p <;> simp [rampParam]

@[simp] theorem rampParam_chans (s : State) (p : Param) (v : F) (d : Word) : (rampParam s p v d).chans = s.chans := by
  cases p <;> simp [rampParam]

end Sys2Proof.Machine
end

section
/-! PROOFS. The state: channels in step, rampers, toggles, control registers, STATUS. -/

namespace Sys2Proof.Machine

/-! ## All channels at one write position and one phase (R35) -/

/-- Channels that are all fresh are in step. -/
theorem State.Uniform.of_fresh {s : State} (h : ∀ ch ∈ s.chans, ch = freshChannel) : s.Uniform := by
  intro ch hc ch' hc'
  rw [h ch hc, h ch' hc']
  exact ⟨rfl, rfl⟩

/-- Being in step is a matter of the channels alone. -/
theorem State.Uniform.congr {s t : State} (h : s.Uniform) (hc : t.chans = s.chans) : t.Uniform := by
  unfold State.Uniform
  rw [hc]
  exact h

/-- A command leaves the channels as they are, or leaves nothing but fresh ones (R33). -/
theorem exec_chans {i : Instr} {s t : State} (h : exec i s = .next t) :
    t.chans = s.chans ∨ ∀ ch ∈ t.chans, ch = freshChannel := by
  rcases exec_cases h with ⟨-, rfl⟩ | ⟨-, rfl⟩
  · cases i with
    | init => exact .inr fun ch hch => List.eq_of_mem_replicate hch
    | reset =>
      refine .inr fun ch hch => ?_
      obtain ⟨_, -, rfl⟩ := List.mem_map.1 hch
      rfl
    | process | setp | getp | ramp => exact .inl (by simp [acceptedState])
  · exact .inl rfl

@[simp] theorem regWrite_chans (s : State) (index : Nat) (v : Word) : (regWrite s index v).chans = s.chans := by
  unfold regWrite
  split <;> rfl

/-- A host access other than hardware reset leaves the channels as they are; hardware reset leaves none. -/
theorem hostAccess_chans {op : HostOp} {s t : State} (h : hostAccess op s = .next t) : t.chans = s.chans ∨ t.chans = [] := by
  cases op <;> simp only [hostAccess] at h
  case writeReg =>
    obtain rfl := Host.Outcome.next.inj h
    exact .inl (regWrite_chans _ _ _)
  case readReg | wait =>
    obtain rfl := Host.Outcome.next.inj h
    exact .inl rfl
  case hardReset =>
    obtain rfl := Host.Outcome.next.inj h
    exact .inr rfl
  case writeBus =>
    split at h
    · obtain rfl := Host.Outcome.next.inj h
      exact .inl (regWrite_chans _ _ _)
    · cases h
  case readBus | writeIn | readOut =>
    split at h
    · obtain rfl := Host.Outcome.next.inj h
      exact .inl rfl
    · cases h

theorem hostStep_uniform {op : HostOp} {s t : State} (hu : s.Uniform) (h : hostStep op s = .next t) : t.Uniform := by
  unfold hostStep at h
  split at h
  · unfold issue at h
    split at h
    · rcases exec_chans h with hc | hc
      · exact hu.congr hc
      · exact .of_fresh hc
    · obtain rfl := Host.Outcome.next.inj h
      exact hu
  · rcases hostAccess_chans h with hc | hc
    · exact hu.congr hc
    · exact .of_fresh (by simp [hc])

/-- Whatever a frame's channels give comes from one of them. -/
theorem frameChannels_mem {p : FrameParams} {s : State} {chs : List Channel} : ∀ {c : Nat} {rs : List (Channel × F)},
    frameChannels p s c chs = .next rs → ∀ {r}, r ∈ rs → ∃ ch ∈ chs, ∃ k x, channelFrame p k ch x = .next r := by
  induction chs with
  | nil =>
    intro c rs h r hr
    obtain rfl := Host.Outcome.next.inj h
    cases hr
  | cons ch chs ih =>
    intro c rs h r hr
    obtain ⟨r₀, rs', rfl, hcf, hrest⟩ := frameChannels_cons.1 h
    rcases List.mem_cons.1 hr with rfl | hr
    · exact ⟨ch, by simp, c, _, hcf⟩
    · obtain ⟨ch', hch', hex⟩ := ih hrest hr
      exact ⟨ch', by simp [hch'], hex⟩

/-- A frame advances the position of a channel by one slot and its phase by the frame's increment; the phase is no NaN, so no
free value of the channel's own enters (R112, R116, R137). -/
theorem channelFrame_advance {s : State} (h : s.Inv) (hb : s.lifecycle = .busy) {ch : Channel} (hc : ch ∈ s.chans) {c : Nat}
    {x : F} {r : Channel × F} (hr : channelFrame (frameParams s) c ch x = .next r) :
    r.1.wpos = advance (bufSize s.params s.fsHost) ch.wpos ∧
      r.1.phase = wrap2Pi (Num.fadd ch.phase (phaseInc s.fsHost (cur s.rampRate))) := by
  obtain ⟨p, d, -, -, heq⟩ := channelFrame_inv h hb hc c x
  obtain rfl := Host.Outcome.next.inj (hr.symm.trans heq)
  have hrate := (h.configured (by rw [hb]; decide)).rate
  have hph := phaseOk_advance (h.channel ch hc).phase hrate (in01_cur h.rate)
  exact ⟨rfl, Num.settle_of_not_nan (Num.isFinite_not_nan hph.bounds.1)⟩

theorem frameStep_uniform {s t : State} (h : s.Inv) (hb : s.lifecycle = .busy) (hu : s.Uniform)
    (ht : frameStep s = .next t) : t.Uniform := by
  obtain ⟨-, rs, hr, rfl⟩ := frameStep_eq_next.1 ht
  have hadv : ∀ ch' ∈ rs.map Prod.fst, ∃ ch ∈ s.chans, ch'.wpos = advance (bufSize s.params s.fsHost) ch.wpos ∧
      ch'.phase = wrap2Pi (Num.fadd ch.phase (phaseInc s.fsHost (cur s.rampRate))) := by
    intro ch' hch'
    obtain ⟨r, hmem, rfl⟩ := List.mem_map.1 hch'
    obtain ⟨ch, hch, c, x, hcf⟩ := frameChannels_mem hr hmem
    exact ⟨ch, hch, channelFrame_advance h hb hch hcf⟩
  intro a ha b hb'
  obtain ⟨a₀, ha₀, haw, hap⟩ := hadv a ha
  obtain ⟨b₀, hb₀, hbw, hbp⟩ := hadv b hb'
  obtain ⟨hw, hp⟩ := hu a₀ ha₀ b₀ hb₀
  exact ⟨by rw [haw, hbw, hw], by rw [hap, hbp, hp]⟩

/-- Settles O57: a frame moves every channel by the same amounts, and a host access leaves the channels alone or fresh. -/
theorem channelsStayInStep : Obligations.ChannelsStayInStep := by
  intro s t h hu ht
  rcases step_cases ht with ⟨-, rfl⟩ | ⟨-, hb, u, hf, rfl⟩ | ⟨-, op, rest, u, -, ho, rfl⟩
  · exact hu
  · exact (frameStep_uniform (tick_inv h) hb hu hf).congr (drawTurn_chans u)
  · exact (hostStep_uniform (s := popHost s rest) hu ho).congr (drawTurn_chans u)

/-! ## Rampers (R27, R101) -/

/-- Settles O25, an operation at a time. -/
theorem ramperOperationsKeepItsInvariant : Obligations.RamperOperationsKeepItsInvariant :=
  fun bits _ _ d h hv =>
    ⟨in01_cur h, setUIValue_ok h hv, stepRamper_ok h, startRamp_ok h hv bits d, dezipperCheck_ok h bits d⟩

/-! ## Toggles (R28, R115, R117) -/

/-- The channels of a frame do not look at the toggles of the state, only at the frame's quantities. -/
theorem frameChannels_setToggles (p : FrameParams) (s : State) (f d : F) (chs : List Channel) :
    ∀ c, frameChannels p { s with togFeedback := f, togDelay := d } c chs = frameChannels p s c chs := by
  induction chs with
  | nil => intro c; rfl
  | cons ch chs ih => intro c; simp only [frameChannels, ih]; rfl

/-- Toggle values on the same sides of 0.5 give a frame the same quantities. -/
theorem frameParams_setToggles {s : State} {f d : F} (hf : toggleOn f = toggleOn s.togFeedback)
    (hd : toggleOn d = toggleOn s.togDelay) :
    frameParams { s with togFeedback := f, togDelay := d } = frameParams s := by
  simp only [frameParams, fbOn, dlOn, hf, hd]

theorem frameStep_setToggles {s : State} {f d : F} (hf : toggleOn f = toggleOn s.togFeedback)
    (hd : toggleOn d = toggleOn s.togDelay) :
    frameStep { s with togFeedback := f, togDelay := d } =
      andThen (frameStep s) fun t => .next { t with togFeedback := f, togDelay := d } := by
  unfold frameStep
  rw [frameParams_setToggles hf hd, frameChannels_setToggles]
  split
  · rfl
  · cases frameChannels (frameParams s) s 0 s.chans <;> rfl

/-- On a value of `[0,1]` a toggle is on exactly when the value is at least 0.5. -/
theorem toggleOn_iff {v : F} (h : In01 v) : toggleOn v = true ↔ Num.value Num.half ≤ Num.value v := by
  have hv := Num.isFinite_not_nan h.bounds.1
  have hh : Num.isNaN Num.half = false := by decide
  simp [toggleOn, Num.fge_iff, hv, hh]

/-- The Delay toggle adds `PREDELAY` to the read offset and does nothing else (R115). -/
theorem lfoOffset_eq (fs : Nat) (sv d : F) (dl : Bool) :
    lfoOffset fs sv d dl =
      if dl = true then Num.fadd (lfoOffset fs sv d false) (predelay fs) else lfoOffset fs sv d false := by
  cases dl <;> rfl

/-- A channel whose phase has a sample goes through the channel step at the offset of that sample (R112). -/
theorem channelFrame_of_sample {p : FrameParams} {ch : Channel} {sv : F} (h : sampleTable p.hw.wtN ch.phase = some sv)
    (c : Nat) (x : F) :
    channelFrame p c ch x = chanStep (bufSize p.hw p.fs)
      { ch with phase := Num.settle (frameNaN p.draw c 2) (wrap2Pi (Num.fadd ch.phase p.inc)) }
      x (lfoOffset p.fs sv p.depthSmp p.dl) p.mix p.fb (frameNaN p.draw c 0) (frameNaN p.draw c 1) := by
  simp only [channelFrame, h]

/-- Settles O38: the frame reads the toggles through `toggleOn` only, the Delay toggle in the offset and the Feedback toggle in
the channel step. -/
theorem togglesActAtOneHalf : Obligations.TogglesActAtOneHalf := by
  refine ⟨fun s f d => frameStep_setToggles, fun s hf hd => ⟨toggleOn_iff hf, toggleOn_iff hd⟩, ?_⟩
  rintro s c ch x sv base hsv rfl
  refine ⟨rfl, ?_⟩
  rw [channelFrame_of_sample (p := frameParams s) hsv, lfoOffset_eq]
  rfl

/-! ## Control registers (R21) -/

/-- Indices above 9 read 0. -/
theorem regRead_of_gt (s : State) {i : Nat} (h : 9 < i) : regRead s i = 0#32 := by
  obtain ⟨k, rfl⟩ := Nat.exists_eq_add_of_le h
  rw [Nat.add_comm]
  rfl

/-- Only indices 1 and 2 take a write. -/
theorem regWrite_of_ge (s : State) (v : Word) {i : Nat} (h : 3 ≤ i) : regWrite s i v = s := by
  obtain ⟨k, rfl⟩ := Nat.exists_eq_add_of_le h
  rw [Nat.add_comm]
  rfl

/-- The operand registers are the host's: no command writes them. -/
theorem exec_args {i : Instr} {s t : State} (h : exec i s = .next t) : t.arg0 = s.arg0 ∧ t.arg1 = s.arg1 := by
  rcases exec_cases h with ⟨-, rfl⟩ | ⟨-, rfl⟩
  · cases i <;> simp [acceptedState]
  · exact ⟨rfl, rfl⟩

theorem frameStep_args {s t : State} (h : frameStep s = .next t) : t.arg0 = s.arg0 ∧ t.arg1 = s.arg1 := by
  obtain ⟨-, rs, -, rfl⟩ := frameStep_eq_next.1 h
  exact ⟨rfl, rfl⟩

/-- Settles O49, register by register. -/
theorem controlRegisterFile : Obligations.ControlRegisterFile := by
  intro s v
  refine ⟨⟨rfl, rfl, rfl, rfl, rfl, rfl, rfl, rfl⟩, fun h => ⟨if_pos h, if_pos h⟩, fun h => ⟨if_neg h, if_neg h⟩,
    fun i => regRead_of_gt s, fun i => rfl, rfl, rfl, rfl, fun i hi => ?_, fun i t => exec_args, fun t => frameStep_args⟩
  exact congrArg Host.Outcome.next (regWrite_of_ge s v hi)

/-! ## STATUS (R22, R172) -/

theorem Code.byte_le (e : Code) : e.byte.toNat ≤ 7 := by cases e <;> decide

/-- Two bit vectors side by side, as a number. -/
theorem toNat_append_eq_add {m n : Nat} (x : BitVec m) (y : BitVec n) : (x ++ y).toNat = x.toNat * 2 ^ n + y.toNat := by
  rw [BitVec.toNat_append, ← Nat.shiftLeft_add_eq_or_of_lt y.isLt, Nat.shiftLeft_eq]

/-- The fields of `STATUS` side by side, as a number. -/
theorem toNat_statusWord (s : State) :
    (statusWord s).toNat = s.lifecycle.bits.toNat + 256 * s.err.byte.toNat + 65536 * s.last.byte.toNat := by
  simp only [statusWord, toNat_append_eq_add, BitVec.toNat_ofNat]
  omega

/-- Settles O51, a field at a time. -/
theorem statusFields : Obligations.StatusFields := by
  refine ⟨fun s => ?_, rfl, rfl, rfl, rfl, rfl, rfl, rfl, rfl, Code.byte_le⟩
  rw [toNat_statusWord]
  cases s.lifecycle <;> rfl

end Sys2Proof.Machine
end

section
/-! PROOFS. Who writes which memory: the byte mapping, the frame boundary, the writers of `IN`, `OUT` and the operands. -/

namespace Sys2Proof.Machine

/-! ## The byte mapping (R55, R56) -/

theorem alignedWord_iff {addr width : Nat} : alignedWord addr width = true ↔ width = 4 ∧ addr % 4 = 0 := by
  simp [alignedWord]

@[simp] theorem alignedWord_register (i : Nat) : alignedWord (4 * i) 4 = true :=
  alignedWord_iff.2 ⟨rfl, Nat.mul_mod_right 4 i⟩

theorem alignedWord_eq_false {addr width : Nat} (h : width ≠ 4 ∨ addr % 4 ≠ 0) : alignedWord addr width = false := by
  rw [Bool.eq_false_iff, ne_eq, alignedWord_iff]
  omega

/-- Settles O50: an aligned access names register `addr / 4` both in `portCommand` and in `hostAccess`, any other is no command
and no access. -/
theorem byteMappingIsAlignedWords : Obligations.ByteMappingIsAlignedWords := by
  intro s i v
  have hi : 4 * i / 4 = i := by omega
  refine ⟨?_, ?_, fun a width h => ?_⟩
  · simp [hostStep, portCommand, hostAccess, hi]
  · simp [hostStep, portCommand, hostAccess, hi]
  · simp [hostStep, portCommand, hostAccess, alignedWord_eq_false h]

/-! ## A frame boundary (R62) -/

/-- The agent that moves decides what the step does. -/
theorem step_of_mover {s : State} {a : Agent} (h : mover s = some a) :
    step s = andThen (act s a) fun t => .next (drawTurn t) := by
  simp only [step, h]

/-- At a boundary of a running block with an access pending, `turn` names the agent that moves. -/
theorem mover_of_contested {s : State} (hb : s.lifecycle = .busy) (hr : hostReady s = true) : mover s = some s.turn :=
  if_pos (by simp [contested, hb, hr])

/-- Settles O8: both boundaries are contested, and `turn` names the agent. -/
theorem boundaryAdmitsCommandAndFrame : Obligations.BoundaryAdmitsCommandAndFrame := by
  intro s w rest hb hq
  have hmover (a : Agent) : mover { s with turn := a } = some a :=
    mover_of_contested hb (by simp only [hostReady, hq])
  refine ⟨?_, step_of_mover (hmover .engine)⟩
  rw [step_of_mover (hmover .host)]
  simp only [act, hq]
  rfl

/-! ## What a host access can be -/

/-- The accesses that write control register `i` with `v`, by index and through the byte mapping. -/
def HostOp.WritesReg (op : HostOp) (i : Nat) (v : Word) : Prop := op = .writeReg i v ∨ op = .writeBus (4 * i) 4 v

/-- What a host access that is no command can have done, guards included. -/
theorem hostAccess_cases {op : HostOp} {s t : State} (h : hostAccess op s = .next t) :
    (∃ i v, op.WritesReg i v ∧ t = regWrite s i v) ∨
    (∃ i, (op = .readReg i ∨ op = .readBus (4 * i) 4) ∧ t = logRead s (regRead s i)) ∨
    (∃ c i v, op = .writeIn c i v ∧ hostWord s c i = true ∧ t = hostWriteIn s c i v) ∨
    (∃ c i, op = .readOut c i ∧ hostWord s c i = true ∧ t = hostReadOut s c i (Config.raceDraw s.draws c)) ∨
    (op = .wait ∧ t = s) ∨ (op = .hardReset ∧ t = hardReset s) := by
  have hbus {addr width : Nat} (ha : alignedWord addr width = true) : addr = 4 * (addr / 4) ∧ width = 4 := by
    rw [alignedWord_iff] at ha
    omega
  cases op <;> simp only [hostAccess] at h
  case writeReg i v => exact .inl ⟨i, v, .inl rfl, (Host.Outcome.next.inj h).symm⟩
  case readReg i => exact .inr (.inl ⟨i, .inl rfl, (Host.Outcome.next.inj h).symm⟩)
  case wait => exact .inr (.inr (.inr (.inr (.inl ⟨rfl, (Host.Outcome.next.inj h).symm⟩))))
  case hardReset => exact .inr (.inr (.inr (.inr (.inr ⟨rfl, (Host.Outcome.next.inj h).symm⟩))))
  -- The rest have a value only when their guard `hg` holds.
  all_goals split at h <;> [rename_i hg; cases h]
  case writeBus addr width v =>
    obtain ⟨ha, rfl⟩ := hbus hg
    exact .inl ⟨addr / 4, v, .inr (by rw [← ha]), (Host.Outcome.next.inj h).symm⟩
  case readBus addr width =>
    obtain ⟨ha, rfl⟩ := hbus hg
    exact .inr (.inl ⟨addr / 4, .inr (by rw [← ha]), (Host.Outcome.next.inj h).symm⟩)
  case writeIn c i v => exact .inr (.inr (.inl ⟨c, i, v, rfl, hg, (Host.Outcome.next.inj h).symm⟩))
  case readOut c i => exact .inr (.inr (.inr (.inl ⟨c, i, rfl, hg, (Host.Outcome.next.inj h).symm⟩)))

/-! ## The writers of the memories and the operands (R23, R53) -/

@[simp] theorem regWrite_inMem (s : State) (i : Nat) (v : Word) : (regWrite s i v).inMem = s.inMem := by
  unfold regWrite
  split <;> rfl

@[simp] theorem regWrite_outMem (s : State) (i : Nat) (v : Word) : (regWrite s i v).outMem = s.outMem := by
  unfold regWrite
  split <;> rfl

/-- Every register write either leaves the operands alone or names one of them. -/
theorem regWrite_args (s : State) (i : Nat) (v : Word) :
    ((regWrite s i v).arg0 = s.arg0 ∧ (regWrite s i v).arg1 = s.arg1) ∨ i = 1 ∨ i = 2 := by
  unfold regWrite
  split <;> simp

@[simp] theorem setParam_inMem (s : State) (p : Param) (v : F) : (setParam s p v).inMem = s.inMem := by
  cases p <;> simp [setParam]

@[simp] theorem setParam_outMem (s : State) (p : Param) (v : F) : (setParam s p v).outMem = s.outMem := by
  cases p <;> simp [setParam]

@[simp] theorem rampParam_inMem (s : State) (p : Param) (v : F) (d : Word) : (rampParam s p v d).inMem = s.inMem := by
  cases p <;> simp [rampParam]

@[simp] theorem rampParam_outMem (s : State) (p : Param) (v : F) (d : Word) : (rampParam s p v d).outMem = s.outMem := by
  cases p <;> simp [rampParam]

/-- No command writes a host audio memory. -/
theorem exec_memories {i : Instr} {s t : State} (h : exec i s = .next t) : t.inMem = s.inMem ∧ t.outMem = s.outMem := by
  rcases exec_cases h with ⟨-, rfl⟩ | ⟨-, rfl⟩
  · cases i <;> simp [acceptedState]
  · exact ⟨rfl, rfl⟩

/-- A command word written to `CMD`, command or not, writes no audio memory and no operand. -/
theorem issue_frame {w : Word} {s t : State} (h : issue w s = .next t) :
    (t.inMem = s.inMem ∧ t.outMem = s.outMem) ∧ t.arg0 = s.arg0 ∧ t.arg1 = s.arg1 := by
  unfold issue at h
  split at h
  · exact ⟨exec_memories h, exec_args h⟩
  · obtain rfl := Host.Outcome.next.inj h
    simp

/-- The accesses that can change an operand register (R23). -/
def HostOp.WritesOperand (op : HostOp) : Prop :=
  op = .hardReset ∨ (∃ v, op = .writeReg 1 v ∨ op = .writeReg 2 v) ∨ ∃ v, op = .writeBus 4 4 v ∨ op = .writeBus 8 4 v

theorem HostOp.WritesReg.writesOperand {op : HostOp} {i : Nat} {v : Word} (h : op.WritesReg i v) (hi : i = 1 ∨ i = 2) :
    op.WritesOperand := by
  rcases h with rfl | rfl <;> rcases hi with rfl | rfl
  · exact .inr (.inl ⟨v, .inl rfl⟩)
  · exact .inr (.inl ⟨v, .inr rfl⟩)
  · exact .inr (.inr ⟨v, .inl rfl⟩)
  · exact .inr (.inr ⟨v, .inr rfl⟩)

/-- What the access `op`, from `s` to `t`, leaves alone: `OUT` always, `IN` and the operands unless it is one that writes them. -/
structure HostOp.Frame (op : HostOp) (s t : State) : Prop where
  outMem : t.outMem = s.outMem
  inMem : t.inMem = s.inMem ∨ ∃ c i v, op = .writeIn c i v ∧ t.inMem = writeWord s.inMem (hostIndex c i) v
  args : (t.arg0 = s.arg0 ∧ t.arg1 = s.arg1) ∨ op.WritesOperand

theorem hostAccess_frame {op : HostOp} {s t : State} (h : hostAccess op s = .next t) : op.Frame s t := by
  rcases hostAccess_cases h with ⟨i, v, hop, rfl⟩ | ⟨i, -, rfl⟩ | ⟨c, i, v, rfl, -, rfl⟩ | ⟨c, i, rfl, -, rfl⟩ |
    ⟨rfl, rfl⟩ | ⟨rfl, rfl⟩
  · exact ⟨regWrite_outMem s i v, .inl (regWrite_inMem s i v), (regWrite_args s i v).imp_right hop.writesOperand⟩
  · exact ⟨rfl, .inl rfl, .inl ⟨rfl, rfl⟩⟩
  · exact ⟨rfl, .inr ⟨c, i, v, rfl, rfl⟩, .inl ⟨rfl, rfl⟩⟩
  · exact ⟨rfl, .inl rfl, .inl ⟨rfl, rfl⟩⟩
  · exact ⟨rfl, .inl rfl, .inl ⟨rfl, rfl⟩⟩
  · exact ⟨rfl, .inl rfl, .inr (.inl rfl)⟩

theorem hostStep_frame {op : HostOp} {s t : State} (h : hostStep op s = .next t) : op.Frame s t := by
  unfold hostStep at h
  split at h
  · obtain ⟨⟨hin, hout⟩, hargs⟩ := issue_frame h
    exact ⟨hout, .inl hin, .inl hargs⟩
  · exact hostAccess_frame h

/-- Settles O54, by the agent that moves. -/
theorem eachMemoryHasOneWriter : Obligations.EachMemoryHasOneWriter := by
  intro s t h
  rcases step_cases h with ⟨-, rfl⟩ | ⟨hm, hb, u, hf, rfl⟩ | ⟨hm, op, rest, u, hq, ho, rfl⟩
  · exact ⟨.inl rfl, .inl rfl, .inl ⟨rfl, rfl⟩⟩
  · obtain ⟨-, rs, -, rfl⟩ := frameStep_eq_next.1 hf
    exact ⟨.inl (by simp), .inr ⟨hb, hm⟩, .inl (by simp)⟩
  · obtain ⟨hout, hin, hargs⟩ := hostStep_frame ho
    rw [drawTurn_inMem, drawTurn_outMem, drawTurn_arg0, drawTurn_arg1]
    refine ⟨hin.imp_right ?_, .inl hout, hargs.imp_right fun hw => ⟨hm, op, rest, hq, hw⟩⟩
    rintro ⟨c, i, v, rfl, hv⟩
    exact ⟨hm, c, i, v, rest, hq, hv⟩

end Sys2Proof.Machine
end

section
/-! PROOFS. What a frame step does to the channels and to `OUT`, and what it leaves alone. -/

namespace Sys2Proof.Machine

/-- A step of a ramper changes `rem` only (R103). -/
theorem stepRamper_eq (r : Ramper) : stepRamper r = { r with rem := (stepRamper r).rem } := by
  unfold stepRamper
  split <;> rfl

/-- Each channel of a state goes through its own channel frame, and the frame's result holds what that gives. -/
theorem frameChannels_channel {s : State} {rs : List (Channel × F)}
    (hr : frameChannels (frameParams s) s 0 s.chans = .next rs) {c : Nat} {ch : Channel} (hc : s.chans[c]? = some ch) :
    ∃ r, rs[c]? = some r ∧
      channelFrame (frameParams s) c ch (engineRead s c (s.blkOff.toNat + s.blkF.toNat)) = .next r := by
  obtain ⟨r, hrs, hcf⟩ := (frameChannels_get hr).2 c ch hc
  rw [Nat.zero_add] at hcf
  exact ⟨r, hrs, hcf⟩

/-- Outside the words of its channels a frame leaves `OUT` alone (R53). -/
theorem readByte_outAfter_other {s : State} {rs : List (Channel × F)}
    (hr : frameChannels (frameParams s) s 0 s.chans = .next rs) {a : Nat}
    (ha : ∀ c, c < s.chans.length → a / 4 ≠ hostIndex c (s.blkOff.toNat + s.blkF.toNat)) :
    readByte (outAfter s rs) a = readByte s.outMem a := by
  refine readByte_writeOut_other fun k hk => ?_
  rw [List.length_map, (frameChannels_get hr).1] at hk
  rw [Nat.zero_add]
  exact ha k hk

/-- The word of each channel holds that channel's sample (R111). -/
theorem readWord_outAfter {s : State} (hwf : Memory.wf s.outMem) {rs : List (Channel × F)} {c : Nat} {r : Channel × F}
    (hr : rs[c]? = some r) : readWord (outAfter s rs) (hostIndex c (s.blkOff.toNat + s.blkF.toNat)) = r.2 := by
  have h := readWord_writeOut_same (i := s.blkOff.toNat + s.blkF.toNat) (k := c) (c := 0) (ys := rs.map Prod.snd) (y := r.2)
    hwf (by rw [List.getElem?_map, hr]; rfl)
  rwa [Nat.zero_add] at h

/-- Settles O28: a frame step is `finishFrame` of its channels' results, and each part of the state has its own frame lemma. -/
theorem frameStepLeavesTheRestAlone : Obligations.FrameStepLeavesTheRestAlone := by
  intro s t h
  obtain ⟨-, rs, hr, rfl⟩ := frameStep_eq_next.1 h
  refine ⟨?_, ?_, fun c ch ch' hc hc' a ha => ?_, fun a => readByte_outAfter_other hr,
    resolveReads_length _ _ _ _, fun k hk => ?_⟩
  · simp only [finishFrame_rampMix, finishFrame_rampRate, finishFrame_rampDepth, ← stepRamper_eq]
    rfl
  · rw [finishFrame_chans, List.length_map, (frameChannels_get hr).1]
  · obtain ⟨r, hrs, hcf⟩ := frameChannels_channel hr hc
    obtain rfl : r.1 = ch' := by simpa [hrs] using hc'
    exact channelFrame_dly_other hcf ha
  · refine resolveReads_other fun e he hek hw => ?_
    obtain ⟨c, hc, hec⟩ := mem_nextWords.1 hw
    exact hk e he hek c hc hec

theorem rateSpan_eq : rateSpan = 0x419F999A#32 := by decide

/-- Settles O29: the frame's quantities are those of `frameParams`, and a channel with a sample goes through its channel step. -/
theorem frameStepWritesItsOutputWords : Obligations.FrameStepWritesItsOutputWords := by
  refine ⟨?_, fun s t h => ?_⟩
  · rintro s t c ch mix rate depth depthSmp sv base off inc adv phase hwf h hc rfl rfl rfl rfl hsv rfl rfl rfl rfl rfl
    obtain ⟨-, rs, hr, rfl⟩ := frameStep_eq_next.1 h
    obtain ⟨⟨ch', y⟩, hrs, hcf⟩ := frameChannels_channel hr hc
    rw [channelFrame_of_sample (p := frameParams s) hsv] at hcf
    refine ⟨ch', y, ?_, by simp [hrs], readWord_outAfter hwf hrs⟩
    rw [← hcf, ← rateSpan_eq]
    rfl
  · obtain ⟨-, rs, hr, rfl⟩ := frameStep_eq_next.1 h
    refine ⟨fun ch hch => ?_, fun a => readByte_outAfter_other hr, rfl⟩
    obtain ⟨c, hc⟩ := List.mem_iff_getElem?.1 hch
    obtain ⟨r, -, hcf⟩ := frameChannels_channel hr hc
    obtain ⟨sv, hsv, -⟩ := channelFrame_eq_next.1 hcf
    exact ⟨sv, hsv⟩

end Sys2Proof.Machine
end

section
/-! PROOFS. The races of R61: the value a racing access sees, the host's side, the frame's side. -/

namespace Sys2Proof.Machine

/-! ## The value of a racing access -/

/-- With or without older contents, a racing access picks from the current word and them. -/
theorem raced_eq (now : Word) (older : List Word) (n : Nat) :
    raced now older n = (now :: older)[n % (older.length + 1)]'(Nat.mod_lt _ (by simp)) := by
  cases older with
  | nil => simp [raced, Nat.mod_one]
  | cons w older =>
    simp only [raced]
    rw [List.getD_eq_getElem]

theorem raced_mem (now : Word) (older : List Word) (n : Nat) : raced now older n ∈ now :: older := by
  rw [raced_eq]
  exact List.getElem_mem _

/-- Every admitted word is what a racing access sees for some free value (R61). -/
theorem exists_raced_of_mem {now w : Word} {older : List Word} (h : w ∈ now :: older) : ∃ n, raced now older n = w := by
  obtain ⟨n, hn, rfl⟩ := List.mem_iff_getElem.1 h
  refine ⟨n, ?_⟩
  rw [raced_eq]
  congr 1
  exact Nat.mod_eq_of_lt hn

/-! ## The host's side -/

theorem inRunningBlock_iff {s : State} {i : Nat} : inRunningBlock s i = true ↔
    s.lifecycle = .busy ∧ s.blkOff.toNat ≤ i ∧ i < s.blkOff.toNat + s.blkCount.toNat := by
  simp [inRunningBlock, and_assoc]

theorem awaitsFrame_iff {s : State} {i : Nat} : awaitsFrame s i = true ↔
    s.lifecycle = .busy ∧ s.blkOff.toNat + s.blkF.toNat ≤ i ∧ i < s.blkOff.toNat + s.blkCount.toNat := by
  simp only [awaitsFrame, Bool.and_eq_true, inRunningBlock_iff, decide_eq_true_eq]
  constructor
  · rintro ⟨⟨hb, -, hlt⟩, hle⟩
    exact ⟨hb, hle, hlt⟩
  · rintro ⟨hb, hle, hlt⟩
    exact ⟨⟨hb, by omega, hlt⟩, hle⟩

/-- A host write of an `IN` word that has a value is `hostWriteIn`. -/
theorem hostAccess_writeIn {s t : State} {c i : Nat} {v : F} (h : hostAccess (.writeIn c i v) s = .next t) :
    t = hostWriteIn s c i v := by
  simp only [hostAccess] at h
  split at h
  · exact (Host.Outcome.next.inj h).symm
  · cases h

/-- A host write of `IN` changes `inMem` and, inside the running block, the record of races. -/
theorem hostWriteIn_eq (s : State) (c i : Nat) (v : F) : hostWriteIn s c i v = { s with
    inMem := writeWord s.inMem (hostIndex c i) v
    inRace := if s.lifecycle = .busy ∧ s.blkOff.toNat ≤ i ∧ i < s.blkOff.toNat + s.blkCount.toNat
      then (hostIndex c i, readWord s.inMem (hostIndex c i)) :: s.inRace else s.inRace } := by
  simp only [hostWriteIn, inRunningBlock_iff]

/-- A host read of `OUT` changes the log and, for a word still to be written, the pending reads. -/
theorem hostReadOut_eq (s : State) (c i draw : Nat) : hostReadOut s c i draw = { s with
    hostLog := s.hostLog ++ [raced (readWord s.outMem (hostIndex c i)) (olderAt s.outRace (hostIndex c i)) draw]
    outPending := if (s.lifecycle = .busy ∧ s.blkOff.toNat + s.blkF.toNat ≤ i ∧
        i < s.blkOff.toNat + s.blkCount.toNat) ∧ draw % 2 = 1
      then s.outPending ++ [(s.hostLog.length, hostIndex c i)] else s.outPending } := by
  simp only [hostReadOut, logRead, Bool.and_eq_true, awaitsFrame_iff, beq_iff_eq]

/-- With no block running a host read of `OUT` gives the current word, since no race is recorded. -/
theorem hostReadOut_of_not_busy {s : State} (h : s.RacesOk) (hb : s.lifecycle ≠ .busy) (c i draw : Nat) :
    hostReadOut s c i draw = { s with hostLog := s.hostLog ++ [readWord s.outMem (hostIndex c i)] } := by
  obtain ⟨-, hout, -⟩ := h.dropped hb
  have hraced : raced (readWord s.outMem (hostIndex c i)) (olderAt s.outRace (hostIndex c i)) draw =
      readWord s.outMem (hostIndex c i) := by rw [hout]; rfl
  rw [hostReadOut_eq, hraced, if_neg fun hp => hb hp.1.1]

/-! ## The frame's side -/

theorem lastFrame_iff {s : State} : lastFrame s = true ↔ s.blkF + 1#32 = s.blkCount := by simp [lastFrame]

/-- The last frame drops all records of races. -/
theorem finishFrame_races_last {s : State} (hl : lastFrame s = true) (rs : List (Channel × F)) :
    (finishFrame s rs).inRace = [] ∧ (finishFrame s rs).outRace = [] ∧ (finishFrame s rs).outPending = [] := by
  simp [hl]

/-- Any other frame keeps those of `IN`, adds the contents of the words it writes, and settles their pending reads. -/
theorem finishFrame_races_running {s : State} (hl : lastFrame s ≠ true) (rs : List (Channel × F)) :
    (finishFrame s rs).inRace = s.inRace ∧
    (finishFrame s rs).outRace = s.outRace ++ contentsOf s.outMem (nextWords s) ∧
    (finishFrame s rs).outPending = s.outPending.filter fun e => !(nextWords s).contains e.2 := by
  simp [hl]

theorem mem_contentsOf_nextWords {s : State} {e : Nat × Word} : e ∈ contentsOf s.outMem (nextWords s) ↔
    ∃ c, c < s.chans.length ∧ e = (hostIndex c (s.blkOff.toNat + s.blkF.toNat),
      readWord s.outMem (hostIndex c (s.blkOff.toNat + s.blkF.toNat))) := by
  obtain ⟨w, v⟩ := e
  simp only [mem_contentsOf, mem_nextWords, Prod.mk.injEq]
  constructor
  · rintro ⟨⟨c, hc, rfl⟩, rfl⟩
    exact ⟨c, hc, rfl, rfl⟩
  · rintro ⟨c, hc, rfl, rfl⟩
    exact ⟨⟨c, hc, rfl⟩, rfl⟩

theorem mem_unwritten {s : State} {e : Nat × Nat} : e ∈ s.outPending.filter (fun e => !(nextWords s).contains e.2) ↔
    e ∈ s.outPending ∧ ∀ c, c < s.chans.length → e.2 ≠ hostIndex c (s.blkOff.toNat + s.blkF.toNat) := by
  simp [List.mem_filter, mem_nextWords]

/-- Settles O53: the value of a racing access, then the host's accesses, then the frame. -/
theorem racesAdmitOldAndNew : Obligations.RacesAdmitOldAndNew := by
  refine ⟨fun now older => ⟨fun n => List.mem_cons.1 (raced_mem now older n), fun _ => rfl,
      exists_raced_of_mem List.mem_cons_self, fun w hw => exists_raced_of_mem (List.mem_cons_of_mem _ hw)⟩,
    fun _ _ _ => rfl, fun s t c i v hwf h => ?_, fun s c i hw => if_pos hw, hostReadOut_eq,
    fun s c i draw h hb => hostReadOut_of_not_busy h.races hb c i draw, ?_⟩
  · obtain rfl := hostAccess_writeIn h
    exact ⟨hostWriteIn_eq s c i v, readWord_writeWord_same hwf _ _, fun k => readWord_writeWord_other v⟩
  · rintro s t i h rfl ht
    obtain ⟨-, rs, -, rfl⟩ := frameStep_eq_next.1 ht
    refine ⟨fun hl => finishFrame_races_last (lastFrame_iff.2 hl) rs, fun hl => ?_, fun e he c hc hec => ?_⟩
    · obtain ⟨hin, hout, hpending⟩ := finishFrame_races_running (fun hf => hl (lastFrame_iff.1 hf)) rs
      refine ⟨hin, fun e => ?_, fun e => ?_⟩
      · rw [hout, List.mem_append, mem_contentsOf_nextWords]
      · rw [hpending, mem_unwritten]
    · rw [← hec]
      exact resolveReads_same h.races.distinct he (mem_nextWords.2 ⟨c, hc, hec⟩) (h.races.logged e he)

end Sys2Proof.Machine
end

section
/-! PROOFS. The command word: its three fields, the decoder as a statement about them, and the step that runs a word (R70 to
R80). -/

namespace Sys2Proof

/-! ## The fields of a word (R71) -/

theorem opcField_eq (w : Word) : opcField w = w.toNat % 256 := by simp [opcField, slice]

theorem pidField_eq (w : Word) : pidField w = w.toNat / 256 % 256 := rfl

theorem mbzField_eq (w : Word) : mbzField w = w.toNat / 65536 := by
  have hw := w.isLt
  simp only [mbzField, slice]
  omega

theorem pidField_lt (w : Word) : pidField w < 256 := Nat.mod_lt _ (by decide)

/-- The fields cover the word: no bit is outside them. -/
theorem toNat_eq_fields (w : Word) : w.toNat = opcField w + 256 * pidField w + 65536 * mbzField w := by
  rw [opcField_eq, pidField_eq, mbzField_eq]
  omega

/-- A word is put together from an operation code and an id exactly when these are its fields, with `MBZ` zero. -/
theorem eq_ofNat_iff_fields {w : Word} {c p : Nat} (hc : c < 256) (hp : p < 256) :
    w = BitVec.ofNat 32 (c + 256 * p) ↔ opcField w = c ∧ pidField w = p ∧ mbzField w = 0 := by
  constructor
  · rintro rfl
    exact Laws.EncodeFields.fields_of_small hc hp
  · rintro ⟨hopc, hpid, hmbz⟩
    apply BitVec.eq_of_toNat_eq
    rw [toNat_eq_fields w, hopc, hpid, hmbz, BitVec.toNat_ofNat]
    omega

theorem slice_and (v w : Word) (hi lo : Nat) : slice (v &&& w) hi lo = slice v hi lo &&& slice w hi lo := by
  simp only [slice, BitVec.toNat_and, Nat.and_div_two_pow, Nat.and_mod_two_pow]

/-! ## The word of a command (R71, R74) -/

theorem Instr.opc_lt (i : Instr) : i.opc < 256 := by cases i <;> simp [Instr.opc]

theorem Instr.wellFormed_iff (i : Instr) : i.WellFormed ↔ i.pid < 256 := by
  cases i <;> simp [Instr.WellFormed, Instr.pid]

theorem eq_encode_iff_fields {w : Word} {i : Instr} (h : i.WellFormed) :
    w = encode i ↔ opcField w = i.opc ∧ pidField w = i.pid ∧ mbzField w = 0 :=
  eq_ofNat_iff_fields i.opc_lt (i.wellFormed_iff.1 h)

/-! ## The decoder (R80) -/

/-- What the decoder reads, said once: the fields of the word are those of the command. -/
theorem decode_eq_ok_iff {w : Word} {i : Instr} :
    decode w = .ok i ↔ opcField w = i.opc ∧ pidField w = i.pid ∧ mbzField w = 0 := by
  constructor
  · intro h
    unfold decode at h
    split at h
    · cases h
    split at h
    · cases h
    split at h
    · cases h
    split at h <;> cases h <;> grind [Instr.opc, Instr.pid]
  · rintro ⟨hopc, hpid, hmbz⟩
    cases i <;> simp_all [decode, Instr.opc, Instr.pid]

/-- Settles O2: the fields of a command's word are the command's, and the decoder reads nothing else. -/
theorem decodeOfEncode : Obligations.DecodeOfEncode := fun _ h =>
  decode_eq_ok_iff.2 ((eq_encode_iff_fields h).1 rfl)

/-- Settles O3: the id read is an 8-bit field, and the fields that were read are all of the word. -/
theorem encodeOfDecode : Obligations.EncodeOfDecode := by
  intro w i h
  obtain ⟨hopc, hpid, hmbz⟩ := decode_eq_ok_iff.1 h
  have hwf : i.WellFormed := i.wellFormed_iff.2 (hpid ▸ pidField_lt w)
  exact ⟨hwf, ((eq_encode_iff_fields hwf).2 ⟨hopc, hpid, hmbz⟩).symm⟩

/-- Settles O1, by decoding each word. -/
theorem writtenOutWordsDecode : Obligations.WrittenOutWordsDecode := by
  unfold Obligations.WrittenOutWordsDecode
  decide

/-! ## The opcode map (R74) -/

/-- The mask of a row without an id keeps all three fields. -/
theorem and_mask_word_iff {w : Word} {c : Nat} (hc : c < 256) :
    w &&& 0xFFFFFFFF#32 = BitVec.ofNat 32 c ↔ opcField w = c ∧ pidField w = 0 ∧ mbzField w = 0 := by
  rw [show w &&& 0xFFFFFFFF#32 = w from BitVec.and_allOnes]
  exact eq_ofNat_iff_fields (p := 0) hc (by decide)

/-- The mask of a row with an id clears `PID` and keeps the other two fields. -/
theorem fields_and_mask_pid (w : Word) : opcField (w &&& 0xFFFF00FF#32) = opcField w ∧
    pidField (w &&& 0xFFFF00FF#32) = 0 ∧ mbzField (w &&& 0xFFFF00FF#32) = mbzField w := by
  simp only [opcField, pidField, mbzField, slice_and]
  exact ⟨(Nat.and_two_pow_sub_one_eq_mod _ 8).trans (Nat.mod_mod _ _), Nat.and_zero _,
    (Nat.and_two_pow_sub_one_eq_mod _ 16).trans (Nat.mod_mod _ _)⟩

theorem and_mask_pid_iff {w : Word} {c : Nat} (hc : c < 256) :
    w &&& 0xFFFF00FF#32 = BitVec.ofNat 32 c ↔ opcField w = c ∧ mbzField w = 0 := by
  obtain ⟨hopc, hpid, hmbz⟩ := fields_and_mask_pid w
  have h := eq_ofNat_iff_fields (w := w &&& 0xFFFF00FF#32) (p := 0) hc (by decide)
  rwa [hopc, hpid, hmbz, eq_self, true_and] at h

/-- Settles O4: the mask and match of each row say what the decoder asks of the fields for the row's command. -/
theorem opcodeMapSelectsTheCommand : Obligations.OpcodeMapSelectsTheCommand := by
  intro w i
  rw [decode_eq_ok_iff]
  simp only [opcodeMap, List.mem_cons, List.not_mem_nil, or_false, exists_eq_or_imp, exists_eq_left]
  rw [and_mask_word_iff (c := 1) (by decide), and_mask_word_iff (c := 2) (by decide),
    and_mask_word_iff (c := 3) (by decide), and_mask_pid_iff (c := 4) (by decide),
    and_mask_pid_iff (c := 5) (by decide), and_mask_pid_iff (c := 6) (by decide)]
  cases i <;> simp [Instr.opc, Instr.pid, eq_comm, and_comm, and_assoc, and_left_comm]

/-! ## Legal and illegal words (R76) -/

/-- A word is a command exactly when none of the three conditions of R76 holds. -/
theorem exists_decode_iff (w : Word) : (∃ i, decode w = .ok i) ↔
    ¬(mbzField w ≠ 0 ∨ ¬(1 ≤ opcField w ∧ opcField w ≤ 6) ∨
      ((opcField w = 1 ∨ opcField w = 2 ∨ opcField w = 3) ∧ pidField w ≠ 0)) := by
  simp only [decode_eq_ok_iff]
  constructor
  · rintro ⟨i, hopc, hpid, hmbz⟩
    cases i <;> simp only [Instr.opc, Instr.pid] at hopc hpid <;> omega
  · intro h
    have hmbz : mbzField w = 0 := by omega
    have hpid : opcField w ≤ 3 → pidField w = 0 := by omega
    have hopc : opcField w = 1 ∨ opcField w = 2 ∨ opcField w = 3 ∨ opcField w = 4 ∨ opcField w = 5 ∨ opcField w = 6 := by
      omega
    obtain hopc | hopc | hopc | hopc | hopc | hopc := hopc
    · exact ⟨.init, hopc, hpid (by omega), hmbz⟩
    · exact ⟨.reset, hopc, hpid (by omega), hmbz⟩
    · exact ⟨.process, hopc, hpid (by omega), hmbz⟩
    · exact ⟨.setp (pidField w), hopc, rfl, hmbz⟩
    · exact ⟨.getp (pidField w), hopc, rfl, hmbz⟩
    · exact ⟨.ramp (pidField w), hopc, rfl, hmbz⟩

end Sys2Proof

namespace Sys2Proof.Machine

theorem issue_of_decode {w : Word} {i : Instr} (h : decode w = .ok i) (s : State) : issue w s = exec i s := by
  simp only [issue, h]

theorem issue_of_not_decode {w : Word} (h : ¬∃ i, decode w = .ok i) (s : State) :
    issue w s = .next (refuse .illegal s) := by
  cases hd : decode w with
  | ok i => exact absurd ⟨i, hd⟩ h
  | error e => simp only [issue, hd]

/-- Settles O5: the words of R76 are those that decode to no command. -/
theorem illegalWordsAreRefused : Obligations.IllegalWordsAreRefused := by
  refine fun w s => ⟨fun h => issue_of_not_decode (fun hd => (exists_decode_iff w).1 hd h) s, fun h => ?_⟩
  obtain ⟨i, hd⟩ := (exists_decode_iff w).2 h
  exact ⟨i, hd, issue_of_decode hd s⟩

/-! ## The step that runs a word (R70, R80) -/

/-- A host that moves with a write of `CMD` next on its list issues the word. -/
theorem act_host_of_command {s : State} {w : Word} {rest : List HostOp} (h : s.hostQ = .writeReg 0 w :: rest) :
    act s .host = issue w (popHost s rest) := by
  simp only [act, h]
  rfl

/-- Settles O6: the host moves, and its access is the word. -/
theorem stepRunsTheCommandWritten : Obligations.StepRunsTheCommandWritten := by
  intro s w rest i hm hq hd
  rw [step_of_mover hm, act_host_of_command hq, issue_of_decode hd]
  rfl

/-- With the turn its own, a host that has an access it can make moves, whether a block runs or not. -/
theorem mover_of_host_turn {s : State} (ht : s.turn = .host) (hr : hostReady s = true) : mover s = some .host := by
  by_cases hb : s.lifecycle = .busy
  · rw [mover_of_contested hb hr, ht]
  · simp [mover, contested, hb, hr]

/-- Settles O7: the placed word is the host's next access and the turn is the host's, so the step runs it. -/
theorem placedWordRunsNext : Obligations.PlacedWordRunsNext := by
  intro s w i hw hd
  have hq : (s.withFetchWord 32 w).hostQ = .writeReg 0 (BitVec.ofNat 32 w) :: s.hostQ := by
    simp only [State.withFetchWord, Nat.mod_eq_of_lt (show w < 2 ^ 32 from hw)]
  have hm : mover (s.withFetchWord 32 w) = some .host := mover_of_host_turn rfl rfl
  exact stepRunsTheCommandWritten _ _ _ i hm hq hd

end Sys2Proof.Machine
end

section
/-! PROOFS. The wavetable: the symmetries of `TABLE` (R90), and SAMPLETABLE inside and outside the table (R92, R93). -/

namespace Sys2Proof.Num

/-! ## Equal values, integers of F -/

theorem sign_eq_of_value_ne_zero {a : F} (h : value a ≠ 0) : sign a = decide (value a < 0) := by
  rw [value_eq] at h ⊢
  cases hs : sign a with
  | false => simp
  | true =>
    simp only [hs, if_true] at h ⊢
    exact (decide_eq_true (by omega)).symm

/-- A value other than zero has one word. -/
theorem eq_of_value_eq {a b : F} (h0 : value a ≠ 0) (h : value a = value b) : a = b := by
  have hmag : mag a = mag b := by rw [← natAbs_value a, ← natAbs_value b, h]
  have hlow : low31 a = low31 b := units_strictMono.injective hmag
  have hsign : sign a = sign b := by rw [sign_eq_of_value_ne_zero h0, h, sign_eq_of_value_ne_zero (h ▸ h0)]
  rw [← pack_sign_low31 a, ← pack_sign_low31 b, hlow, hsign]

/-- A value that is not finite is not zero. -/
theorem value_ne_zero_of_infinite {a : F} (h : isFinite a = false) : value a ≠ 0 := by
  intro h0
  have hz : mag a ≤ mag zero := by
    rw [← natAbs_value a, h0]
    exact Nat.zero_le _
  rw [finite_of_mag_le (by decide) hz] at h
  cases h

theorem ofInt_natCast (n : Nat) : ofInt n = ofNat n := by
  rw [ofInt, decide_eq_false (by omega), Int.natAbs_natCast, ofNat, rnRat]

/-- `ofNat` gives no negative value, `-0.0` included. -/
theorem sign_ofNat (n : Nat) : sign (ofNat n) = false := by
  have hr := roundUnits_le_inf (n * 2 ^ 149) 1
  rw [ofNat, rnRat, sign_pack _ (by omega)]

theorem value_ofNat_eq_mag (n : Nat) : value (ofNat n) = mag (ofNat n) := by
  rw [value_eq, sign_ofNat, if_neg Bool.false_ne_true]

/-- An integer that is rounded goes above no value it did not exceed. -/
theorem mag_ofNat_le {n : Nat} {c : F} (h : n * 2 ^ 149 ≤ mag c) : mag (ofNat n) ≤ mag c := by
  have hr := roundUnits_le_inf (n * 2 ^ 149) 1
  rw [ofNat, rnRat, mag_pack _ (by omega)]
  exact units_mono (roundUnits_le one_pos (by rwa [Nat.mul_one]))

/-! ## Signs of rounded results -/

/-- The difference of a value and one not above it is not negative. -/
theorem value_fsub_nonneg {a b : F} (ha : isFinite a = true) (hb : isFinite b = true) (h : value b ≤ value a) :
    0 ≤ value (fsub a b) :=
  le_value_fadd (c := zero) ha (by simpa using hb) (by decide)
    (by rw [value_neg, show value zero = 0 by decide]; omega)

theorem value_fsub_nonpos {a b : F} (ha : isFinite a = true) (hb : isFinite b = true) (h : value a ≤ value b) :
    value (fsub a b) ≤ 0 :=
  value_fadd_le (c := zero) ha (by simpa using hb) (by decide)
    (by rw [value_neg, show value zero = 0 by decide]; omega)

theorem value_fmul_neg_left {a b : F} (ha : isFinite a = true) (hb : isFinite b = true) :
    value (fmul (neg a) b) = -value (fmul a b) := by
  have hr := roundUnits_le_inf (mag a * mag b) (2 ^ 149)
  rw [fmul_finite ha hb, fmul_finite (by simpa using ha) hb, sign_neg, mag_neg, value_pack _ (by omega),
    value_pack _ (by omega)]
  cases sign a <;> cases sign b <;> simp

theorem value_fmul_nonpos {a b : F} (ha : isFinite a = true) (hb : isFinite b = true) (h0 : value a ≤ 0)
    (h1 : 0 ≤ value b) : value (fmul a b) ≤ 0 := by
  have hneg := value_fmul_nonneg (a := neg a) (by simpa using ha) hb (by rw [value_neg]; omega) h1
  rw [value_fmul_neg_left ha hb] at hneg
  omega

/-- The quotient of a value that is not negative by one with the sign `+` is not negative. -/
theorem value_fdiv_nonneg {a b : F} (ha : isFinite a = true) (hb : isFinite b = true) (hb0 : mag b ≠ 0)
    (hs : sign b = false) (h0 : 0 ≤ value a) : 0 ≤ value (fdiv a b) := by
  have hr := roundUnits_le_inf (mag a * 2 ^ 149) (mag b)
  rw [fdiv_finite ha hb hb0, value_pack _ (by omega), hs]
  rw [value_eq] at h0
  cases hsa : sign a with
  | false => simp
  | true =>
    rw [hsa, if_pos rfl] at h0
    rw [show mag a = 0 by omega, Nat.zero_mul, roundUnits_zero (Nat.pos_of_ne_zero hb0)]
    decide

theorem value_fdiv_neg_left {a b : F} (ha : isFinite a = true) (hb : isFinite b = true) (hb0 : mag b ≠ 0) :
    value (fdiv (neg a) b) = -value (fdiv a b) := by
  have hr := roundUnits_le_inf (mag a * 2 ^ 149) (mag b)
  rw [fdiv_finite ha hb hb0, fdiv_finite (by simpa using ha) hb hb0, sign_neg, mag_neg, value_pack _ (by omega),
    value_pack _ (by omega)]
  cases sign a <;> cases sign b <;> simp

theorem value_fdiv_nonpos {a b : F} (ha : isFinite a = true) (hb : isFinite b = true) (hb0 : mag b ≠ 0)
    (hs : sign b = false) (h0 : value a ≤ 0) : value (fdiv a b) ≤ 0 := by
  have hneg := value_fdiv_nonneg (a := neg a) (by simpa using ha) hb hb0 hs (by rw [value_neg]; omega)
  rw [value_fdiv_neg_left ha hb hb0] at hneg
  omega

theorem le_mag_fdiv {a b c : F} (ha : isFinite a = true) (hb : isFinite b = true) (hb0 : mag b ≠ 0)
    (hc : isNaN c = false) (h : mag c * mag b ≤ mag a * 2 ^ 149) : mag c ≤ mag (fdiv a b) := by
  have hr := roundUnits_le_inf (mag a * 2 ^ 149) (mag b)
  rw [fdiv_finite ha hb hb0, mag_pack _ (by omega)]
  exact units_mono (le_roundUnits (Nat.pos_of_ne_zero hb0) (isNaN_eq_false.1 hc) h)

/-! ## Floor and ceiling -/

/-- The two integers around a finite value that is not negative. -/
theorem floor_ceil_of_nonneg {a : F} (hf : isFinite a = true) (h0 : 0 ≤ value a) :
    ∃ i j : Nat, floor a = some (i : Int) ∧ ceil a = some (j : Int) ∧ i ≤ j ∧ j ≤ i + 1 ∧ i * 2 ^ 149 ≤ mag a ∧
      ∀ m : Nat, mag a ≤ m * 2 ^ 149 → j ≤ m := by
  have hv := mag_eq_of_nonneg h0
  refine ⟨(value a / 2 ^ 149).toNat, (-(-value a / 2 ^ 149)).toNat, ?_, ?_, ?_, ?_, ?_, fun m hm => ?_⟩
  · rw [floor, if_pos hf, Int.toNat_of_nonneg (by omega)]
  · rw [ceil, if_pos hf, Int.toNat_of_nonneg (by omega)]
  all_goals omega

theorem floor_eq_some_iff {a : F} {fl : Int} : floor a = some fl ↔ isFinite a = true ∧ value a / 2 ^ 149 = fl := by
  rw [floor, Option.ite_none_right_eq_some, Option.some_inj]

theorem ceil_eq_some_iff {a : F} {ce : Int} : ceil a = some ce ↔ isFinite a = true ∧ -(-value a / 2 ^ 149) = ce := by
  rw [ceil, Option.ite_none_right_eq_some, Option.some_inj]

/-- Floor and ceiling of a value that is at most an integer are at most that integer. -/
theorem floor_ceil_le {a : F} {fl ce m : Int} (hfl : floor a = some fl) (hce : ceil a = some ce)
    (h : value a ≤ m * 2 ^ 149) : fl ≤ m ∧ ce ≤ m := by
  obtain ⟨-, rfl⟩ := floor_eq_some_iff.1 hfl
  obtain ⟨-, rfl⟩ := ceil_eq_some_iff.1 hce
  omega

theorem le_floor_ceil {a : F} {fl ce m : Int} (hfl : floor a = some fl) (hce : ceil a = some ce)
    (h : m * 2 ^ 149 ≤ value a) : m ≤ fl ∧ m ≤ ce := by
  obtain ⟨-, rfl⟩ := floor_eq_some_iff.1 hfl
  obtain ⟨-, rfl⟩ := ceil_eq_some_iff.1 hce
  omega

/-! ## LERP stays on its side of the left end (R18) -/

/-- Interpolation towards a right end not below the left one does not go below the left one. -/
theorem le_value_lerp {a b t : F} (ha : isFinite a = true) (hb : isFinite b = true) (ht : isFinite t = true)
    (hd : isFinite (fsub b a) = true) (hp : isFinite (fmul (fsub b a) t) = true) (h0 : 0 ≤ value t)
    (h : value a ≤ value b) : value a ≤ value (lerp a b t) := by
  have hstep := value_fmul_nonneg hd ht (value_fsub_nonneg hb ha h) h0
  exact le_value_fadd ha hp (isFinite_not_nan ha) (by omega)

theorem value_lerp_le {a b t : F} (ha : isFinite a = true) (hb : isFinite b = true) (ht : isFinite t = true)
    (hd : isFinite (fsub b a) = true) (hp : isFinite (fmul (fsub b a) t) = true) (h0 : 0 ≤ value t)
    (h : value b ≤ value a) : value (lerp a b t) ≤ value a := by
  have hstep := value_fmul_nonpos hd ht (value_fsub_nonpos hb ha h) h0
  exact value_fadd_le ha hp (isFinite_not_nan ha) (by omega)

/-- Interpolation between `+0.0` and itself gives that word. -/
theorem lerp_zero_zero {t : F} (ht : isFinite t = true) : lerp zero zero t = zero := by
  have hd : fsub zero zero = zero := by decide
  have hm : mag zero * mag t = 0 := by rw [show mag zero = 0 by decide, Nat.zero_mul]
  rw [lerp, hd, fmul_zero_mag (by decide) ht hm]
  cases sign zero != sign t <;> decide

end Sys2Proof.Num

namespace Sys2Proof.Machine

/-! ## The entries of `TABLE` (R90) -/

theorem tableAngle_scale (n m : Nat) {k : Nat} (hk : 0 < k) : tableAngle (n * k) (m * k) = tableAngle n m := by
  rw [tableAngle, ← Nat.mul_assoc, Nat.mul_div_mul_right _ _ hk, tableAngle]

/-- The pattern of an angle depends on the angle only, not on the length of the table. -/
theorem quarterPattern_scale (n m : Nat) {k : Nat} (hk : 0 < k) : quarterPattern (n * k) (m * k) = quarterPattern n m := by
  unfold quarterPattern
  have hnum : ∀ x : Nat, piScaled * (m * k) * x * 2 ^ 149 = piScaled * m * x * 2 ^ 149 * k := fun x => by ring
  have hden : n * k * Num.scale * Num.scale = n * Num.scale * Num.scale * k := by ring
  rw [tableAngle_scale n m hk, hnum, hden, Num.roundUnits_scale _ _ hk]

theorem quarterPattern_zero {n : Nat} (hn : 0 < n) : quarterPattern n 0 = 0 := by
  have hs := Num.scale_pos
  rw [quarterPattern, Nat.mul_zero, Nat.zero_mul, Nat.zero_mul]
  exact Num.roundUnits_zero (by positivity)

theorem table_zero {n : Nat} (hn : 0 < n) : table n 0 = 0x00000000#32 := by
  rw [table, firstHalf, if_neg (by omega), Nat.mul_zero, Nat.zero_min, quarterPattern_zero hn, decide_eq_false (by omega)]
  rfl

theorem firstHalf_reflect {n i : Nat} (hi : i < n) : firstHalf n (n - i) = firstHalf n i := by
  unfold firstHalf
  split <;> split <;> omega

theorem firstHalf_scale (n i : Nat) {k : Nat} (hk : 0 < k) : firstHalf (n * k) (i * k) = firstHalf n i * k := by
  unfold firstHalf
  simp only [← Nat.mul_assoc 2, Nat.mul_lt_mul_right hk, ← Nat.sub_mul, ite_mul]

/-- The entry at an angle is the same in every table that has it. -/
theorem table_scale (n i : Nat) {k : Nat} (hk : 0 < k) : table (n * k) (i * k) = table n i := by
  unfold table
  simp only [firstHalf_scale n i hk, ← Nat.mul_assoc 2, Nat.mul_lt_mul_right hk, ← Nat.sub_mul, Nat.mul_min_mul_right,
    quarterPattern_scale _ _ hk]

theorem quarterPattern_le_inf (n m : Nat) : quarterPattern n m ≤ 2139095040 := Num.roundUnits_le_inf _ _

/-- The middle entry, where the halves meet, is a zero. -/
theorem table_middle {i : Nat} (hi : 0 < i) : table (2 * i) i = 0x00000000#32 := by
  rw [table, firstHalf, if_neg (by omega), Nat.sub_self, Nat.min_zero, quarterPattern_zero (by omega),
    decide_eq_false (by omega)]
  rfl

/-- Outside the middle the entry mirrored in the length has the other sign. -/
theorem table_reflect {n i : Nat} (hi : i < n) (hmid : 2 * i ≠ n) : table n (n - i) = Num.neg (table n i) := by
  have hq := quarterPattern_le_inf n (min (2 * firstHalf n i) (n - 2 * firstHalf n i))
  have hsign : decide (n < 2 * (n - i)) = !decide (n < 2 * i) := by
    rw [← decide_not]
    exact decide_eq_decide.2 (by omega)
  rw [table, firstHalf_reflect hi, hsign, Num.neg, table, Num.sign_pack _ (by omega), Num.low31_pack _ (by omega)]

theorem value_table_reflect {n i : Nat} (h0 : 0 < i) (hi : i < n) :
    Num.value (table n (n - i)) = -Num.value (table n i) := by
  by_cases hmid : 2 * i = n
  · subst hmid
    rw [show 2 * i - i = i by omega, table_middle h0]
    decide
  · rw [table_reflect hi hmid, Num.value_neg]

theorem isFinite_table {n : Nat} (hn : 0 < n) (i : Nat) : Num.isFinite (table n i) = true :=
  Num.finite_of_mag_le (by decide) (mag_table_le hn i)

/-- Settles O42: the mirrored entry of the folded table, and the quarter points as the entries of the table of length 4. -/
theorem wavetableSymmetry : Obligations.WavetableSymmetry := by
  refine ⟨by decide, by decide, fun n hn => ⟨table_zero (by omega), fun i h0 hi =>
    ⟨value_table_reflect h0 hi, isFinite_table (by omega) i⟩, fun h4 => ?_⟩⟩
  obtain ⟨k, rfl⟩ : ∃ k, n = 4 * k := ⟨n / 4, by omega⟩
  have hk : 0 < k := by omega
  rw [show 4 * k / 4 = 1 * k by omega, show 4 * k / 2 = 2 * k by omega, show 3 * (4 * k) / 4 = 3 * k by omega,
    table_scale 4 1 hk, table_scale 4 2 hk, table_scale 4 3 hk]
  decide

/-! ## SAMPLETABLE inside the table (R92) -/

/-- What R6 and R16 ask of `WT_N` in an instance. -/
theorem wtN_of_legal {p : HwParams} (h : Legal p) : 2 ≤ p.wtN ∧ Num.isFinite (Num.ofNat (p.wtN - 1)) = true := by
  obtain ⟨-, -, hwt, -, -⟩ := h
  exact hwt

theorem clampIndex_natCast (n i : Nat) : clampIndex n i = min i (n - 1) := by
  unfold clampIndex
  omega

theorem clampIndex_of_nonpos (n : Nat) {i : Int} (h : i ≤ 0) : clampIndex n i = 0 := by
  unfold clampIndex
  omega

theorem clampIndex_of_last_le {n : Nat} {i : Int} (h : ((n - 1 : Nat) : Int) ≤ i) : clampIndex n i = n - 1 := by
  unfold clampIndex
  omega

theorem sampleTable_finite {phase : F} (n : Nat) (h : Num.isFinite phase = true) :
    sampleTable n phase = some (tableAt n (tableIndex n phase)) := if_pos h

/-- Only a NaN or infinite phase has no result (R93). -/
theorem sampleTable_eq_none_iff (n : Nat) (phase : F) : sampleTable n phase = none ↔ Num.isFinite phase = false := by
  rw [sampleTable, ite_eq_right_iff, Bool.eq_false_iff]
  exact forall_congr' fun _ => iff_of_false (Option.some_ne_none _) id

theorem finite_phase_div_twoPi {phase : F} (hf : Num.isFinite phase = true) :
    Num.isFinite (Num.fdiv phase Config.twoPi) = true :=
  Num.finite_of_mag_le hf (Num.mag_fdiv_le hf (by decide) (by decide) (Nat.mul_le_mul_left _ (by decide)))

/-- The fractional index is on the side of zero the phase is on. -/
theorem value_tableIndex_nonneg {n : Nat} {phase : F} (hn : Num.isFinite (Num.ofNat (n - 1)) = true)
    (hf : Num.isFinite phase = true) (h : 0 ≤ Num.value phase) : 0 ≤ Num.value (tableIndex n phase) :=
  Num.value_fmul_nonneg (finite_phase_div_twoPi hf) hn
    (Num.value_fdiv_nonneg hf (by decide) (by decide) (by decide) h) (by rw [Num.value_ofNat_eq_mag]; omega)

theorem value_tableIndex_nonpos {n : Nat} {phase : F} (hn : Num.isFinite (Num.ofNat (n - 1)) = true)
    (hf : Num.isFinite phase = true) (h : Num.value phase ≤ 0) : Num.value (tableIndex n phase) ≤ 0 :=
  Num.value_fmul_nonpos (finite_phase_div_twoPi hf) hn
    (Num.value_fdiv_nonpos hf (by decide) (by decide) (by decide) h) (by rw [Num.value_ofNat_eq_mag]; omega)

/-- From 2π on the fractional index is at least the last one. -/
theorem last_le_tableIndex {n : Nat} {phase : F} (hn : n ≤ 16777217) (hf : Num.isFinite phase = true)
    (h : Num.value Config.twoPi ≤ Num.value phase) :
    ((n - 1 : Nat) : Int) * 2 ^ 149 ≤ Num.value (tableIndex n phase) := by
  obtain ⟨-, hnf⟩ := Num.ofNat_exact (n := n - 1) (by omega)
  have htwo : 0 ≤ Num.value Config.twoPi := by decide
  have hphase : Num.mag Config.twoPi ≤ Num.mag phase := by
    have h1 := Num.mag_eq_of_nonneg htwo
    have h2 := Num.mag_eq_of_nonneg (htwo.trans h)
    omega
  have hone : Num.mag Num.one = 2 ^ 149 := by decide
  have hquot : Num.mag Num.one ≤ Num.mag (Num.fdiv phase Config.twoPi) := by
    refine Num.le_mag_fdiv hf (by decide) (by decide) (by decide) ?_
    rw [hone, Nat.mul_comm]
    exact Nat.mul_le_mul_right _ hphase
  have hidx : Num.mag (Num.ofNat (n - 1)) ≤ Num.mag (tableIndex n phase) := by
    refine Num.le_mag_fmul (finite_phase_div_twoPi hf) hnf (Num.isFinite_not_nan hnf) ?_
    rw [Nat.mul_comm, ← hone]
    exact Nat.mul_le_mul_right _ hquot
  rw [mag_ofNat (by omega)] at hidx
  have hv := Num.mag_eq_of_nonneg (value_tableIndex_nonneg hnf hf (htwo.trans h))
  omega

/-- What the interpolation adds to the left entry is made of finite values, for a factor of moderate magnitude. -/
theorem finite_table_step {n : Nat} (hn : 0 < n) (i j : Nat) {t : F} (ht : Num.mag t ≤ Num.mag 0x4C000000#32) :
    Num.isFinite (Num.fsub (table n j) (table n i)) = true ∧
    Num.isFinite (Num.fmul (Num.fsub (table n j) (table n i)) t) = true := by
  have hd : Num.mag (Num.fsub (table n j) (table n i)) ≤ Num.mag 0x40800000#32 :=
    Num.mag_fsub_le_add (isFinite_table hn j) (isFinite_table hn i)
      (le_trans (Nat.add_le_add (mag_table_le hn j) (mag_table_le hn i)) (by decide))
  have hdf := Num.finite_of_mag_le (c := 0x40800000#32) (by decide) hd
  have htf := Num.finite_of_mag_le (c := 0x4C000000#32) (by decide) ht
  exact ⟨hdf, Num.finite_of_mag_le (c := 0x4D000000#32) (by decide)
    (Num.mag_fmul_le hdf htf (le_trans (Nat.mul_le_mul hd ht) (by decide)))⟩

/-- The interpolation at the distance of an index from its floor stays on its side of the left entry. -/
theorem lerp_table_side {n : Nat} (hn : 0 < n) (k l : Nat) {idx : F} {i : Nat} (hf : Num.isFinite idx = true)
    (hfl : Num.floor idx = some (i : Int)) (h0 : 0 ≤ Num.value idx) (hi : i * 2 ^ 149 ≤ Num.mag idx) :
    (Num.value (table n k) ≤ Num.value (table n l) →
      Num.value (table n k) ≤ Num.value (Num.lerp (table n k) (table n l) (Num.fsub idx (Num.ofNat i)))) ∧
    (Num.value (table n l) ≤ Num.value (table n k) →
      Num.value (Num.lerp (table n k) (table n l) (Num.fsub idx (Num.ofNat i))) ≤ Num.value (table n k)) := by
  have hmi := Num.mag_ofNat_le hi
  have ht : Num.mag (Num.fsub idx (Num.ofNat i)) ≤ Num.mag 0x4C000000#32 := by
    rw [← Num.ofInt_natCast]
    exact mag_fraction_le hf hfl
  have htf := Num.finite_of_mag_le (c := 0x4C000000#32) (by decide) ht
  have ht0 : 0 ≤ Num.value (Num.fsub idx (Num.ofNat i)) := by
    refine Num.value_fsub_nonneg hf (Num.finite_of_mag_le hf hmi) ?_
    have hv := Num.mag_eq_of_nonneg h0
    rw [Num.value_ofNat_eq_mag]
    omega
  obtain ⟨hd, hp⟩ := finite_table_step hn k l ht
  exact ⟨Num.le_value_lerp (isFinite_table hn k) (isFinite_table hn l) htf hd hp ht0,
    Num.value_lerp_le (isFinite_table hn k) (isFinite_table hn l) htf hd hp ht0⟩

/-! ## SAMPLETABLE saturates outside the table (R93) -/

/-- An index that overflowed takes the end entry on its side. -/
theorem tableAt_infinite {n : Nat} {idx : F} (h : Num.isFinite idx = false) :
    tableAt n idx = if Num.flt idx Num.zero then table n 0 else table n (n - 1) := by
  simp [tableAt, Num.floor, h]

/-- At or below index 0 the table gives `+0.0`. -/
theorem tableAt_of_nonpos {n : Nat} {idx : F} (hn : 0 < n) (hnan : Num.isNaN idx = false) (h : Num.value idx ≤ 0) :
    tableAt n idx = 0x00000000#32 := by
  cases hf : Num.isFinite idx with
  | false =>
    have hz : Num.value Num.zero = 0 := by decide
    have hne := Num.value_ne_zero_of_infinite hf
    rw [tableAt_infinite hf, if_pos (Num.flt_iff.2 ⟨hnan, by decide, by omega⟩), table_zero hn]
  | true =>
    obtain ⟨fl, hfl⟩ := Num.floor_of_finite hf
    obtain ⟨ce, hce⟩ := Num.ceil_of_finite hf
    obtain ⟨hfl0, hce0⟩ := Num.floor_ceil_le (m := 0) hfl hce (by omega)
    rw [tableAt_finite hfl hce, clampIndex_of_nonpos n hfl0, clampIndex_of_nonpos n hce0, table_zero hn]
    exact Num.lerp_zero_zero (Num.finite_of_mag_le (by decide) (mag_fraction_le hf hfl))

/-- At or beyond the last index the table gives the last entry's value. -/
theorem value_tableAt_of_last_le {n : Nat} {idx : F} (hn : 0 < n)
    (h : ((n - 1 : Nat) : Int) * 2 ^ 149 ≤ Num.value idx) :
    Num.value (tableAt n idx) = Num.value (table n (n - 1)) := by
  cases hf : Num.isFinite idx with
  | false =>
    have hlt : ¬ Num.flt idx Num.zero = true := fun hlt => by
      have hz : Num.value Num.zero = 0 := by decide
      have := (Num.flt_iff.1 hlt).2.2
      omega
    rw [tableAt_infinite hf, if_neg hlt]
  | true =>
    obtain ⟨fl, hfl⟩ := Num.floor_of_finite hf
    obtain ⟨ce, hce⟩ := Num.ceil_of_finite hf
    obtain ⟨hfln, hcen⟩ := Num.le_floor_ceil hfl hce h
    rw [tableAt_finite hfl hce, clampIndex_of_last_le hfln, clampIndex_of_last_le hcen]
    exact (Num.lerpMeetsItsEnds _ (table n (n - 1)) _ (isFinite_table hn _)
      (Num.finite_of_mag_le (by decide) (mag_fraction_le hf hfl))).1

/-- A finite phase that is not above 0 gives `+0.0`. -/
theorem sampleTable_of_nonpos {n : Nat} {phase : F} (hn : 0 < n) (hnf : Num.isFinite (Num.ofNat (n - 1)) = true)
    (hf : Num.isFinite phase = true) (h : Num.value phase ≤ 0) : sampleTable n phase = some 0x00000000#32 := by
  have hnan : Num.isNaN (tableIndex n phase) = false := Num.fmul_not_nan (finite_phase_div_twoPi hf) hnf
  rw [sampleTable_finite n hf, tableAt_of_nonpos hn hnan (value_tableIndex_nonpos hnf hf h)]

/-- A finite phase from 2π on gives the last entry's value. -/
theorem sampleTable_of_twoPi_le {n : Nat} {phase : F} (hn : 0 < n) (hn' : n ≤ 16777217)
    (hf : Num.isFinite phase = true) (h : Num.value Config.twoPi ≤ Num.value phase) :
    ∃ v, sampleTable n phase = some v ∧ Num.value v = Num.value (table n (n - 1)) :=
  ⟨_, sampleTable_finite n hf, value_tableAt_of_last_le hn (last_le_tableIndex hn' hf h)⟩

/-- In the default table that value has one word. -/
theorem sampleTable_default_of_twoPi_le {phase : F} (hf : Num.isFinite phase = true)
    (h : Num.value Config.twoPi ≤ Num.value phase) : sampleTable 65536 phase = some 0xB8C90FDB#32 := by
  obtain ⟨v, hv, hval⟩ := sampleTable_of_twoPi_le (n := 65536) (by decide) (by decide) hf h
  obtain ⟨-, hlast, -⟩ := wavetableSymmetry
  rw [hlast] at hval
  rw [hv, Num.eq_of_value_eq (by rw [hval]; decide) hval]

/-- Settles O43: the entries around the index and the side the interpolation stays on, then the ends. -/
theorem sampleTableInterpolatesTheTable : Obligations.SampleTableInterpolatesTheTable := by
  refine ⟨?_, fun p phase hl hf => ?_, fun phase => sampleTable_default_of_twoPi_le, sampleTable_eq_none_iff⟩
  · rintro p phase idx hl hph rfl
    obtain ⟨hn, hnf⟩ := wtN_of_legal hl
    obtain ⟨hphf, hph0, -, -⟩ := hph.bounds
    have hm := mag_tableIndex_le hnf hph
    have hf := Num.finite_of_mag_le hnf hm
    have h0 := value_tableIndex_nonneg hnf hphf hph0
    obtain ⟨i, j, hfl, hce, hij, hji, hi, hj⟩ := Num.floor_ceil_of_nonneg hf h0
    obtain ⟨v, hv, hvm⟩ := sampleTable_total hl hph
    have hlerp := tableAt_finite (n := p.wtN) hfl hce
    rw [clampIndex_natCast, clampIndex_natCast, Num.ofInt_natCast] at hlerp
    have hveq := Option.some.inj (hv.symm.trans (sampleTable_finite p.wtN hphf))
    rw [hlerp] at hveq
    obtain ⟨hup, hdown⟩ := lerp_table_side (n := p.wtN) (by omega) (min i (p.wtN - 1)) (min j (p.wtN - 1)) hf hfl h0 hi
    refine ⟨i, j, _, _, v, hij, hji, fun hN => hj _ ?_, hfl, hce, rfl, rfl, hv, hveq,
      Num.finite_of_mag_le (by decide) hvm, hveq ▸ hup, hveq ▸ hdown⟩
    rwa [mag_ofNat (by omega)] at hm
  · obtain ⟨hn, hnf⟩ := wtN_of_legal hl
    exact ⟨sampleTable_of_nonpos (by omega) hnf hf, fun hN => sampleTable_of_twoPi_le (by omega) hN hf⟩

end Sys2Proof.Machine
end

section
/-! PROOFS. What a ramp is when it starts, and call by call (R103 to R107), and that UI values stay out of a frame (R105, R154). -/

namespace Sys2Proof.Machine

/-! ## The start of a ramp (R104) -/

/-- A duration of 0 jumps to the target. -/
theorem startRamp_zero (bits : Word) (r : Ramper) (v : F) : startRamp bits r v 0#32 = idleRamper v := rfl

/-- Any other duration starts a ramp of that many samples, whose slope is the only field that depends on the old ramper. -/
theorem startRamp_of_ne_zero {d : Word} (h : d ≠ 0#32) (bits : Word) (r : Ramper) (v : F) :
    startRamp bits r v d =
      ⟨v, v, Num.settle bits (Num.fdiv (Num.fsub (cur r) v) (Num.ofNat d.toNat)), d⟩ := if_neg h

/-- The slope between values of `[0,1]` is no NaN, so nothing of R15 is left free in it. -/
theorem settle_slope {a b : F} (ha : In01 a) (hb : In01 b) (bits : Word) {d : Word} (hd : d ≠ 0#32) :
    Num.settle bits (Num.fdiv (Num.fsub a b) (Num.ofNat d.toNat)) = Num.fdiv (Num.fsub a b) (Num.ofNat d.toNat) := by
  have hfin := Num.finite_of_mag_le Num.finite_one (atMost1_slope ha hb bits hd)
  exact Num.settle_of_not_nan (Num.isNaN_settle bits _ ▸ Num.isFinite_not_nan hfin)

/-- Settles O24: a jump by definition, and otherwise a slope that is no NaN, because both its ends lie in `[0,1]`. -/
theorem startRampSetsAllFields : Obligations.StartRampSetsAllFields := by
  intro bits r v d hr hv
  split
  case isTrue hd => rw [hd, startRamp_zero]; rfl
  case isFalse hd => rw [startRamp_of_ne_zero hd, settle_slope (in01_cur hr) hv bits hd]

/-! ## The dezipper check (R105) -/

/-- A check that finds a running ramp, or the goal at the UI value, changes nothing. -/
theorem dezipperCheck_of_not {r : Ramper} (h : ¬ (r.rem = 0#32 ∧ Num.feq r.goal r.ui = false)) (bits d : Word) :
    dezipperCheck bits r d = r :=
  if_neg fun ⟨hrem, hne⟩ => h ⟨hrem, by simpa [Num.fne] using hne⟩

/-- An idle ramper with another UI value starts its ramp to that value. -/
theorem dezipperCheck_of_idle {r : Ramper} (hrem : r.rem = 0#32) (hne : Num.feq r.goal r.ui = false) (bits d : Word) :
    dezipperCheck bits r d = startRamp bits r r.ui d :=
  if_pos ⟨hrem, by simp [Num.fne, hne]⟩

/-- Settles O23, a clause for each way the check's condition can go. -/
theorem dezipperWaitsForTheRunningRamp : Obligations.DezipperWaitsForTheRunningRamp := fun bits _ d =>
  ⟨fun hrem => dezipperCheck_of_not (fun h => hrem h.1) bits d,
    fun heq => dezipperCheck_of_not (fun h => by simp [heq] at h) bits d,
    fun hrem hne => dezipperCheck_of_idle hrem hne bits d⟩

/-! ## A ramp call by call (R103, R107) -/

/-- `rem` counts down and stops at 0. -/
theorem stepRamper_rem (r : Ramper) : (stepRamper r).rem.toNat = r.rem.toNat - 1 := by
  unfold stepRamper
  split
  case isTrue h => rw [h]; rfl
  case isFalse h =>
    show (r.rem - 1#32).toNat = r.rem.toNat - 1
    bv_omega

/-- Any number of calls take as many samples off `rem` and leave the other fields alone. -/
theorem stepRamperTimes_eq (k : Nat) (r : Ramper) :
    stepRamperTimes k r = { r with rem := BitVec.ofNat 32 (r.rem.toNat - k) } := by
  induction k generalizing r with
  | zero => simp [stepRamperTimes]
  | succ k ih =>
    rw [stepRamperTimes, ih, stepRamper_rem, stepRamper_eq r, Nat.sub_sub, Nat.add_comm]

theorem toNat_rem_stepRamperTimes (k : Nat) (r : Ramper) : (stepRamperTimes k r).rem.toNat = r.rem.toNat - k := by
  have hlt := r.rem.isLt
  rw [stepRamperTimes_eq]
  exact (BitVec.toNat_ofNat ..).trans (Nat.mod_eq_of_lt (by omega))

/-- While samples are left, the current value is the rounded point of the line (R101). -/
theorem cur_of_running {r : Ramper} (h : r.rem.toNat ≠ 0) :
    cur r = Num.clamp01 (Num.fadd (Num.fmul r.slope (Num.ofNat r.rem.toNat)) r.goal) :=
  if_neg fun h0 => h (by rw [h0]; rfl)

/-- With none left it is the goal, bit for bit. -/
theorem cur_of_idle {r : Ramper} (h : r.rem = 0#32) : cur r = r.goal := if_pos h

/-- Settles O26: after `k` calls `d - k` samples are left, and the current value follows from whether any are. -/
theorem rampReachesItsGoalExactly : Obligations.RampReachesItsGoalExactly := by
  intro bits r v d hd k
  have hrem : (stepRamperTimes k (startRamp bits r v d)).rem.toNat = d.toNat - k := by
    rw [toNat_rem_stepRamperTimes, startRamp_of_ne_zero hd]
  have hslope : (stepRamperTimes k (startRamp bits r v d)).slope = (startRamp bits r v d).slope := by
    rw [stepRamperTimes_eq]
  have hgoal : (stepRamperTimes k (startRamp bits r v d)).goal = v := by
    rw [stepRamperTimes_eq, startRamp_of_ne_zero hd]
  constructor
  · intro hk
    exact ⟨hrem, by rw [cur_of_running (by omega), hrem, hslope, hgoal]⟩
  · intro hk
    have h0 : (stepRamperTimes k (startRamp bits r v d)).rem = 0#32 :=
      BitVec.eq_of_toNat_eq (by rw [hrem, Nat.sub_eq_zero_of_le hk]; rfl)
    exact ⟨h0, by rw [cur_of_idle h0, hgoal]⟩

/-! ## UI values stay out of a frame (R105, R154) -/

/-- The state with the three UI values set (R102). -/
def setUIValues (s : State) (a b c : F) : State :=
  { s with
    rampMix := setUIValue s.rampMix a
    rampRate := setUIValue s.rampRate b
    rampDepth := setUIValue s.rampDepth c }

@[simp] theorem setUIValues_params (s : State) (a b c : F) : (setUIValues s a b c).params = s.params := rfl
@[simp] theorem setUIValues_chans (s : State) (a b c : F) : (setUIValues s a b c).chans = s.chans := rfl

/-- A ramper moves on past its UI value (R103). -/
theorem stepRamper_setUIValue (r : Ramper) (v : F) : stepRamper (setUIValue r v) = setUIValue (stepRamper r) v := by
  by_cases h : r.rem = 0#32 <;> simp [stepRamper, setUIValue, h]

/-- No current value looks at a UI value (R101), so a frame has the same quantities whatever these are. -/
theorem frameParams_setUIValues (s : State) (a b c : F) : frameParams (setUIValues s a b c) = frameParams s := rfl

/-- Nor do the channels of a frame look at them. -/
theorem frameChannels_setUIValues (p : FrameParams) (s : State) (a b c : F) (chs : List Channel) :
    ∀ n, frameChannels p (setUIValues s a b c) n chs = frameChannels p s n chs := by
  induction chs with
  | nil => intro n; rfl
  | cons ch chs ih => intro n; simp only [frameChannels, ih]; rfl

/-- The end of a frame keeps the UI values apart. -/
theorem finishFrame_setUIValues (s : State) (a b c : F) (rs : List (Channel × F)) :
    finishFrame (setUIValues s a b c) rs = setUIValues (finishFrame s rs) a b c := by
  simp only [setUIValues, finishFrame_rampMix, finishFrame_rampRate, finishFrame_rampDepth, ← stepRamper_setUIValue]
  rfl

/-- Whatever a frame step answers, it answers with the UI values set beforehand, these apart. -/
theorem frameStep_setUIValues (s : State) (a b c : F) :
    frameStep (setUIValues s a b c) = andThen (frameStep s) fun t => .next (setUIValues t a b c) := by
  unfold frameStep
  rw [frameParams_setUIValues, frameChannels_setUIValues, setUIValues_params, setUIValues_chans]
  simp only [finishFrame_setUIValues]
  split
  · rfl
  · cases frameChannels (frameParams s) s 0 s.chans <;> rfl

/-- Settles O37: setting UI values commutes with the frame step. -/
theorem uiValueDoesNotReachTheRunningBlock : Obligations.UiValueDoesNotReachTheRunningBlock := by
  intro s t a b c h
  calc frameStep (setUIValues s a b c)
      = andThen (frameStep s) fun t => .next (setUIValues t a b c) := frameStep_setUIValues s a b c
    _ = .next (setUIValues t a b c) := by rw [h]; rfl

end Sys2Proof.Machine
end

section
/-! PROOFS. A block from PROCESS to its last frame: its start, its progress, its end, and channel by channel (R110, R111, R118). -/

namespace Sys2Proof.Machine

/-! ## The start of a block (R110) -/

/-- Settles O17, a clause for each way the two checks can go. -/
theorem processStartsTheBlock : Obligations.ProcessStartsTheBlock := by
  intro s
  rw [exec_eq]
  refine ⟨fun hl => ?_, fun hl hr => ?_, fun hl hr => ?_⟩
  · have hcode : refusalCode .process s = .state := if_pos hl
    simp [hcode]
  · have hcode : refusalCode .process s = .range := (if_neg (not_not_intro hl)).trans (if_pos hr)
    simp [hcode]
  · have hcode : refusalCode .process s = .none := (if_neg (not_not_intro hl)).trans (if_neg (Nat.not_lt.2 hr))
    rw [if_pos hcode]
    rfl

/-! ## A frame of the block (R111, R113) -/

/-- The step of a ramper, `rem` written out. -/
theorem stepRamper_eq_ite (r : Ramper) :
    stepRamper r = { r with rem := if r.rem = 0#32 then 0#32 else r.rem - 1#32 } := by
  unfold stepRamper
  split
  case isTrue h => rw [← h]
  case isFalse => rfl

/-- A frame leaves the block `READY` exactly when it was the last one (R111). -/
theorem finishFrame_lifecycle_eq (s : State) (rs : List (Channel × F)) :
    (finishFrame s rs).lifecycle = if s.blkF + 1#32 = s.blkCount then .ready else .busy := by
  simp only [finishFrame_lifecycle, lastFrame_iff]

/-- Settles O27: a frame step is `finishFrame` of its channels' results. -/
theorem frameStepAdvancesTheBlock : Obligations.FrameStepAdvancesTheBlock := by
  intro s t h
  obtain ⟨-, rs, -, rfl⟩ := frameStep_eq_next.1 h
  exact ⟨rfl, finishFrame_lifecycle_eq s rs, stepRamper_eq_ite _, stepRamper_eq_ite _, stepRamper_eq_ite _⟩

/-! ## A frame channel by channel (R118) -/

/-- Where a frame step puts what channel `c` gives: its record and its `OUT` word. -/
theorem frameStep_channel {s t : State} (hwf : Memory.wf s.outMem) (h : frameStep s = .next t) {c : Nat} {ch : Channel}
    (hc : s.chans[c]? = some ch) :
    ∃ r, channelFrame (frameParams s) c ch (engineRead s c (frameParams s).sample) = .next r ∧ t.chans[c]? = some r.1 ∧
      readWord t.outMem (hostIndex c (frameParams s).sample) = r.2 := by
  obtain ⟨-, rs, hr, rfl⟩ := frameStep_eq_next.1 h
  obtain ⟨r, hrs, hcf⟩ := frameChannels_channel hr hc
  exact ⟨r, hcf, by simp [hrs], readWord_outAfter hwf hrs⟩

/-- Settles O36: in both states the channel's frame is `channelFrame` of the same arguments. -/
theorem channelsAreIndependent : Obligations.ChannelsAreIndependent := by
  intro s1 s2 t1 t2 c hwf1 hwf2 hc hparams hchan hread h1 h2
  obtain ⟨ch, hch⟩ : ∃ ch, s1.chans[c]? = some ch := ⟨_, List.getElem?_eq_getElem hc⟩
  obtain ⟨r1, hcf1, hchans1, hout1⟩ := frameStep_channel hwf1 h1 hch
  obtain ⟨r2, hcf2, hchans2, hout2⟩ := frameStep_channel hwf2 h2 (hchan ▸ hch)
  rw [← hparams] at hcf2 hout2
  obtain rfl : r1 = r2 := Host.Outcome.next.inj (by rw [← hcf1, ← hcf2, hread])
  exact ⟨by rw [hchans1, hchans2], by rw [hout1, hout2]⟩

/-! ## With no host access pending (R111, R179) -/

/-- A host with an empty list leaves the engine to move, and that only while a block runs. -/
theorem mover_of_quiet {s : State} (hq : s.hostQ = []) :
    mover s = if s.lifecycle = .busy then some .engine else none := by
  have hr : hostReady s = false := by simp only [hostReady, hq]
  simp [mover, contested, hr]

/-- A quiet step of a running block is its next frame. -/
theorem step_of_quiet_busy {s : State} (hq : s.hostQ = []) (hb : s.lifecycle = .busy) :
    step s = andThen (frameStep (tick s)) fun t => .next (drawTurn t) :=
  step_of_mover (by rw [mover_of_quiet hq, if_pos hb])

/-- Settles O9: with no access pending `mover` looks at `STATE` alone. -/
theorem engineMovesOnlyWhileBusy : Obligations.EngineMovesOnlyWhileBusy := by
  intro s hq
  refine ⟨step_of_quiet_busy hq, fun hb => ?_⟩
  simp only [step, mover_of_quiet hq, if_neg hb]

/-! ## The end of a block (R111, R197) -/

/-- From a running block that meets the invariants, a frame step has a value. -/
theorem frameStep_total {s : State} (h : s.Inv) (hb : s.lifecycle = .busy) :
    ∃ rs, frameStep s = .next (finishFrame s rs) := by
  obtain ⟨hleft, hinside⟩ := h.running hb
  have hsample : (frameParams s).sample < s.params.hostBufLen := by
    show s.blkOff.toNat + s.blkF.toNat < s.params.hostBufLen
    omega
  have hchan : ∀ ch ∈ s.chans, ∀ c x, ∃ r, channelFrame (frameParams s) c ch x = .next r := by
    intro ch hch c x
    obtain ⟨_, _, -, -, hr⟩ := channelFrame_inv h hb hch c x
    exact ⟨_, hr⟩
  obtain ⟨rs, hrs⟩ := frameChannels_total hchan 0
  exact ⟨rs, frameStep_eq_next.2 ⟨hsample, rs, hrs, rfl⟩⟩

/-- A block of `n` frames with `f` of them computed, the host quiet: what an undisturbed block is between its frames, from its
start to the state after its last frame. -/
structure State.BlockAt (s : State) (n : Word) (f : Nat) : Prop where
  inv : s.Inv
  quiet : s.hostQ = []
  count : s.blkCount = n
  frame : s.blkF.toNat = f
  lifecycle : s.lifecycle = if f = n.toNat then .ready else .busy

/-- While a frame is left, a step computes it. -/
theorem State.BlockAt.exists_step {s : State} {n : Word} {f : Nat} (h : s.BlockAt n f) (hf : f < n.toNat) :
    ∃ t, step s = .next t ∧ t.BlockAt n (f + 1) := by
  have hb : s.lifecycle = .busy := by rw [h.lifecycle, if_neg (Nat.ne_of_lt hf)]
  obtain ⟨rs, hrs⟩ := frameStep_total (tick_inv h.inv) hb
  have hstep : step s = .next (drawTurn (finishFrame (tick s) rs)) := by
    rw [step_of_quiet_busy h.quiet hb, hrs, andThen_next]
  have hframe : (s.blkF + 1#32).toNat = f + 1 := by
    have hs := h.frame
    have hn := n.isLt
    bv_omega
  refine ⟨_, hstep, ⟨step_inv h.inv hstep, by simp [h.quiet], by simp [h.count], by simp [hframe], ?_⟩⟩
  have hlast : s.blkF + 1#32 = n ↔ f + 1 = n.toNat := by rw [← BitVec.toNat_inj, hframe]
  simp only [drawTurn_lifecycle, finishFrame_lifecycle_eq, tick_blkF, tick_blkCount, h.count, hlast]

/-- A run goes on from where its first step leads. -/
theorem core_run_succ {s u : State} (h : step s = .next u) (k : Nat) : core.run (k + 1) s = core.run k u := by
  have hcore : core.step s = .next u := h
  simp only [Host.Core.run, hcore]

/-- So any number of the frames left are computed, a step each. -/
theorem State.BlockAt.exists_run {n : Word} (k : Nat) : ∀ {s : State} {f : Nat}, s.BlockAt n f → f + k ≤ n.toNat →
    ∃ t, core.run k s = .next t ∧ t.BlockAt n (f + k) := by
  induction k with
  | zero => exact fun {s} _ h _ => ⟨s, rfl, h⟩
  | succ k ih =>
    intro s f h hk
    obtain ⟨u, hu, hblock⟩ := h.exists_step (by omega)
    obtain ⟨t, ht, hend⟩ := ih hblock (by omega)
    exact ⟨t, by rw [core_run_succ hu, ht], by rwa [show f + (k + 1) = f + 1 + k by omega]⟩

/-- A running block with a quiet host is at its next frame. -/
theorem State.Inv.blockAt {s : State} (h : s.Inv) (hb : s.lifecycle = .busy) (hq : s.hostQ = []) :
    s.BlockAt s.blkCount s.blkF.toNat :=
  ⟨h, hq, rfl, rfl, by rw [hb, if_neg (Nat.ne_of_lt (h.running hb).left)]⟩

/-- Settles O60, by induction on the number of frames computed: `READY` and the number of frames left are read off where the
block stands. -/
theorem blockRunsToItsEnd : Obligations.BlockRunsToItsEnd := by
  intro s h hb hq
  have hstart := h.blockAt hb hq
  have hleft := (h.running hb).left
  refine ⟨?_, fun k hk => ?_⟩
  · obtain ⟨t, ht, hend⟩ := hstart.exists_run (s.blkCount.toNat - s.blkF.toNat) (by omega)
    have hall : s.blkF.toNat + (s.blkCount.toNat - s.blkF.toNat) = s.blkCount.toNat := by omega
    exact ⟨t, ht, by rw [hend.lifecycle, if_pos hall], BitVec.eq_of_toNat_eq (hend.frame.trans hall)⟩
  · obtain ⟨t, ht, hat⟩ := hstart.exists_run k (by omega)
    exact ⟨t, ht, by rw [hat.lifecycle, if_neg (by omega)], hat.frame⟩

end Sys2Proof.Machine
end

section
/-! PROOFS. The ranges of a frame's LFO quantities: phase, frequency, modulation depth (R114, R116, R30). -/

namespace Sys2Proof.Num

/-- The rounded product is monotone in the magnitude of its first factor. -/
theorem mag_fmul_mono_left {a b c : F} (ha : isFinite a = true) (hb : isFinite b = true) (hc : isFinite c = true)
    (h : mag a ≤ mag c) : mag (fmul a b) ≤ mag (fmul c b) := by
  have hra := roundUnits_le_inf (mag a * mag b) (2 ^ 149)
  have hrc := roundUnits_le_inf (mag c * mag b) (2 ^ 149)
  rw [fmul_finite ha hb, fmul_finite hc hb, mag_pack _ (by omega), mag_pack _ (by omega)]
  exact units_mono (roundUnits_mono (Nat.mul_le_mul_right _ h))

/-- A value that is not negative compares so with `+0.0`. -/
theorem fle_zero_of_nonneg {a : F} (hn : isNaN a = false) (h : 0 ≤ value a) : fle zero a = true :=
  fle_iff.2 ⟨by decide, hn, by rwa [show value zero = 0 by decide]⟩

end Sys2Proof.Num

namespace Sys2Proof.Machine

/-- A product of two values of `[0,1]` is one. -/
theorem In01.fmul {a b : F} (ha : In01 a) (hb : In01 b) : In01 (Num.fmul a b) := by
  obtain ⟨fa, a0, -, ma⟩ := ha.bounds
  obtain ⟨fb, b0, -, mb⟩ := hb.bounds
  have hnan := Num.fmul_not_nan fa fb
  have h0 := Num.value_fmul_nonneg fa fb a0 b0
  have h1 : Num.mag (Num.fmul a b) ≤ Num.mag Num.one := (Num.mag_fmul_le_of_le_one fa fb mb).trans ma
  have hv := Num.value_le_mag (Num.fmul a b)
  have hone : Num.value Num.one = Num.mag Num.one := by decide
  exact ⟨Num.fle_zero_of_nonneg hnan h0, Num.fle_iff.2 ⟨hnan, by decide, by omega⟩⟩

/-! ## The phase (R116, R30) -/

/-- Settles O39: the increment is below `2π`, so one conditional subtraction is enough. -/
theorem phaseAdvanceStaysInRange : Obligations.PhaseAdvanceStaysInRange :=
  fun _ _ _ hr h hp => phaseOk_advance hp hr h

/-! ## The LFO frequency (R116) -/

/-- What a rate of `[0,1]` adds to `MIN_RATE_HZ` is not negative and at most `RATE_SPAN`. -/
theorem rateTerm_bounds {r : F} (h : In01 r) : Num.isFinite (Num.fmul rateSpan r) = true ∧
    0 ≤ Num.value (Num.fmul rateSpan r) ∧ Num.value (Num.fmul rateSpan r) ≤ Num.value rateSpan := by
  obtain ⟨hf, h0, -, hm⟩ := h.bounds
  have hspan : Num.isFinite rateSpan = true := by decide
  have hle : Num.mag (Num.fmul rateSpan r) ≤ Num.mag rateSpan := Num.mag_fmul_le_of_le_one hspan hf hm
  have hv := Num.value_le_mag (Num.fmul rateSpan r)
  have hpos : Num.value rateSpan = Num.mag rateSpan := by decide
  exact ⟨Num.finite_of_mag_le hspan hle, Num.value_fmul_nonneg hspan hf (by decide) h0, by omega⟩

/-- Settles O40: `MIN_RATE_HZ` plus a term of `[0, RATE_SPAN]`, and rounding is monotone; the top of the range rounds to
`MAX_RATE_HZ`. -/
theorem lfoFrequencyRange : Obligations.LfoFrequencyRange := by
  refine ⟨fun rate h => ?_, by decide, by decide⟩
  have hsq := h.fmul h
  obtain ⟨hf, h0, hle⟩ := rateTerm_bounds (hsq.fmul hsq)
  have hmin : Num.isFinite Config.minRateHz = true := by decide
  have hnan : Num.isNaN (lfoFreq rate) = false := Num.fadd_not_nan hmin hf
  have hlo : Num.value Config.minRateHz ≤ Num.value (lfoFreq rate) := Num.le_value_fadd hmin hf (by decide) (by omega)
  have hhi : Num.value (lfoFreq rate) ≤ Num.value Config.maxRateHz := by
    have htop : Num.fadd Config.minRateHz rateSpan = Config.maxRateHz := by decide
    rw [← htop]
    exact Num.value_fadd_mono hmin hf hmin (by decide) (by omega)
  exact ⟨Num.fle_iff.2 ⟨by decide, hnan, hlo⟩, Num.fle_iff.2 ⟨hnan, by decide, hhi⟩⟩

/-! ## The modulation depth (R114) -/

/-- `DEPTHSAMPLES` of a depth whose cube is a value `d3` of `[0,1]` lies between 0 and its value at 1. -/
theorem depthProduct_bounds {fs : Nat} (hr : LegalRate fs) {d3 : F} (h : In01 d3) :
    Num.fle Num.zero (Num.fmul (Num.fmul d3 Config.maxDepthS) (fsIntF fs)) = true ∧
      Num.fle (Num.fmul (Num.fmul d3 Config.maxDepthS) (fsIntF fs)) (Num.fmul Config.maxDepthS (fsIntF fs)) = true := by
  obtain ⟨hf, h0, -, hm⟩ := h.bounds
  have hmax : Num.isFinite Config.maxDepthS = true := by decide
  have hfs := (fsIntF_exact hr).2
  have hfs0 : 0 ≤ Num.value (fsIntF fs) := by
    rw [fsIntF, Num.value_ofNat_eq_mag]
    exact Int.natCast_nonneg _
  have hone : Num.fmul Num.one Config.maxDepthS = Config.maxDepthS := by decide
  have hmd := Num.mag_fmul_mono_left hf hmax Num.finite_one hm
  rw [hone] at hmd
  have hfd := Num.finite_of_mag_le hmax hmd
  have hp := Num.value_fmul_nonneg hfd hfs (Num.value_fmul_nonneg hf hmax h0 (by decide)) hfs0
  have hb := Num.value_fmul_nonneg hmax hfs (by decide) hfs0
  have hle := Num.mag_fmul_mono_left hfd hfs hmax hmd
  have hnan := Num.fmul_not_nan hfd hfs
  refine ⟨Num.fle_zero_of_nonneg hnan hp, Num.fle_iff.2 ⟨hnan, Num.fmul_not_nan hmax hfs, ?_⟩⟩
  rw [← Num.mag_eq_of_nonneg hp, ← Num.mag_eq_of_nonneg hb]
  exact Int.ofNat_le.2 hle

/-- Depth 0 gives `+0.0`, because `FS_INT_F` has the sign `+`. -/
theorem depthSamples_zero {fs : Nat} (hr : LegalRate fs) : depthSamples fs Num.zero = Num.zero := by
  have hprod : Num.fmul (Num.fmul (Num.fmul Num.zero Num.zero) Num.zero) Config.maxDepthS = Num.zero := by decide
  have hmag : Num.mag Num.zero * Num.mag (fsIntF fs) = 0 := by rw [show Num.mag Num.zero = 0 by decide, Nat.zero_mul]
  rw [depthSamples, hprod, Num.fmul_zero_mag (by decide) (fsIntF_exact hr).2 hmag, fsIntF, Num.sign_ofNat]
  decide

theorem depthSamples_one (fs : Nat) : depthSamples fs Num.one = Num.fmul Config.maxDepthS (fsIntF fs) := by
  have hprod : Num.fmul (Num.fmul (Num.fmul Num.one Num.one) Num.one) Config.maxDepthS = Config.maxDepthS := by decide
  rw [depthSamples, hprod]

/-- Settles O41: the cube of the depth lies in `[0,1]`, and products are monotone. -/
theorem depthSamplesRange : Obligations.DepthSamplesRange :=
  fun fs hr => ⟨fun _ h => depthProduct_bounds hr ((h.fmul h).fmul h), depthSamples_zero hr, depthSamples_one fs⟩

end Sys2Proof.Machine
end

section
/-! PROOFS. What one channel does in a frame: the delay buffer, the read position, the delayed signal, the saturated wet signal,
the mix, and the bound on all of them (R130 to R141). -/

namespace Sys2Proof.Num

/-- An integer of F is its own floor and ceiling. -/
theorem floor_ceil_of_int {a : F} {n : Int} (hf : isFinite a = true) (h : value a = n * 2 ^ 149) :
    floor a = some n ∧ ceil a = some n := by
  rw [floor_eq_some_iff, ceil_eq_some_iff, h]
  exact ⟨⟨hf, by omega⟩, hf, by omega⟩

theorem fsub_self {a : F} (ha : isFinite a = true) : fsub a a = pack (sign a && !sign a) 0 := by
  rw [fsub_finite ha ha, if_pos (sub_self _)]

/-- Interpolation between a value and itself gives that value. -/
theorem value_lerp_self {a t : F} (ha : isFinite a = true) (ht : isFinite t = true) : value (lerp a a t) = value a := by
  refine value_lerp_left ha ht ?_ ?_
  · rw [fsub_self ha]; exact isFinite_pack_zero _
  · rw [fsub_self ha, mag_pack_zero, Nat.zero_mul]

/-- An integer difference of at most 2^24 in magnitude is exact. -/
theorem fsub_int {a b : F} {m n : Int} (ha : isFinite a = true) (hb : isFinite b = true)
    (hva : value a = m * 2 ^ 149) (hvb : value b = n * 2 ^ 149) (h : (m - n).natAbs ≤ 16777216) :
    value (fsub a b) = (m - n) * 2 ^ 149 ∧ isFinite (fsub a b) = true :=
  fadd_int ha (by simpa using hb) hva (by rw [value_neg, hvb, neg_mul]) h

/-- A factor of `[0,1]` leaves a product between zero and the other factor. -/
theorem value_fmul_between {v t : F} (hv : isFinite v = true) (ht : isFinite t = true) (h0 : 0 ≤ value t)
    (h1 : mag t ≤ mag one) :
    (0 ≤ value (fmul v t) ∧ value (fmul v t) ≤ value v) ∨ (value v ≤ value (fmul v t) ∧ value (fmul v t) ≤ 0) := by
  have hm := mag_fmul_le_of_le_one hv ht h1
  have hle := value_le_mag (fmul v t)
  have hge := neg_mag_le_value (fmul v t)
  have habs := natAbs_value v
  rcases le_total 0 (value v) with h | h
  · exact .inl ⟨value_fmul_nonneg hv ht h h0, by omega⟩
  · exact .inr ⟨by omega, value_fmul_nonpos hv ht h h0⟩

/-- The rounding error of a difference is at most the magnitude of what is subtracted: `a` itself is a value of F, at that
distance from `a - b`. -/
theorem fsub_error_le {a b : F} (ha : isFinite a = true) (hb : isFinite b = true) (hf : isFinite (fsub a b) = true) :
    |value (fsub a b) - (value a - value b)| ≤ mag b := by
  have h := (fsub_nearest ha hb hf a).1
  rwa [mul_one, mul_one, sub_sub_cancel, Int.abs_eq_natAbs (value b), natAbs_value] at h

end Sys2Proof.Num

namespace Sys2Proof.Machine

/-! ## Indices and positions (R131, R132, R137) -/

theorem wrapIndex_lt {b : Nat} (hb : 0 < b) (i : Int) : wrapIndex b i < b := by
  have := Int.emod_lt_of_pos i (Int.natCast_pos.2 hb)
  unfold wrapIndex
  omega

/-- The wrapped index is the Euclidean remainder. -/
theorem wrapIndex_eq_emod {b : Nat} (hb : 0 < b) (i : Int) : (wrapIndex b i : Int) = i % b :=
  Int.toNat_of_nonneg (Int.emod_nonneg i (by omega))

theorem wrapIndex_of_lt {b j : Nat} (h : j < b) : wrapIndex b (j : Int) = j := by
  unfold wrapIndex
  rw [← Int.natCast_emod, Int.toNat_natCast, Nat.mod_eq_of_lt h]

/-- Settles O31: both wraps are Euclidean remainders. -/
theorem delayIndicesStayInTheBuffer : Obligations.DelayIndicesStayInTheBuffer := fun _ i _ hb =>
  ⟨wrapIndex_lt hb i, Nat.mod_lt _ hb, by rw [wrapIndex_eq_emod hb, Int.emod_def]⟩

/-- The slot `k` places back lies past the seam of the buffer when `w < k`. -/
theorem slotBack_of_lt {b w k : Nat} (hw : w < b) (h : w < k) : (w + b - k) % b = w + b - k := Nat.mod_eq_of_lt (by omega)

theorem slotBack_of_le {b w k : Nat} (hw : w < b) (h : k ≤ w) : (w + b - k) % b = w - k := by
  rw [show w + b - k = w - k + b by omega, Nat.add_mod_right, Nat.mod_eq_of_lt (by omega)]

/-- At an integer offset the read position is the slot that many places back, exactly, across the seam of the buffer (R131). -/
theorem readPosition_int {b w k : Nat} (hw : w < b) (hb : b ≤ 16777216) (hk : k < b) :
    Num.value (readPosition b w (Num.ofNat k)) = ((w + b - k) % b : Nat) * 2 ^ 149 ∧
      Num.isFinite (readPosition b w (Num.ofNat k)) = true := by
  obtain ⟨vw, fw⟩ := Num.ofNat_exact (n := w) (by omega)
  obtain ⟨vk, fk⟩ := Num.ofNat_exact (n := k) (by omega)
  obtain ⟨vb, fb⟩ := Num.ofNat_exact hb
  obtain ⟨v0, f0⟩ := Num.fsub_int fw fk vw vk (by omega)
  have hlt : Num.flt (Num.fsub (Num.ofNat w) (Num.ofNat k)) Num.zero = true ↔ w < k := by
    rw [Num.flt_iff, v0, show Num.value Num.zero = 0 by decide]
    exact ⟨fun h => by omega, fun h => ⟨Num.isFinite_not_nan f0, by decide, by omega⟩⟩
  unfold readPosition
  by_cases h : w < k
  · obtain ⟨v1, f1⟩ := Num.fadd_int f0 fb v0 vb (by omega)
    rw [if_pos (hlt.2 h), v1, slotBack_of_lt hw h]
    exact ⟨by omega, f1⟩
  · rw [if_neg (mt hlt.1 h), v0, slotBack_of_le hw (Nat.le_of_not_lt h)]
    exact ⟨by omega, f0⟩

/-! ## The delayed signal (R132, R133, R139) -/

theorem delayedSignal_eq_lerp {p : F} {fl ce : Int} (hfl : Num.floor p = some fl) (hce : Num.ceil p = some ce) (dly : Memory)
    (b : Nat) : delayedSignal dly b p = some (Num.lerp (readWord dly (wrapIndex b fl)) (readWord dly (wrapIndex b ce))
      (Num.fsub p (Num.ofInt fl))) := by
  simp only [delayedSignal, hfl, hce]

/-- At an integer position inside the buffer the delayed signal is that slot. -/
theorem delayedSignal_int {dly : Memory} {b j : Nat} {p : F} (hj : j < b) (hp : Num.isFinite p = true)
    (hv : Num.value p = j * 2 ^ 149) (hs : Num.isFinite (readWord dly j) = true) :
    ∃ d, delayedSignal dly b p = some d ∧ Num.value d = Num.value (readWord dly j) := by
  obtain ⟨hfl, hce⟩ := Num.floor_ceil_of_int hp hv
  have hfrac := Num.finite_of_mag_le (by decide) (mag_fraction_le hp hfl)
  refine ⟨_, delayedSignal_eq_lerp hfl hce dly b, ?_⟩
  rw [wrapIndex_of_lt hj]
  exact Num.value_lerp_self hs hfrac

/-- Settles O32: the position is an integer, and the delay write changed the slot there only when it is the write position. -/
theorem integerOffsetReadsTheSlotBack : Obligations.IntegerOffsetReadsTheSlotBack := by
  intro dly b w k x hwf hw hb hk hx hslot
  obtain ⟨hv, hf⟩ := readPosition_int hw hb hk
  have hread : readWord (delayWrite dly w x) ((w + b - k) % b) = if k = 0 then x else readWord dly ((w + b - k) % b) := by
    split
    next h0 =>
      rw [slotBack_of_le hw (by omega), h0]
      exact readWord_writeWord_same hwf w x
    next h0 =>
      refine readWord_writeWord_other x fun he => ?_
      rcases Nat.lt_or_ge w k with h | h
      · rw [slotBack_of_lt hw h] at he
        omega
      · rw [slotBack_of_le hw h] at he
        omega
  rw [← hread]
  refine delayedSignal_int (Nat.mod_lt _ (by omega)) hf hv ?_
  rw [hread]
  split
  · exact hx
  · exact hslot

/-! ## The delay buffer after a channel step (R130, R136) -/

/-- The two writes of a channel step leave every byte outside the slot alone. -/
theorem readByte_feedbackWrite_other {dly : Memory} {w a : Nat} (fb : Bool) (bits : Word) (x d : F) (h : a / 4 ≠ w) :
    readByte (feedbackWrite fb bits (delayWrite dly w x) w d) a = readByte dly a := by
  unfold feedbackWrite delayWrite
  split
  · rw [readByte_writeWord_other _ h, readByte_writeWord_other _ h]
  · rw [readByte_writeWord_other _ h]

theorem readWord_feedbackWrite_other {dly : Memory} {w k : Nat} (fb : Bool) (bits : Word) (x d : F) (h : k ≠ w) :
    readWord (feedbackWrite fb bits (delayWrite dly w x) w d) k = readWord dly k :=
  readWord_congr fun a ha => readByte_feedbackWrite_other fb bits x d (by omega)

/-- The slot holds the input, or the feedback value of the input just written to it. -/
theorem readWord_feedbackWrite_same {dly : Memory} (hwf : Memory.wf dly) (w : Nat) (fb : Bool) (bits : Word) (x d : F) :
    readWord (feedbackWrite fb bits (delayWrite dly w x) w d) w =
      if fb then Num.settle bits (feedbackValue x d) else x := by
  unfold feedbackWrite delayWrite
  split
  · rw [readWord_writeWord_same (writeWord_wf hwf w x), readWord_writeWord_same hwf]
  · exact readWord_writeWord_same hwf w x

/-- Settles O30: the read position has its two indices, so the delayed signal exists, and the step is the one it determines. -/
theorem channelStepFollowsItsRule : Obligations.ChannelStepFollowsItsRule := by
  rintro b ch x off mix fb bitsY bitsFb p fl ce d hw rfl hfl hce rfl
  refine ⟨_, _, chanStep_eq_next.2 ⟨hw, _, delayedSignal_eq_lerp hfl hce _ b, rfl⟩, rfl, rfl, rfl, fun hwf => ?_, fun a ha => ?_⟩
  · exact readWord_feedbackWrite_same hwf ch.wpos fb bitsFb x _
  · exact readByte_feedbackWrite_other fb bitsFb x _ ha

/-! ## The wet signal and the mix (R134, R135) -/

/-- Saturation makes the wet signal a number of magnitude at most `CLIP_GAIN`, infinite sums included. -/
theorem wetSignal_bounds {d x : F} (h : Num.isNaN (Num.fadd d x) = false) :
    Num.isFinite (wetSignal d x) = true ∧ Num.mag (wetSignal d x) ≤ Num.mag Config.clipGain := by
  have ht := Num.mag_tanh_le_one h
  have hgain : Num.isFinite Config.clipGain = true := by decide
  have hone : Num.mag Num.one = 2 ^ 149 := by decide
  have hm : Num.mag (wetSignal d x) ≤ Num.mag Config.clipGain := by
    refine Num.mag_fmul_le (Num.finite_of_mag_le Num.finite_one ht) hgain ?_
    rw [Nat.mul_comm, ← hone]
    exact Nat.mul_le_mul_left _ ht
  exact ⟨Num.finite_of_mag_le hgain hm, hm⟩

/-- Settles O33: `TANH` is at most 1 in magnitude. -/
theorem wetSignalIsBounded : Obligations.WetSignalIsBounded := fun _ _ =>
  ⟨rfl, fun h => (wetSignal_bounds h).imp_left Num.isFinite_not_nan⟩

/-- Settles O34: the product with `+0.0` is a zero, and adding a zero to a value other than zero changes no bit. -/
theorem mixZeroIsTransparent : Obligations.MixZeroIsTransparent := by
  intro x wet hx hx0 hd
  have hzero : Num.mag (Num.fsub wet x) * Num.mag 0x00000000#32 = 0 := by
    rw [show Num.mag 0x00000000#32 = 0 by decide, Nat.mul_zero]
  have hv : Num.value (mixOutput x wet 0x00000000#32) = Num.value x := by
    rw [mixOutput, Num.fmul_zero_mag hd (by decide) hzero]
    exact Num.value_fadd_zero hx _
  have hx0' : Num.value x ≠ 0 := by rwa [← Int.natAbs_ne_zero, Num.natAbs_value]
  exact Num.eq_of_value_eq (hv ▸ hx0') hv

/-! ## Bounded input gives bounded output (R141) -/

/-- The output of a bounded input and a saturated wet signal: what is added to `x` lies between zero and the rounded `wet - x`,
and `x` plus the latter is within `|x|` of `wet`. -/
theorem mag_mixOutput_le {x wet mix : F} (hx : AtMost1 x) (hwet : Num.mag wet ≤ Num.mag Config.clipGain) (hmix : In01 mix) :
    Num.mag (mixOutput x wet mix) ≤ Num.mag 0x40200000#32 := by
  have fx := Num.finite_of_mag_le Num.finite_one hx
  have fwet : Num.isFinite wet = true := Num.finite_of_mag_le (by decide) hwet
  obtain ⟨fmix, mix0, -, mmix⟩ := hmix.bounds
  have hsum : Num.mag Config.clipGain + Num.mag Num.one ≤ Num.mag 0x40200000#32 := by decide
  have hx1 : Num.mag x ≤ Num.mag Num.one := hx
  have fdiff : Num.isFinite (Num.fsub wet x) = true :=
    Num.finite_of_mag_le (c := 0x40200000#32) (by decide) (Num.mag_fsub_le_add fwet fx (by omega))
  have fprod : Num.isFinite (Num.fmul (Num.fsub wet x) mix) = true :=
    Num.finite_of_mag_le fdiff (Num.mag_fmul_le_of_le_one fdiff fmix mmix)
  have hbetween := Num.value_fmul_between fdiff fmix mix0 mmix
  have herror := abs_le.1 (Num.fsub_error_le fwet fx fdiff)
  have habsx := Num.natAbs_value x
  have habsw := Num.natAbs_value wet
  exact Num.mag_fadd_le fx fprod (by omega)

/-- Feedback saturates: the value written back for a finite slot and a finite delayed signal is a number of magnitude at most 1. -/
theorem atMost1_feedbackValue {v d : F} (hv : AtMost1 v) (hd : Num.mag d ≤ Num.mag 0x5B000000#32) (bits : Word) :
    AtMost1 (Num.settle bits (feedbackValue v d)) := by
  have fv := Num.finite_of_mag_le Num.finite_one hv
  have fd : Num.isFinite d = true := Num.finite_of_mag_le (by decide) hd
  have fprod : Num.isFinite (Num.fmul d Config.fbGain) = true :=
    Num.finite_of_mag_le fd (Num.mag_fmul_le_of_le_one fd (by decide) (by decide))
  have ht := Num.mag_tanh_le_one (Num.fadd_not_nan fv fprod)
  have hnan := Num.isFinite_not_nan (Num.finite_of_mag_le Num.finite_one ht)
  unfold feedbackValue
  rw [Num.settle_of_not_nan hnan]
  exact ht

/-- The writes of a channel step keep the delay words of magnitude at most 1, with feedback and without. -/
theorem atMost1_feedbackWrite {dly : Memory} {x d : F} (hwf : Memory.wf dly) (hw : ∀ k, AtMost1 (readWord dly k))
    (hx : AtMost1 x) (hd : Num.mag d ≤ Num.mag 0x5B000000#32) (w : Nat) (fb : Bool) (bits : Word) (k : Nat) :
    AtMost1 (readWord (feedbackWrite fb bits (delayWrite dly w x) w d) k) := by
  by_cases hk : k = w
  · rw [hk, readWord_feedbackWrite_same hwf]
    split
    · exact atMost1_feedbackValue hx hd bits
    · exact hx
  · rw [readWord_feedbackWrite_other fb bits x d hk]
    exact hw k

/-- The delay write of R130 alone keeps that bound too: it is the channel step's writes without feedback. -/
theorem atMost1_delayWrite {dly : Memory} {x : F} (hwf : Memory.wf dly) (hw : ∀ k, AtMost1 (readWord dly k)) (hx : AtMost1 x)
    (w k : Nat) : AtMost1 (readWord (delayWrite dly w x) k) :=
  atMost1_feedbackWrite (d := Num.zero) hwf hw hx (by decide) w false 0#32 k

/-- A channel of a frame with bounded input and delay words gives a bounded output and bounded delay words. -/
theorem channelFrame_bounded {s : State} (h : s.Inv) (hb : s.lifecycle = .busy) {ch : Channel} (hc : ch ∈ s.chans) {c : Nat}
    {x : F} (hw : ∀ k, AtMost1 (readWord ch.dly k)) (hx : AtMost1 x) {r : Channel × F}
    (hr : channelFrame (frameParams s) c ch x = .next r) :
    (∀ k, AtMost1 (readWord r.1.dly k)) ∧ Num.mag r.2 ≤ Num.mag 0x40200000#32 := by
  obtain ⟨p, d, hp, hd, heq⟩ := channelFrame_inv h hb hc c x
  obtain rfl := Host.Outcome.next.inj (hr.symm.trans heq)
  have hwf := (h.channel ch hc).wf
  have hm := mag_delayedSignal_le hp (atMost1_delayWrite hwf hw hx ch.wpos) hd
  have hsum : Num.isNaN (Num.fadd d x) = false :=
    Num.fadd_not_nan (Num.finite_of_mag_le (by decide) hm) (Num.finite_of_mag_le Num.finite_one hx)
  have hy := mag_mixOutput_le hx (wetSignal_bounds hsum).2 (in01_cur h.mix)
  have hnan := Num.isFinite_not_nan (Num.finite_of_mag_le (by decide) hy)
  refine ⟨atMost1_feedbackWrite hwf hw hx hm ch.wpos _ _, ?_⟩
  rw [Num.settle_of_not_nan hnan]
  exact hy

/-- Settles O35, channel by channel. -/
theorem outputStaysBounded : Obligations.OutputStaysBounded := by
  intro s t h hb hw hx hstep
  have hchannel : ∀ c (hc : c < s.chans.length), ∃ r : Channel × F, t.chans[c]? = some r.1 ∧
      readWord t.outMem (hostIndex c (s.blkOff.toNat + s.blkF.toNat)) = r.2 ∧
      (∀ k, AtMost1 (readWord r.1.dly k)) ∧ Num.mag r.2 ≤ Num.mag 0x40200000#32 := by
    intro c hc
    have hmem : s.chans[c] ∈ s.chans := List.getElem_mem hc
    obtain ⟨r, hr, hchan, hout⟩ := frameStep_channel h.outWf hstep (List.getElem?_eq_getElem hc)
    exact ⟨r, hchan, hout, channelFrame_bounded h hb hmem (hw _ hmem) (hx c hc) hr⟩
  obtain ⟨-, hlen, -⟩ := frameStepLeavesTheRestAlone s t hstep
  refine ⟨fun ch hch => ?_, fun c hc => ?_⟩
  · obtain ⟨c, hc, rfl⟩ := List.mem_iff_getElem.1 hch
    obtain ⟨r, hchan, -, hdly, -⟩ := hchannel c (hlen ▸ hc)
    rw [(List.getElem_eq_iff hc).2 hchan]
    exact hdly
  · obtain ⟨r, -, hout, -, hy⟩ := hchannel c hc
    rw [hout]
    exact hy

end Sys2Proof.Machine
end

section
/-! PROOFS. The parameter commands SETP, GETP and RAMP, one id after another (R150 to R153). -/

namespace Sys2Proof.Machine

/-! ## A command whose code is known (R171) -/

theorem exec_of_accepted {i : Instr} {s t : State} (h : refusalCode i s = .none) (ht : acceptedState i s = t) :
    exec i s = .next t := by
  rw [exec_eq, if_pos h, ht]

theorem exec_of_refused {i : Instr} {s : State} {e : Code} (h : refusalCode i s = e) (he : e ≠ .none) :
    exec i s = .next (refuse e s) := by
  rw [exec_eq, h, if_neg he]

/-! ## SETP and GETP (R150, R151) -/

/-- Settles O18: refused in `UNINIT`, and otherwise the work of SETP for each id of R26 and for every other one. -/
theorem setpStoresTheClampedValue : Obligations.SetpStoresTheClampedValue := by
  refine fun s pid => ⟨fun hl => exec_of_refused (if_pos hl) nofun, fun hl => exec_of_accepted (if_neg hl) ?_⟩
  match pid with
  | 0 | 1 | 2 | 3 | 4 | _ + 5 => rfl

/-- Settles O19: refused in `UNINIT` with `RESULT` kept, and otherwise `RESULT` takes what the id names. -/
theorem getpReturnsTheUiValue : Obligations.GetpReturnsTheUiValue := by
  refine fun s pid => ⟨fun hl => ⟨exec_of_refused (if_pos hl) nofun, refuse_result .state s⟩,
    fun hl => exec_of_accepted (if_neg hl) ?_⟩
  match pid with
  | 0 | 1 | 2 | 3 | 4 | _ + 5 => rfl

/-! ## RAMP (R152) -/

/-- The ramper a ramp starts with, nothing of R15 left free in its slope. -/
def rampTo (v : F) (d : Word) (r : Ramper) : Ramper :=
  if d = 0#32 then idleRamper v else ⟨v, v, Num.fdiv (Num.fsub (cur r) v) (Num.ofNat d.toNat), d⟩

/-- RAMP on a ramper of R27 with a target of `[0,1]` draws no free value. -/
theorem rampParam_ramped {s : State} {r : RampId} (h : (s.getRamp r).Ok) {v : F} (hv : In01 v) (d : Word) :
    rampParam s (.ramped r) v d = s.setRamp r (rampTo v d (s.getRamp r)) :=
  congrArg (s.setRamp r) (startRampSetsAllFields _ _ v d h hv)

/-- Settles O20: refused in `UNINIT`; otherwise the three ramped parameters start their ramp, and every other id leaves
nothing to do. -/
theorem rampStartsTheNamedRamp : Obligations.RampStartsTheNamedRamp := by
  refine fun s pid => ⟨fun hl => exec_of_refused (if_pos hl) nofun, fun hl hmix hrate hdepth =>
    ⟨rampTo (Num.clamp01 s.arg0) s.arg1, fun _ => rfl, exec_of_accepted (if_neg hl) ?_⟩⟩
  have hstart (r : RampId) (h : (s.getRamp r).Ok) := rampParam_ramped h (in01_clamp s.arg0) s.arg1
  match pid with
  | 0 => exact congrArg accept (hstart .mix hmix)
  | 1 => exact congrArg accept (hstart .rate hrate)
  | 2 => exact congrArg accept (hstart .depth hdepth)
  | 3 | 4 | _ + 5 => rfl

/-! ## Unknown ids (R153) -/

/-- Settles O21: an id from 5 on names nothing, which leaves SETP and RAMP only `LAST` to write, and GETP a `+0.0` to return. -/
theorem unknownIdsDoNothing : Obligations.UnknownIdsDoNothing := by
  intro s pid hl hpid _
  match pid, hpid with
  | _ + 5, _ =>
    exact ⟨exec_of_accepted (if_neg hl) rfl, exec_of_accepted (if_neg hl) rfl, exec_of_accepted (if_neg hl) rfl⟩

end Sys2Proof.Machine
end

section
/-! PROOFS. The lifecycle: INIT and its checks, RESET, and what moves `STATE` (R160 to R163). -/

namespace Sys2Proof.Machine

/-! ## The checks of INIT (R161) -/

/-- What passes the first four checks is left to the last one. -/
theorem initCheck_of_legalRate {s : State} {nch fs : Nat} (hl : s.lifecycle ≠ .busy) (hn : nch ≠ 0)
    (hb : bufSize s.params fs ≠ 0) (hr : LegalRate fs) :
    initCheck s nch fs =
      if s.params.maxCh < nch ∨ s.params.dlyRamWords < nch * bufSize s.params fs then .alloc else .none := by
  have hrate : ¬(fs < Config.minRate ∨ Config.maxRate < fs) := not_or.2 ⟨Nat.not_lt.2 hr.1, Nat.not_lt.2 hr.2⟩
  rw [initCheck, if_neg hl, if_neg hn, if_neg hb, if_neg hrate]

/-- INIT is accepted exactly when none of the five checks refuses. -/
theorem initCheck_eq_none_iff {s : State} {nch fs : Nat} :
    initCheck s nch fs = .none ↔ s.lifecycle ≠ .busy ∧ 1 ≤ nch ∧ nch ≤ s.params.maxCh ∧ LegalRate fs ∧
      bufSize s.params fs ≠ 0 ∧ nch * bufSize s.params fs ≤ s.params.dlyRamWords := by
  constructor
  · intro h
    obtain ⟨hl, ⟨hmin, hmax⟩, hb, hr⟩ := initCheck_eq_none h
    rw [initCheck_of_legalRate hl (by omega) hb.ne' hr] at h
    split at h
    · cases h
    · exact ⟨hl, hmin, hmax, hr, hb.ne', by omega⟩
  · rintro ⟨hl, hmin, hmax, hr, hb, ha⟩
    rw [initCheck_of_legalRate hl (by omega) hb hr, if_neg (by omega)]

/-- Settles O15: each clause denies the checks before its own and meets that one. -/
theorem initChecksInOrder : Obligations.InitChecksInOrder := by
  intro s
  have hrefused {e : Code} (he : e ≠ .none) (h : initCheck s s.arg0.toNat s.arg1.toNat = e) :
      exec .init s = .next (refuse e s) := exec_of_refused h he
  refine ⟨fun hl => hrefused nofun ?_, fun hl hn => hrefused nofun ?_, fun hl hn hb => hrefused nofun ?_,
    fun hl hn hb hr => hrefused nofun ?_, fun hl hn hb hmin hmax ha => hrefused nofun ?_⟩
  · rw [initCheck, if_pos hl]
  · rw [initCheck, if_neg hl, if_pos hn]
  · rw [initCheck, if_neg hl, if_neg hn, if_pos hb]
  · rw [initCheck, if_neg hl, if_neg hn, if_neg hb]
    exact if_pos hr
  · rw [initCheck_of_legalRate hl hn hb ⟨hmin, hmax⟩, if_pos ha]

/-! ## INIT (R160) -/

/-- Settles O14: when the checks pass INIT is accepted, and its state is the one written out; when one of them does not, the
code it gives is the one recorded. -/
theorem initConfiguresTheEngine : Obligations.InitConfiguresTheEngine := by
  refine fun s => ⟨fun hl hmin hmax hr hb ha => ?_, readWord_nil, fun h => ?_⟩
  · exact exec_of_accepted (initCheck_eq_none_iff.2 ⟨hl, hmin, hmax, hr, hb, ha⟩) rfl
  · have hcode : refusalCode .init s ≠ .none := fun hc => h (initCheck_eq_none_iff.1 hc)
    exact ⟨refusalCode .init s, hcode, exec_of_refused rfl hcode⟩

/-! ## RESET (R162) -/

/-- Settles O16: every channel RESET leaves is fresh, and a fresh channel has an empty delay bank. -/
theorem resetFlushesTheAudioHistory : Obligations.ResetFlushesTheAudioHistory := by
  refine fun s => ⟨fun hl => ⟨acceptedState .reset s, exec_of_accepted (if_pos hl) rfl, rfl, List.length_map _, ?_⟩,
    fun hl => exec_of_refused (if_neg hl) nofun⟩
  intro ch hch
  obtain ⟨_, -, rfl⟩ := List.mem_map.1 hch
  exact ⟨readWord_nil, rfl, rfl⟩

/-! ## What moves `STATE` (R163) -/

@[simp] theorem setParam_lifecycle (s : State) (p : Param) (v : F) : (setParam s p v).lifecycle = s.lifecycle := by
  cases p <;> simp [setParam]

@[simp] theorem rampParam_lifecycle (s : State) (p : Param) (v : F) (d : Word) :
    (rampParam s p v d).lifecycle = s.lifecycle := by
  cases p <;> simp [rampParam]

@[simp] theorem regWrite_lifecycle (s : State) (i : Nat) (v : Word) : (regWrite s i v).lifecycle = s.lifecycle := by
  unfold regWrite
  split <;> rfl

/-- Only two accepted commands change `STATE`: INIT in `UNINIT`, and PROCESS with frames in `READY`. -/
theorem exec_lifecycle {i : Instr} {s t : State} (h : exec i s = .next t) :
    t.lifecycle = s.lifecycle ∨
    (i = .init ∧ s.lifecycle = .uninit ∧ t.lifecycle = .ready ∧ t.last = .none) ∨
    (i = .process ∧ s.lifecycle = .ready ∧ t.lifecycle = .busy ∧ t.last = .none ∧ t.blkCount ≠ 0#32) := by
  rcases exec_cases h with ⟨hcode, rfl⟩ | ⟨-, rfl⟩
  · cases i with
    | init =>
      have hl : s.lifecycle ≠ .busy := (initCheck_eq_none_iff.1 hcode).1
      cases hs : s.lifecycle with
      | uninit => exact .inr (.inl ⟨rfl, rfl, rfl, rfl⟩)
      | ready => exact .inl rfl
      | busy => exact absurd hs hl
    | process =>
      have hl : s.lifecycle = .ready := by
        by_contra hl
        have hstate : refusalCode .process s = .state := if_pos hl
        cases hstate.symm.trans hcode
      by_cases hn : s.arg0 = 0#32
      · exact .inl (by simp [acceptedState, hn, hl])
      · exact .inr (.inr ⟨rfl, hl, by simp [acceptedState, hn], rfl, hn⟩)
    | reset | setp | getp | ramp => exact .inl (by simp [acceptedState])
  · exact .inl rfl

/-- Of the host's accesses that are no command, only hardware reset changes `STATE`. -/
theorem hostAccess_lifecycle {op : HostOp} {s t : State} (h : hostAccess op s = .next t) :
    t.lifecycle = s.lifecycle ∨ (op = .hardReset ∧ t.lifecycle = .uninit) := by
  rcases hostAccess_cases h with ⟨i, v, -, rfl⟩ | ⟨i, -, rfl⟩ | ⟨c, i, v, -, -, rfl⟩ | ⟨c, i, -, -, rfl⟩ |
    ⟨-, rfl⟩ | ⟨hop, rfl⟩
  · exact .inl (regWrite_lifecycle s i v)
  · exact .inl rfl
  · exact .inl rfl
  · exact .inl rfl
  · exact .inl rfl
  · exact .inr ⟨hop, rfl⟩

/-- What a write to `CMD` can have done: run the command it decodes to, or be refused as illegal (R76, R80). -/
theorem issue_cases {w : Word} {s t : State} (h : issue w s = .next t) :
    (∃ i, decode w = .ok i ∧ exec i s = .next t) ∨ t = refuse .illegal s := by
  unfold issue at h
  split at h
  case h_1 i hd => exact .inl ⟨i, hd, h⟩
  case h_2 => exact .inr (Host.Outcome.next.inj h).symm

/-- The host's access changes `STATE` only as a hardware reset or as one of the two commands. -/
theorem hostStep_lifecycle {op : HostOp} {s t : State} (h : hostStep op s = .next t) :
    t.lifecycle = s.lifecycle ∨ (op = .hardReset ∧ t.lifecycle = .uninit) ∨
    ∃ w, portCommand op = some w ∧
      ((decode w = .ok .init ∧ s.lifecycle = .uninit ∧ t.lifecycle = .ready ∧ t.last = .none) ∨
       (decode w = .ok .process ∧ s.lifecycle = .ready ∧ t.lifecycle = .busy ∧ t.last = .none ∧ t.blkCount ≠ 0#32)) := by
  unfold hostStep at h
  split at h
  case h_1 w hw =>
    rcases issue_cases h with ⟨i, hd, he⟩ | rfl
    · rcases exec_lifecycle he with hl | ⟨rfl, hinit⟩ | ⟨rfl, hprocess⟩
      · exact .inl hl
      · exact .inr (.inr ⟨w, hw, .inl ⟨hd, hinit⟩⟩)
      · exact .inr (.inr ⟨w, hw, .inr ⟨hd, hprocess⟩⟩)
    · exact .inl rfl
  case h_2 => exact (hostAccess_lifecycle h).imp_right .inl

/-- Settles O12, by the agent that moves. -/
theorem lifecycleChangesOnlyByItsEvents : Obligations.LifecycleChangesOnlyByItsEvents := by
  intro s t h
  rcases step_cases h with ⟨-, rfl⟩ | ⟨hm, hb, u, hf, rfl⟩ | ⟨hm, op, rest, u, hq, ho, rfl⟩
  · exact .inl rfl
  · have hl : u.lifecycle = if s.blkF + 1#32 = s.blkCount then .ready else .busy :=
      (frameStepAdvancesTheBlock (tick s) u hf).2.1
    rw [drawTurn_lifecycle, hl]
    split
    case isTrue hlast => exact .inr (.inr (.inr (.inr ⟨hb, rfl, hlast, hm, u, hf, rfl⟩)))
    case isFalse => exact .inl hb.symm
  · rw [drawTurn_lifecycle, drawTurn_last, drawTurn_blkCount]
    rcases hostStep_lifecycle ho with hl | ⟨rfl, hl⟩ | ⟨w, hw, ⟨hd, hs, hl, hlast⟩ | ⟨hd, hs, hl, hlast, hn⟩⟩
    · exact .inl hl
    · exact .inr (.inl ⟨hl, hm, rest, hq⟩)
    · exact .inr (.inr (.inl ⟨hs, hl, hm, op, rest, w, hq, hw, hd, hlast⟩))
    · exact .inr (.inr (.inr (.inl ⟨hs, hl, hm, op, rest, w, hq, hw, hd, hlast, hn⟩)))

end Sys2Proof.Machine
end

section
/-! PROOFS. Refusals and progress: every step completes, a refusal writes `LAST` and `ERR` only, and the first code stays in `ERR`
(R16, R170, R171, R176, R178). -/

namespace Sys2Proof.Machine

/-! ## A step completes (R16, R170) -/

/-- Settles O58: each channel has a value, whatever its samples are, and the sample index lies inside the host buffers. -/
theorem frameStepAlwaysCompletes : Obligations.FrameStepAlwaysCompletes := by
  intro s h hb
  obtain ⟨rs, hrs⟩ := frameStep_total h hb
  exact ⟨finishFrame s rs, hrs⟩

/-- The engine moves only while a block runs. -/
theorem lifecycle_of_mover_engine {s : State} (h : mover s = some .engine) : s.lifecycle = .busy := by
  by_contra hb
  have hc : contested s = false := by simp [contested, hb]
  rw [mover, hc, if_neg Bool.false_ne_true, if_neg hb] at h
  split at h <;> cases h

theorem hostWord_iff {s : State} {c i : Nat} : hostWord s c i = true ↔ c < hostChannels s ∧ i < s.params.hostBufLen := by
  simp [hostWord]

/-- Whether an access is legal does not depend on the host's list or the step counter. -/
theorem HostOp.legal_popHost {op : HostOp} {s : State} {rest : List HostOp} : op.Legal (popHost s rest) ↔ op.Legal s := by
  cases op <;> rfl

theorem issue_of_decode_error {w : Word} {e : DecodeError} (h : decode w = .error e) (s : State) :
    issue w s = .next (refuse .illegal s) := by
  simp only [issue, h]

/-- A write to `CMD` always completes (R170, R171). -/
theorem issue_safe (w : Word) (s : State) : Safe (issue w s) := by
  cases hd : decode w with
  | ok i => rw [issue_of_decode hd]; exact exec_next i s
  | error e => exact ⟨refuse .illegal s, issue_of_decode_error hd s⟩

/-- A legal access passes the guard it has, if it has one (R53, R56). -/
theorem hostAccess_safe {op : HostOp} {s : State} (h : op.Legal s) : Safe (hostAccess op s) := by
  cases op with
  | writeReg | readReg | wait | hardReset => exact ⟨_, rfl⟩
  | writeBus | readBus => exact ⟨_, if_pos (alignedWord_iff.2 h)⟩
  | writeIn | readOut => exact ⟨_, if_pos (hostWord_iff.2 h)⟩

theorem hostStep_safe {op : HostOp} {s : State} (h : op.Legal s) : Safe (hostStep op s) := by
  unfold hostStep
  split
  · exact issue_safe _ s
  · exact hostAccess_safe h

/-- The agent that moves completes its action. -/
theorem act_safe {s : State} {a : Agent} (h : s.Inv) (hlegal : s.NextLegal) (hm : mover s = some a) : Safe (act s a) := by
  cases a with
  | engine => exact frameStepAlwaysCompletes (tick s) (tick_inv h) (lifecycle_of_mover_engine hm)
  | host =>
    cases hq : s.hostQ with
    | nil => exact ⟨s, by simp only [act, hq]⟩
    | cons op rest =>
      have hop : op.Legal (popHost s rest) := HostOp.legal_popHost.2 (hlegal op rest hq)
      simpa only [act, hq] using hostStep_safe hop

/-- Settles O59, by the agent that moves. -/
theorem stepAlwaysCompletes : Obligations.StepAlwaysCompletes := by
  intro s h hlegal
  cases hm : mover s with
  | none => exact ⟨s, by simp only [step, hm]⟩
  | some a =>
    obtain ⟨t, ht⟩ := act_safe h hlegal hm
    exact ⟨drawTurn t, by rw [step_of_mover hm, ht, andThen_next]⟩

/-! ## What a refusal writes (R171) -/

/-- Every accepted command leaves 0 in `LAST` (R22). -/
@[simp] theorem acceptedState_last (i : Instr) (s : State) : (acceptedState i s).last = .none := by
  cases i <;> rfl

/-- Settles O10: a command that leaves a code in `LAST` was refused, and a word that does not decode is. -/
theorem refusalWritesOnlyLastAndErr : Obligations.RefusalWritesOnlyLastAndErr := by
  refine ⟨fun i s t h hlast => ?_, fun w e s hd => issue_of_decode_error hd s⟩
  rcases exec_cases h with ⟨-, rfl⟩ | ⟨-, rfl⟩
  · exact absurd (acceptedState_last i s) hlast
  · rfl

/-! ## What each `STATE` accepts (R178) -/

theorem exec_accepts {i : Instr} {s : State} (h : refusalCode i s = .none) : ∃ t, exec i s = .next t ∧ t.last = .none :=
  ⟨acceptedState i s, exec_of_accepted h rfl, acceptedState_last i s⟩

/-- In `UNINIT` only INIT passes. -/
theorem refusalCode_of_uninit {i : Instr} {s : State} (hl : s.lifecycle = .uninit) (hi : i ≠ .init) :
    refusalCode i s = .state := by
  cases i with
  | init => exact absurd rfl hi
  | reset | process | setp | getp | ramp => simp [refusalCode, hl]

/-- In `BUSY` the commands on the configuration and on the block are refused. -/
theorem refusalCode_of_busy {i : Instr} {s : State} (hl : s.lifecycle = .busy) (hi : i = .init ∨ i = .reset ∨ i = .process) :
    refusalCode i s = .state := by
  rcases hi with rfl | rfl | rfl
  · exact if_pos hl
  · simp [refusalCode, hl]
  · simp [refusalCode, hl]

/-- Settles O11: each clause is the code of its command in its `STATE`. -/
theorem lifecycleGatesCommands : Obligations.LifecycleGatesCommands := by
  refine fun s => ⟨fun hl i hi => exec_of_refused (refusalCode_of_uninit hl hi) nofun,
    fun hl i hi => exec_of_refused (refusalCode_of_busy hl hi) nofun,
    fun hl hmin hmax hr hb ha => exec_accepts (initCheck_eq_none_iff.2 ⟨hl, hmin, hmax, hr, hb, ha⟩),
    fun hl => exec_accepts (if_pos hl), fun hl hn => exec_accepts ?_,
    fun hl pid => ⟨exec_accepts (if_neg hl), exec_accepts (if_neg hl), exec_accepts (if_neg hl)⟩,
    fun w e hd => issue_of_decode_error hd s⟩
  exact (if_neg (not_not_intro hl)).trans (if_neg (Nat.not_lt.2 hn))

/-! ## What clears `ERR` (R22, R176) -/

@[simp] theorem setParam_err (s : State) (p : Param) (v : F) : (setParam s p v).err = s.err := by
  cases p <;> simp [setParam]

@[simp] theorem rampParam_err (s : State) (p : Param) (v : F) (d : Word) : (rampParam s p v d).err = s.err := by
  cases p <;> simp [rampParam]

@[simp] theorem regWrite_err (s : State) (i : Nat) (v : Word) : (regWrite s i v).err = s.err := by
  unfold regWrite
  split <;> rfl

/-- A refusal does not replace a code. -/
theorem refuse_err_of_ne {s : State} (h : s.err ≠ .none) (e : Code) : (refuse e s).err = s.err := if_neg h

/-- Of the commands only an accepted INIT changes a code in `ERR`, and clears it. -/
theorem exec_err {i : Instr} {s t : State} (h : exec i s = .next t) (hs : s.err ≠ .none) :
    t.err = s.err ∨ (i = .init ∧ t.err = .none ∧ t.last = .none ∧ t.lifecycle = .ready) := by
  rcases exec_cases h with ⟨-, rfl⟩ | ⟨-, rfl⟩
  · cases i with
    | init => exact .inr ⟨rfl, rfl, rfl, rfl⟩
    | reset | process | setp | getp | ramp => exact .inl (by simp [acceptedState])
  · exact .inl (refuse_err_of_ne hs _)

/-- Of the other accesses only hardware reset does. -/
theorem hostAccess_err {op : HostOp} {s t : State} (h : hostAccess op s = .next t) :
    t.err = s.err ∨ (op = .hardReset ∧ t.err = .none) := by
  rcases hostAccess_cases h with ⟨i, v, -, rfl⟩ | ⟨i, -, rfl⟩ | ⟨c, i, v, -, -, rfl⟩ | ⟨c, i, -, -, rfl⟩ |
    ⟨-, rfl⟩ | ⟨hop, rfl⟩
  · exact .inl (regWrite_err s i v)
  · exact .inl rfl
  · exact .inl rfl
  · exact .inl rfl
  · exact .inl rfl
  · exact .inr ⟨hop, rfl⟩

theorem hostStep_err {op : HostOp} {s t : State} (h : hostStep op s = .next t) (hs : s.err ≠ .none) :
    t.err = s.err ∨ (t.err = .none ∧ (op = .hardReset ∨
      ∃ w, portCommand op = some w ∧ decode w = .ok .init ∧ t.last = .none ∧ t.lifecycle = .ready)) := by
  unfold hostStep at h
  split at h
  case h_1 w hw =>
    rcases issue_cases h with ⟨i, hd, he⟩ | rfl
    · rcases exec_err he hs with hkept | ⟨rfl, herr, hinit⟩
      · exact .inl hkept
      · exact .inr ⟨herr, .inr ⟨w, hw, hd, hinit⟩⟩
    · exact .inl (refuse_err_of_ne hs _)
  case h_2 => exact (hostAccess_err h).imp_right fun ⟨hop, herr⟩ => ⟨herr, .inl hop⟩

theorem frameStep_err {s t : State} (h : frameStep s = .next t) : t.err = s.err := by
  obtain ⟨-, rs, -, rfl⟩ := frameStep_eq_next.1 h
  rfl

/-- Settles O13, by the agent that moves. -/
theorem errIsSticky : Obligations.ErrIsSticky := by
  intro s t h hs
  rcases step_cases h with ⟨-, rfl⟩ | ⟨-, -, u, hf, rfl⟩ | ⟨hm, op, rest, u, hq, ho, rfl⟩
  · exact .inl rfl
  · exact .inl ((drawTurn_err u).trans (frameStep_err (s := tick s) hf))
  · rw [drawTurn_err, drawTurn_last, drawTurn_lifecycle]
    exact (hostStep_err ho hs).imp_right fun ⟨herr, hcause⟩ => ⟨herr, hm, op, rest, hq, hcause⟩

end Sys2Proof.Machine
end

section
/-! PROOFS. Hardware reset: what its step leaves in the registers, the host's side and the instance (R190, R191). -/

namespace Sys2Proof.Machine

/-- No turn is drawn unless a block runs. -/
theorem drawTurn_of_not_busy {s : State} (h : s.lifecycle ≠ .busy) : drawTurn s = s :=
  if_neg (by simp [contested, h])

/-- A host step with hardware reset as the next access is `hardReset`, whatever the engine was doing. -/
theorem step_of_hardReset {s : State} {rest : List HostOp} (hm : mover s = some .host) (hq : s.hostQ = .hardReset :: rest) :
    step s = .next (hardReset (popHost s rest)) := by
  have hact : act s .host = .next (hardReset (popHost s rest)) := by simp only [act, hq]; rfl
  have hidle : (hardReset (popHost s rest)).lifecycle ≠ .busy := by rw [hardReset_lifecycle]; decide
  rw [step_of_mover hm, hact, andThen_next, drawTurn_of_not_busy hidle]

/-- Settles O52: the step is `hardReset`, which puts the reset values into the engine, drops the records and keeps the rest; the
configuration registers read 0 because the machine is then `UNINIT` (R21). -/
theorem hardwareResetLeavesUninit : Obligations.HardwareResetLeavesUninit := by
  intro s rest hm hq
  obtain ⟨-, hconfig, -⟩ := controlRegisterFile (hardReset (popHost s rest)) 0#32
  obtain ⟨hnch, hfs⟩ := hconfig rfl
  exact ⟨_, step_of_hardReset hm hq, rfl, rfl, rfl, rfl, rfl, rfl, rfl, rfl, rfl, hnch, hfs,
    rfl, rfl, rfl, rfl, rfl, rfl, rfl, rfl⟩

end Sys2Proof.Machine
end
